-- ==== Sys2Proof/Word.lean ====
section
/-! DEFINITION. The word types of QLC-CORE: the byte of the buffer spaces and the 32-bit register word (00_scope.md R7, 10_state.md
section 3). Nothing else stands here. -/

namespace Sys2Proof

/-- One byte of SRC, OUT or ENC; a channel intensity is a byte (R7, CHAN_BITS = 8). -/
abbrev Byte := BitVec 8

/-- A register word or a command word (R50). -/
abbrev Word := BitVec 32

end Sys2Proof
end

