-- ==== Sys2Proof/Config.lean ====
section
/-! DEFINITION. What an implementation fixes (00_scope.md R7): the types of the configuration record and the constants that stay
without a body. The values this hardware takes stand in Machine/Rom.lean. The configuration is not state (R27). -/

namespace Sys2Proof

/-- `CFG.cutoff_div`: whether `/` in the 2-bit cutoff formulas is exact or floored (R71, D10). -/
inductive CutoffDiv where
  | exact
  | floor
  deriving DecidableEq, Repr

/-- `CFG.readout`: whether a WORK value is clamped when it is read for quantization (R87, D11). -/
inductive ReadoutMode where
  | clamped
  | raw
  deriving DecidableEq, Repr

/-- What the engine does with a ditherAmount above 1 (93_implementation_defined.md U1): refuse the command, or evaluate the rules
as written, which U1 permits. -/
inductive OverRange where
  | refuse
  | evaluate
  deriving DecidableEq, Repr

/-- The six address spaces (R30). -/
inductive Space where
  | src
  | out
  | enc
  | work
  | bayer
  | pal
  deriving DecidableEq, Repr

/-- The side of a Bayer matrix (R100): the matrix-size tag. -/
inductive MatrixSize where
  | n2
  | n4
  | n8
  deriving DecidableEq, Repr

/-- The eight colour names of ROM PAL (R22, R133). -/
inductive ColourName where
  | black
  | blue
  | red
  | magenta
  | green
  | cyan
  | yellow
  | white
  deriving DecidableEq, Repr

/-- One entry of ROM PAL: a colour name, the two 2-bit code fragments, and the RGB triple, which is informative and read by no
rule (R22, R133). -/
structure PalEntry where
  name : ColourName
  f1 : BitVec 2
  f2 : BitVec 2
  rgb : Byte × Byte × Byte
  deriving DecidableEq, Repr

/-- The configuration record (R7). -/
structure Config where
  cutoffDiv : CutoffDiv
  readout : ReadoutMode
  /-- `CFG.fs_round`, applied to the error of a Floyd-Steinberg visit (R90, R97). -/
  fsRound : Rat → Rat
  /-- `CFG.BAYER`: the rows of each matrix, top to bottom (R101). -/
  bayer : MatrixSize → List (List Nat)
  /-- `CFG.PAL`: entry 0 first (R133). -/
  pal : List PalEntry
  /-- `PAL_HIGH_INCLUSIVE`: whether a channel equal to 85 is high for the palette (R131). -/
  palHighInclusive : Bool
  overRange : OverRange
  /-- `ENC_CAP`: the capacity of space ENC in bytes. -/
  encCap : Nat

/-- DESIGN CHOICE (log entry 21): `PAL_HIGH_INCLUSIVE` is OPEN in the spec (D22), so it has no body here. -/
opaque Config.openPalHighInclusive : Bool

/-- DESIGN CHOICE (log entry 7): what a byte that nothing has written reads as (U8: any value). The arguments are the space, the
number of the reset (for ENC, of the restart) since which nothing wrote it, and its address. -/
opaque Config.unspecByte : Space → Nat → Nat → Byte

/-- DESIGN CHOICE (log entry 8): what an element of WORK that nothing has written holds (U8: any value). The arguments are the
number of the reset and the element's index. -/
opaque Config.unspecWork : Nat → Nat → Rat

end Sys2Proof
end

