-- ==== Sys2Proof/Machine/State.lean ====
section
/-! DEFINITION. The state of QLC-CORE as plain data (10_state.md), the reasons a step can stop, and the state right after reset. -/

namespace Sys2Proof.Machine

/-- Why the machine stops with a fault. The hardware raises no exception (R145): every fault here stands in states that no run
reaches, and stopping there is safe. -/
inductive Fault where
  /-- Raised by an engine step whose cursor lies outside the command's range of rule R16. No run reaches such a state (the command
  finishes before a component could exceed its range). Safe: the model stops where the spec gives no address. -/
  | cursorOutside
  /-- Raised by the engine when BUSY = 1 and the latched parameter registers name no command of rule R53. No run reaches it: command
  start latches only words of the table. Safe. -/
  | latchIllegal
  /-- Raised by an ENCODE step that would append at or above ENC_CAP, an address that does not exist (R19). No run reaches it: the
  capacity holds every legal output (R7). Safe. -/
  | encCapacity
  deriving DecidableEq, Repr

/-- Why a situation has no meaning: the `undefined(...)` cases of the spec (R8, R146) and the commands not modelled yet. -/
inductive Refusal where
  /-- Raised by `exec` for a command that has no meaning yet. Safe. -/
  | notModelled (mnemonic : String)
  /-- U6 (R56): a command start with IMG_W = 0 or IMG_H = 0. Safe: the spec gives no behaviour and refuses. -/
  | zeroDimension
  /-- U1 (R56, R147): an FS, ATK or ORD command start with DAMOUNT over 256, under `OverRange.refuse` only. Safe. -/
  | ditherAmount
  /-- U3 (R56, R122): an ENCB command start with W mod 4 other than 0. Safe: the spec gives no behaviour and refuses. -/
  | formatBWidth
  /-- U4 (R119): an ENCA.2 step that reads a byte other than 0, 85, 170, 255. Safe: the spec gives no behaviour and refuses. -/
  | notALevel
  /-- U7 (R155, R166): a host buffer access that is no move of the host: while BUSY = 1, outside the size in use, or to a space the
  host may not reach. Safe in the model: the run stops; the spec assumes that the host makes no such access. -/
  | hostBuffer
  deriving DecidableEq, Repr

/-- A byte space: the bytes something has written, at strictly rising addresses. An unlisted address holds no written byte
(`Config.unspecByte` is what it reads as). -/
abbrev Memory := List Host.Cell

/-- Space WORK: the elements something has written, at strictly rising indexes; exact rationals (R20). -/
abbrev WorkSpace := List (Nat × Rat)

/-- The STATUS register's four flags (R12); bits 31:4 are hard-wired zero and not stored. -/
structure Status where
  busy : Bool
  done : Bool
  diag : Bool
  ill : Bool
  deriving DecidableEq, Repr

/-- The six latched parameter registers (R10). What they hold between commands is the model's choice (R25, R176, U9; log entries 5
and 32). -/
structure Params where
  op : BitVec 4
  alg : BitVec 3
  bd : BitVec 1
  t : BitVec 8
  da : BitVec 9
  tp : BitVec 1
  deriving DecidableEq, Repr

/-- The cursor, the program counter's analogue: six components of 13 bits, of which each command uses those of rule R16.
What the components hold while no command executes is the model's choice (R16, U9; log entries 6, 23 and 31). -/
structure Cursor where
  x : BitVec 13
  y : BitVec 13
  p : BitVec 13
  j : BitVec 13
  g : BitVec 13
  hdr : BitVec 13
  deriving DecidableEq, Repr

/-- What the host may ask of the block (R155). Register numbers and addresses are plain numbers: the spec gives no bus (R34). -/
inductive HostMove where
  | readReg (n : Nat)
  | writeReg (n : Nat) (v : Word)
  | readBuf (sp : Space) (a : Nat)
  | writeBuf (sp : Space) (a : Nat) (v : Byte)
  | reset
  deriving DecidableEq, Repr

/-- Whose turn it is: the engine's (one step, if it has one) or the host's (one move). -/
inductive Turn where
  | engine
  | host (m : HostMove)
  deriving DecidableEq, Repr

/-- The MODEL's own: the order in which host and engine move next, and the value the host's last read returned. -/
structure Port where
  agenda : List Turn
  rdata : Word
  deriving DecidableEq, Repr

/-- The whole state. `port`, `epoch` and `encGen` are the MODEL's own; every other field is the spec's. -/
structure State where
  /-- CMD, register 0 (R11). -/
  cmd : Word
  /-- STATUS, register 1 (R12). -/
  status : Status
  /-- IMG_W, register 2, bits 11:0 (R13). -/
  imgW : BitVec 12
  /-- IMG_H, register 3, bits 11:0 (R14). -/
  imgH : BitVec 12
  /-- ENC_LEN, register 4 (R15). -/
  encLen : Word
  /-- The latched parameter registers (R10). -/
  par : Params
  /-- The cursor (R16). -/
  cur : Cursor
  /-- Space SRC (R17). -/
  src : Memory
  /-- Space OUT (R18). -/
  out : Memory
  /-- Space ENC (R19). -/
  enc : Memory
  /-- Space WORK (R20). -/
  work : WorkSpace
  /-- The pending turns and the host's read data (log entries 2 and 3). -/
  port : Port
  /-- How many resets have happened: the argument of the free value of an unwritten byte (log entry 7). -/
  epoch : Nat
  /-- How often ENC has been restarted: the same for ENC (log entry 9). -/
  encGen : Nat
  deriving DecidableEq, Repr

/-- STATUS right after reset: 0x00000000 (R28). -/
def Status.reset : Status := ⟨false, false, false, false⟩

/-- DESIGN CHOICE (log entry 5): rule R28 leaves the parameter registers unspecified after reset; the model holds 0. -/
def Params.reset : Params := ⟨0, 0, 0, 0, 0, 0⟩

/-- DESIGN CHOICE (log entry 6): rule R28 leaves the cursor unspecified after reset; the model holds 0. -/
def Cursor.reset : Cursor := ⟨0, 0, 0, 0, 0, 0⟩

/-- The machine right after reset (R28): control registers 0, engine idle, no byte of any buffer written. -/
def State.reset : State where
  cmd := 0
  status := Status.reset
  imgW := 0
  imgH := 0
  encLen := 0
  par := Params.reset
  cur := Cursor.reset
  src := []
  out := []
  enc := []
  work := []
  port := ⟨[], 0⟩
  epoch := 0
  encGen := 0

end Sys2Proof.Machine
end

