-- ==== Sys2Proof/Machine/Flags.lean ====
section
/-! DEFINITION. The STATUS flags: what each event does to them and how the register reads (10_state.md R12, R24, R26; 30_encoding.md
R56, R57, R60). There are no arithmetic condition codes (R26). -/

namespace Sys2Proof.Machine

/-- STATUS as the 32-bit word the host reads: BUSY bit 0, DONE bit 1, DIAG bit 2, ILL bit 3, bits 31:4 zero (R12). -/
def statusWord (st : Status) : Word :=
  0#28 ++ BitVec.ofBool st.ill ++ BitVec.ofBool st.diag ++ BitVec.ofBool st.done ++ BitVec.ofBool st.busy

/-- The start of a legal command: DONE, DIAG and ILL cleared, BUSY set (R56). -/
def statusStart : Status := ⟨true, false, false, false⟩

/-- An accepted reserved word: DIAG cleared, ILL and DONE set, BUSY 0 (R56, R57). -/
def statusReserved : Status := ⟨false, true, false, true⟩

/-- The finishing step: BUSY cleared, DONE set, DIAG and ILL as they are (R60). -/
def statusFinish (st : Status) : Status := { st with busy := false, done := true }

/-- Step 0 of ENCASM with W mod 4 other than 0: DIAG set (R138). -/
def statusDiag (st : Status) : Status := { st with diag := true }

end Sys2Proof.Machine
end

