-- ==== Sys2Proof/Syntax.lean ====
section
/-! DEFINITION. The 18 commands of 30_encoding.md rule R53, one constructor per row of spec/opcode_table.json. -/

namespace Sys2Proof

/-- A command. Format C commands (R51) carry the THRESHOLD field `t` and the DAMOUNT field `da`; Format E commands (R52) have no
variable field. -/
inductive Instr where
  | thr1   (t : BitVec 8) (da : BitVec 9)
  | thr2   (t : BitVec 8) (da : BitVec 9)
  | fs1    (t : BitVec 8) (da : BitVec 9)
  | fs2    (t : BitVec 8) (da : BitVec 9)
  | atk1   (t : BitVec 8) (da : BitVec 9)
  | atk2   (t : BitVec 8) (da : BitVec 9)
  | ord2_1 (t : BitVec 8) (da : BitVec 9)
  | ord2_2 (t : BitVec 8) (da : BitVec 9)
  | ord4_1 (t : BitVec 8) (da : BitVec 9)
  | ord4_2 (t : BitVec 8) (da : BitVec 9)
  | ord8_1 (t : BitVec 8) (da : BitVec 9)
  | ord8_2 (t : BitVec 8) (da : BitVec 9)
  | enca1
  | enca2
  | encb1p
  | encb2p
  | encasm1p
  | encasm2p
  deriving DecidableEq, Repr

end Sys2Proof
end

