-- ==== Sys2Proof/Decode.lean ====
section
/-! DEFINITION. From a command word to a command, or to the named reason why the word is reserved (30_encoding.md R50 to R54,
R57), and the encoder written from the same tables. -/

namespace Sys2Proof

/-- Why a word is a reserved encoding: the cases of rule R57. -/
inductive Reserved where
  /-- OPC is 0 or 5 to 15. -/
  | opc
  /-- Format C with ALG 6 or 7. -/
  | alg
  /-- Format C with one of bits 15:9 set. -/
  | zeroC
  /-- Format E with one of bits 27:25 or 23:1 set. -/
  | zeroE
  /-- ENCA with bit 0 set. -/
  | encaTp
  /-- ENCB or ENCASM with bit 24 set. -/
  | encodeBd
  deriving DecidableEq, Repr

/-- Field OPC, bits 31:28 (R50). -/
def fieldOpc (w : Word) : BitVec 4 := w.extractLsb' 28 4
/-- Field ALG, bits 27:25 of Format C; the zero field of Format E (R51, R52). -/
def fieldAlg (w : Word) : BitVec 3 := w.extractLsb' 25 3
/-- Field BD, bit 24 (R51, R52). -/
def fieldBd (w : Word) : BitVec 1 := w.extractLsb' 24 1
/-- Field THRESHOLD, bits 23:16 (R51). -/
def fieldT (w : Word) : BitVec 8 := w.extractLsb' 16 8
/-- The zero field of Format C, bits 15:9 (R51). -/
def fieldZeroC (w : Word) : BitVec 7 := w.extractLsb' 9 7
/-- Field DAMOUNT, bits 8:0 (R51). -/
def fieldDa (w : Word) : BitVec 9 := w.extractLsb' 0 9
/-- The low zero field of Format E, bits 23:1 (R52). -/
def fieldZeroE (w : Word) : BitVec 23 := w.extractLsb' 1 23
/-- Field TP, bit 0 (R52). -/
def fieldTp (w : Word) : BitVec 1 := w.extractLsb' 0 1

/-- The Format C command of an algorithm code and a bit depth code (R53, R54); codes 6 and 7 are reserved. -/
def convertOf (alg : BitVec 3) (bd : BitVec 1) (t : BitVec 8) (da : BitVec 9) : Except Reserved Instr :=
  match alg.toNat, bd.toNat with
  | 0, 0 => .ok (.thr1 t da)
  | 0, _ => .ok (.thr2 t da)
  | 1, 0 => .ok (.fs1 t da)
  | 1, _ => .ok (.fs2 t da)
  | 2, 0 => .ok (.atk1 t da)
  | 2, _ => .ok (.atk2 t da)
  | 3, 0 => .ok (.ord2_1 t da)
  | 3, _ => .ok (.ord2_2 t da)
  | 4, 0 => .ok (.ord4_1 t da)
  | 4, _ => .ok (.ord4_2 t da)
  | 5, 0 => .ok (.ord8_1 t da)
  | 5, _ => .ok (.ord8_2 t da)
  | _, _ => .error .alg

/-- Format C (R51). -/
def decodeC (w : Word) : Except Reserved Instr :=
  if fieldZeroC w = 0 then convertOf (fieldAlg w) (fieldBd w) (fieldT w) (fieldDa w) else .error .zeroC

/-- ENCA, OPC 2 (R52): BD selects the variant, bit 0 must be 0. -/
def decodeEncA (w : Word) : Except Reserved Instr :=
  if fieldTp w = 0 then (if fieldBd w = 0 then .ok .enca1 else .ok .enca2) else .error .encaTp

/-- ENCB, OPC 3 (R52): TP selects the variant, bit 24 must be 0. -/
def decodeEncB (w : Word) : Except Reserved Instr :=
  if fieldBd w = 0 then (if fieldTp w = 0 then .ok .encb1p else .ok .encb2p) else .error .encodeBd

/-- ENCASM, OPC 4 (R52): TP selects the variant, bit 24 must be 0. -/
def decodeEncAsm (w : Word) : Except Reserved Instr :=
  if fieldBd w = 0 then (if fieldTp w = 0 then .ok .encasm1p else .ok .encasm2p) else .error .encodeBd

/-- The zero fields of Format E, bits 27:25 and 23:1 (R52). -/
def formatEZero (w : Word) : Bool := fieldAlg w == 0 && fieldZeroE w == 0

/-- The command a word stands for, or the reason why it is reserved (R50, R53, R57). Total on every word. -/
def decode (w : Word) : Except Reserved Instr :=
  match (fieldOpc w).toNat with
  | 1 => decodeC w
  | 2 => if formatEZero w then decodeEncA w else .error .zeroE
  | 3 => if formatEZero w then decodeEncB w else .error .zeroE
  | 4 => if formatEZero w then decodeEncAsm w else .error .zeroE
  | _ => .error .opc

/-- Format C laid out: OPC 1, ALG, BD, THRESHOLD, seven zero bits, DAMOUNT (R51). -/
def formatC (alg : BitVec 3) (bd : BitVec 1) (t : BitVec 8) (da : BitVec 9) : Word :=
  1#4 ++ alg ++ bd ++ t ++ 0#7 ++ da

/-- Format E laid out: OPC, three zero bits, BD, 23 zero bits, TP (R52). -/
def formatE (opc : BitVec 4) (bd : BitVec 1) (tp : BitVec 1) : Word :=
  opc ++ 0#3 ++ bd ++ 0#23 ++ tp

/-- The word of a command (R51 to R54). -/
def encode : Instr → Word
  | .thr1 t da => formatC 0 0 t da
  | .thr2 t da => formatC 0 1 t da
  | .fs1 t da => formatC 1 0 t da
  | .fs2 t da => formatC 1 1 t da
  | .atk1 t da => formatC 2 0 t da
  | .atk2 t da => formatC 2 1 t da
  | .ord2_1 t da => formatC 3 0 t da
  | .ord2_2 t da => formatC 3 1 t da
  | .ord4_1 t da => formatC 4 0 t da
  | .ord4_2 t da => formatC 4 1 t da
  | .ord8_1 t da => formatC 5 0 t da
  | .ord8_2 t da => formatC 5 1 t da
  | .enca1 => formatE 2 0 0
  | .enca2 => formatE 2 1 0
  | .encb1p => formatE 3 0 0
  | .encb2p => formatE 3 0 1
  | .encasm1p => formatE 4 0 0
  | .encasm2p => formatE 4 0 1

/-- The decoder's answer for a word whose lowest `nbits` bits are those of `w` and whose other bits are 0. A command is one 32-bit
register word, so no byte order applies (R31, R50). -/
def decodeTableWord (nbits w : Nat) : Option Instr :=
  (decode (BitVec.ofNat 32 (w % 2 ^ nbits))).toOption

end Sys2Proof
end

