-- ==== Sys2Proof/Machine/Operands.lean ====
section
/-! DEFINITION. Operand assembly (30_encoding.md R54), the arithmetic notation of 00_scope.md R8 and the address formulas of
20_memory.md R35, R36: pure functions, no memory. -/

namespace Sys2Proof.Machine

/-- `clamp(v, lo, hi)` of rule R8. -/
def clampR (v lo hi : Rat) : Rat := if v < lo then lo else if v > hi then hi else v

/-- `ceil(a/n)` for natural numbers (R8). -/
def ceilDiv (a n : Nat) : Nat := (a + (n - 1)) / n

/-- A channel byte entering rational arithmetic: an unsigned integer 0..255 (R35). -/
def byteRat (b : Byte) : Rat := (b.toNat : Rat)

/-- `W` (R8). -/
def imgWidth (s : State) : Nat := s.imgW.toNat

/-- `H` (R8). -/
def imgHeight (s : State) : Nat := s.imgH.toNat

/-- The ditherAmount d = P.DA/256, an exact rational (R10, R54). -/
def ditherAmount (p : Params) : Rat := (p.da.toNat : Rat) / 256

/-- The command word the latched parameter registers stand for (R10): Format C when P.OP = 1, Format E otherwise. -/
def latchedWord (p : Params) : Word :=
  if p.op = 1 then formatC p.alg p.bd p.t p.da else formatE p.op p.bd p.tp

/-- Byte address of channel `c` of pixel (x, y) in SRC and OUT (R35). -/
def pixelAddr (w x y c : Nat) : Nat := 4 * (y * w + x) + c

/-- Index of a WORK element (R35). -/
def workIdx (w h c x y : Nat) : Nat := c * w * h + y * w + x

/-- Bytes of SRC and OUT in use (R30, R34). -/
def sizeInUse (s : State) : Nat := 4 * imgWidth s * imgHeight s

/-- The largest size in use of any legal image, 4 * 4095 * 4095 (R7, R13). -/
def largestSize : Nat := 4 * 4095 * 4095

/-- The position a displacement reaches from (x, y), if it lies inside the bounds; no wrap (R36). -/
def neighbour (w h x y : Nat) (dx dy : Int) : Option (Nat × Nat) :=
  if 0 ≤ (x : Int) + dx ∧ (x : Int) + dx < w ∧ 0 ≤ (y : Int) + dy ∧ (y : Int) + dy < h then
    some (((x : Int) + dx).toNat, ((y : Int) + dy).toNat)
  else none

/-- The row stride of Format A in bytes, with `n` pixels a byte: 8 for the 1-bit variant, 4 for the 2-bit variant (R35, R117). -/
def encaStride (n : Nat) (s : State) : Nat := ceilDiv (imgWidth s) n

/-- Groups of four pixels in a row (R16, R35). -/
def groupsPerRow (s : State) : Nat := imgWidth s / 4

end Sys2Proof.Machine
end

