-- ==== Sys2Proof/Machine/Rom.lean ====
section
/-! DEFINITION. The contents of the two ROMs and the configuration this hardware takes (00_scope.md R7, 42_bayer_matrix_ditherer.md
R101, 44_nibble_palette_encoder.md R133). -/

namespace Sys2Proof.Machine

/-- BAYER_2 (R101). PRESUMED, log entry 19: from general knowledge, not in the source. -/
def bayer2 : List (List Nat) := [[0, 2], [3, 1]]

/-- BAYER_4 (R101). PRESUMED, log entry 19. -/
def bayer4 : List (List Nat) := [[0, 8, 2, 10], [12, 4, 14, 6], [3, 11, 1, 9], [15, 7, 13, 5]]

/-- BAYER_8 (R101). PRESUMED, log entry 19. -/
def bayer8 : List (List Nat) :=
  [[0, 32, 8, 40, 2, 34, 10, 42],
   [48, 16, 56, 24, 50, 18, 58, 26],
   [12, 44, 4, 36, 14, 46, 6, 38],
   [60, 28, 52, 20, 62, 30, 54, 22],
   [3, 35, 11, 43, 1, 33, 9, 41],
   [51, 19, 59, 27, 49, 17, 57, 25],
   [15, 47, 7, 39, 13, 45, 5, 37],
   [63, 31, 55, 23, 61, 29, 53, 21]]

/-- ROM BAYER: from the matrix-size tag to the matrix (R21, R100). -/
def bayerRom : MatrixSize → List (List Nat)
  | .n2 => bayer2
  | .n4 => bayer4
  | .n8 => bayer8

/-- ROM PAL (R22, R133): fragment 1 is the green bit and 0, fragment 2 the red bit and the blue bit. -/
def palRom : List PalEntry :=
  [⟨.black, 0b00, 0b00, (0, 0, 0)⟩,
   ⟨.blue, 0b00, 0b01, (0, 0, 255)⟩,
   ⟨.red, 0b00, 0b10, (255, 0, 0)⟩,
   ⟨.magenta, 0b00, 0b11, (255, 0, 255)⟩,
   ⟨.green, 0b10, 0b00, (0, 255, 0)⟩,
   ⟨.cyan, 0b10, 0b01, (0, 255, 255)⟩,
   ⟨.yellow, 0b10, 0b10, (255, 255, 0)⟩,
   ⟨.white, 0b10, 0b11, (255, 255, 255)⟩]

/-- The configuration of this hardware (R7). `palHighInclusive` is OPEN and has no value here; `overRange` is the reading of U1
that lets the command run (DESIGN CHOICE, log entry 10); `encCap` is the least capacity the spec allows (log entry 22). -/
def hwConfig : Config where
  cutoffDiv := .exact
  readout := .clamped
  fsRound := fun e => e
  bayer := bayerRom
  pal := palRom
  palHighInclusive := Config.openPalHighInclusive
  overRange := .evaluate
  encCap := 83808299

end Sys2Proof.Machine
end

