-- ==== Sys2Proof/Machine/Ops.lean ====
section
/-! DEFINITION. The named operations over memory, cursor and registers that the commands share: reading and writing the spaces
(20_memory.md), EncAppend (00_scope.md R8), advancing the cursor (10_state.md R16), command start and finish (30_encoding.md R56, R60)
and the reserved word (R57). The hardware raises no exception (R145), so there is no operation that takes one. -/

namespace Sys2Proof.Machine

/-- One transition's answer. -/
abbrev Result := Host.Outcome State Fault Refusal

/-- What a sparse space lists at a key. -/
def cellGet {α : Type} : List (Nat × α) → Nat → Option α
  | [], _ => none
  | (k, v) :: m, a => if k = a then some v else cellGet m a

/-- A sparse space with `v` listed at `a`, kept at strictly rising keys. -/
def cellPut {α : Type} : List (Nat × α) → Nat → α → List (Nat × α)
  | [], a, v => [(a, v)]
  | (k, w) :: m, a, v =>
    if a < k then (a, v) :: (k, w) :: m
    else if a = k then (a, v) :: m
    else (k, w) :: cellPut m a v

/-- The canonical form of a byte space: strictly rising addresses. Nothing else is asked, since an unlisted address holds no byte
(log entry 7). -/
abbrev Memory.wf (m : Memory) : Prop := m.Pairwise (fun p q => p.1 < q.1)

/-- The canonical form of WORK. -/
abbrev WorkSpace.wf (m : WorkSpace) : Prop := m.Pairwise (fun p q => p.1 < q.1)

/-! ### Reading and writing the spaces -/

/-- `MemRead(SRC, a, 1)` (R8); a byte nothing has written is a free value (log entry 7). -/
def srcByte (s : State) (a : Nat) : Byte := (cellGet s.src a).getD (Config.unspecByte .src s.epoch a)

/-- `MemRead(OUT, a, 1)` (R8). -/
def outByte (s : State) (a : Nat) : Byte := (cellGet s.out a).getD (Config.unspecByte .out s.epoch a)

/-- `MemRead(ENC, a, 1)` (R8); ENC starts anew at every ENCODE command (R173, log entry 9). -/
def encByte (s : State) (a : Nat) : Byte := (cellGet s.enc a).getD (Config.unspecByte .enc s.encGen a)

/-- The WORK element at an index (R20); an element nothing has written is a free value (log entry 8). -/
def workAt (s : State) (i : Nat) : Rat := (cellGet s.work i).getD (Config.unspecWork s.epoch i)

/-- `MemWrite(SRC, a, 1, v)` (R8): the host's alone. -/
def writeSrc (a : Nat) (v : Byte) (s : State) : State := { s with src := cellPut s.src a v }

/-- `MemWrite(OUT, a, 1, v)` (R8). -/
def writeOut (a : Nat) (v : Byte) (s : State) : State := { s with out := cellPut s.out a v }

/-- A WORK element written; never clamped or rounded on store (R86). -/
def writeWork (i : Nat) (v : Rat) (s : State) : State := { s with work := cellPut s.work i v }

/-- `EncAppend(b)` (R8): the byte at address ENC_LEN, and ENC_LEN one more. -/
def encAppend (b : Byte) (s : State) : State :=
  { s with enc := cellPut s.enc s.encLen.toNat b, encLen := s.encLen + 1 }

/-- A sequence of EncAppend, one per byte. -/
def encAppendAll : List Byte → State → State
  | [], s => s
  | b :: bs, s => encAppendAll bs (encAppend b s)

/-- `SRC[y][x][c]` (R8). -/
def srcChan (s : State) (x y c : Nat) : Byte := srcByte s (pixelAddr (imgWidth s) x y c)

/-- `OUT[y][x][c]` (R8). -/
def outChan (s : State) (x y c : Nat) : Byte := outByte s (pixelAddr (imgWidth s) x y c)

/-- `WORK[c][y][x]` (R8). -/
def workChan (s : State) (c x y : Nat) : Rat := workAt s (workIdx (imgWidth s) (imgHeight s) c x y)

/-! ### The cursor and the finish of a command -/

/-- Command finish (R60): BUSY cleared and DONE set, when `done` says that the cursor has its finishing value.
DESIGN CHOICE (log entry 31): the cursor then keeps what the finishing step left in it until the next command start or reset; the
spec leaves it unspecified while no command executes (R16, U9).
DESIGN CHOICE (log entry 32): the parameter registers then keep their latched values until the next command start or reset; the
spec leaves them unspecified between commands (R176, U9), where only a command start writes them (R10). -/
def finishIf (done : Bool) (s : State) : State :=
  if done then { s with status := statusFinish s.status } else s

/-- The raster cursor of CONVERT lies inside the image (R16). -/
def rasterInside (s : State) : Bool :=
  decide (s.cur.x.toNat < imgWidth s) && decide (s.cur.y.toNat < imgHeight s)

/-- `x <- x+1; if x = W then (x <- 0; y <- y+1)`, finishing at y = H (R16, R60). -/
def advanceRaster (s : State) : State :=
  if (s.cur.x + 1).toNat = imgWidth s then
    finishIf (decide ((s.cur.y + 1).toNat = imgHeight s)) { s with cur := { s.cur with x := 0, y := s.cur.y + 1 } }
  else { s with cur := { s.cur with x := s.cur.x + 1 } }

/-- The cursor of ENCA lies inside its range, for a row stride (R16). -/
def planesInside (stride : Nat) (s : State) : Bool :=
  decide (s.cur.p.toNat < 3) && decide (s.cur.y.toNat < imgHeight s) && decide (s.cur.j.toNat < stride)

/-- `j <- j+1; if j = S then (j <- 0; y <- y+1; if y = H then (y <- 0; p <- p+1))`, finishing at p = 3 (R16, R60). -/
def advancePlanes (stride : Nat) (s : State) : State :=
  if (s.cur.j + 1).toNat = stride then
    if (s.cur.y + 1).toNat = imgHeight s then
      finishIf (decide ((s.cur.p + 1).toNat = 3)) { s with cur := { s.cur with j := 0, y := 0, p := s.cur.p + 1 } }
    else { s with cur := { s.cur with j := 0, y := s.cur.y + 1 } }
  else { s with cur := { s.cur with j := s.cur.j + 1 } }

/-- The cursor of ENCB lies inside its range (R16). -/
def groupsInside (s : State) : Bool :=
  decide (s.cur.y.toNat < imgHeight s) && decide (s.cur.g.toNat < groupsPerRow s)

/-- `g <- g+1; if g = W/4 then (g <- 0; y <- y+1)`, finishing at y = H (R16, R60). -/
def advanceGroups (s : State) : State :=
  if (s.cur.g + 1).toNat = groupsPerRow s then
    finishIf (decide ((s.cur.y + 1).toNat = imgHeight s)) { s with cur := { s.cur with g := 0, y := s.cur.y + 1 } }
  else { s with cur := { s.cur with g := s.cur.g + 1 } }

/-- A row step of ENCASM: `y <- y+1`, finishing at y = H (R16, R139). -/
def advanceLines (s : State) : State :=
  finishIf (decide ((s.cur.y + 1).toNat = imgHeight s)) { s with cur := { s.cur with y := s.cur.y + 1 } }

/-! ### The shapes of a step -/

/-- A CONVERT step: the pixel at the cursor, then the cursor's advance (R23). -/
def pixelStep (pixel : State → State) (s : State) : Result :=
  if rasterInside s then .next (advanceRaster (pixel s)) else .fault .cursorOutside

/-- The bytes of an ENCODE step appended, then `after`; no address at or above ENC_CAP exists (R19, log entry 22). -/
def emit (cfg : Config) (bytes : List Byte) (after : State → State) (s : State) : Result :=
  if s.encLen.toNat + bytes.length ≤ cfg.encCap then .next (after (encAppendAll bytes s)) else .fault .encCapacity

/-- The R, G, B and A bytes of the pixel at the cursor written; A is 255 for every CONVERT (R80). -/
def writePixel (r g b : Byte) (s : State) : State :=
  let x := s.cur.x.toNat
  let y := s.cur.y.toNat
  let w := imgWidth s
  writeOut (pixelAddr w x y 3) 255 (writeOut (pixelAddr w x y 2) b
    (writeOut (pixelAddr w x y 1) g (writeOut (pixelAddr w x y 0) r s)))

/-- The one transition of a command that is due: its start while BUSY = 0 (R56), one of its steps while BUSY = 1 (R23, R60);
log entry 1. -/
def runCommand (start one : State → Result) (s : State) : Result :=
  if s.status.busy then one s else start s

/-! ### Command start -/

/-- `WORK[c][y][x] <- SRC[y][x][c]` for every element (R56, R86), listed by index: element i is channel i div (W*H) of pixel
i mod (W*H), both numbered as in rule R35. -/
def initialWork (s : State) : WorkSpace :=
  let n := imgWidth s * imgHeight s
  (List.range (3 * n)).map (fun i => (i, byteRat (srcByte s (4 * (i % n) + i / n))))

/-- WORK initialised at the start of an FS or ATK command, P.ALG 1 or 2 (R56); other commands leave it as it is (R174). -/
def loadWork (s : State) : State :=
  if s.par.alg = 1 ∨ s.par.alg = 2 then { s with work := initialWork s } else s

/-- The CONVERT part of P latched (R56). -/
def latchConvert (alg : BitVec 3) (bd : BitVec 1) (t : BitVec 8) (da : BitVec 9) (s : State) : State :=
  { s with par := { s.par with op := 1, alg := alg, bd := bd, t := t, da := da } }

/-- `pc <- (x = 0, y = 0)` and BUSY set, the end of a CONVERT start (R56). -/
def beginRaster (s : State) : State :=
  { s with cur := { s.cur with x := 0, y := 0 }, status := statusStart }

/-- Command start of a CONVERT (R56): the tests in the order of R148, then the latches, WORK, cursor and BUSY. -/
def startConvert (cfg : Config) (alg : BitVec 3) (bd : BitVec 1) (t : BitVec 8) (da : BitVec 9) (s : State) : Result :=
  if imgWidth s = 0 ∨ imgHeight s = 0 then .refused .zeroDimension
  else if cfg.overRange = .refuse ∧ alg ≠ 0 ∧ da.toNat > 256 then .refused .ditherAmount
  else .next (beginRaster (loadWork (latchConvert alg bd t da s)))

/-- The start value of an ENCODE command's cursor components (R16); other components keep their values (log entry 23). -/
def startCursor (op : BitVec 4) (c : Cursor) : Cursor :=
  if op = 2 then { c with p := 0, y := 0, j := 0 }
  else if op = 3 then { c with y := 0, g := 0 }
  else { c with hdr := 0, y := 0 }

/-- The ENCODE part of P latched (R56). -/
def latchEncode (op : BitVec 4) (bd tp : BitVec 1) (s : State) : State :=
  { s with par := { s.par with op := op, bd := bd, tp := tp } }

/-- `csr[ENC_LEN] <- 0`, the cursor's start value and BUSY set, the end of an ENCODE start (R56). ENC starts anew: the bytes of
earlier commands are unspecified from here on (R173, log entry 9). -/
def beginEncode (op : BitVec 4) (s : State) : State :=
  { s with encLen := 0, enc := [], encGen := s.encGen + 1, cur := startCursor op s.cur, status := statusStart }

/-- Command start of an ENCODE (R56). -/
def startEncode (op : BitVec 4) (bd tp : BitVec 1) (s : State) : Result :=
  if imgWidth s = 0 ∨ imgHeight s = 0 then .refused .zeroDimension
  else if op = 3 ∧ imgWidth s % 4 ≠ 0 then .refused .formatBWidth
  else .next (beginEncode op (latchEncode op bd tp s))

/-- `csr[CMD] <- w` (R11, R56). -/
def storeCmd (w : Word) (s : State) : State := { s with cmd := w }

/-- An accepted reserved word: ILL and DONE set, CMD holds the word, nothing else changes (R57). -/
def acceptReserved (w : Word) (s : State) : State := { storeCmd w s with status := statusReserved }

end Sys2Proof.Machine
end

