-- ==== Sys2Proof/Machine/Quantizer.lean ====
section
/-! DEFINITION. color_quantizer (40_color_quantizer.md): the quantizer functions R70 to R74 and the threshold commands THR.1 (R76)
and THR.2 (R77). -/

namespace Sys2Proof.Machine

/-- `Q1(v, t)` (R70); the comparison is inclusive. -/
def q1 (v t : Rat) : Byte := if v ≥ t then 255 else 0

/-- The three 2-bit cutoffs (R71). -/
structure Cutoffs where
  dark : Rat
  mid : Rat
  bright : Rat
  deriving DecidableEq, Repr

/-- The `/ 2` of the cutoff formulas: exact, or floored under `CFG.cutoff_div` = FLOOR (R71). -/
def halve (d : CutoffDiv) (v : Rat) : Rat :=
  match d with
  | .exact => v / 2
  | .floor => (Rat.floor (v / 2) : Rat)

/-- `cutoffs(t)` (R71). -/
def cutoffs (cfg : Config) (t : BitVec 8) : Cutoffs where
  dark := clampR (halve cfg.cutoffDiv (byteRat t)) 0 127
  mid := byteRat t
  bright := clampR (byteRat t + halve cfg.cutoffDiv (255 - byteRat t)) 0 255

/-- `Q2c(v, dark, mid, bright)` (R72); the comparisons are strict and tried in this order. -/
def q2c (v : Rat) (c : Cutoffs) : Byte :=
  if v < c.dark then 0
  else if v < c.mid then 85
  else if v < c.bright then 170
  else 255

/-- `Q2(v, t)` (R73). -/
def q2 (cfg : Config) (v : Rat) (t : BitVec 8) : Byte := q2c v (cutoffs cfg t)

/-- `Q(v, t, bd)` with bd = BD + 1 (R74). -/
def quant (cfg : Config) (v : Rat) (t : BitVec 8) (bd : BitVec 1) : Byte :=
  if bd = 0 then q1 v (byteRat t) else q2 cfg v t

/-- The channel `c` of the SRC pixel at the cursor, as a number (R76). -/
def srcAtCursor (s : State) (c : Nat) : Rat := byteRat (srcChan s s.cur.x.toNat s.cur.y.toNat c)

/-- The pixel of a threshold step (R76, R77): each channel quantized with t = P.T, A = 255. -/
def thrPixel (cfg : Config) (bd : BitVec 1) (s : State) : State :=
  writePixel (quant cfg (srcAtCursor s 0) s.par.t bd) (quant cfg (srcAtCursor s 1) s.par.t bd)
    (quant cfg (srcAtCursor s 2) s.par.t bd) s

/-- THR.1 (R76). -/
def execThr1 (t : BitVec 8) (da : BitVec 9) (s : State) : Result :=
  runCommand (startConvert hwConfig 0 0 t da) (pixelStep (thrPixel hwConfig 0)) s

/-- THR.2 (R77). -/
def execThr2 (t : BitVec 8) (da : BitVec 9) (s : State) : Result :=
  runCommand (startConvert hwConfig 0 1 t da) (pixelStep (thrPixel hwConfig 1)) s

end Sys2Proof.Machine
end

