-- ==== Sys2Proof/Machine/Bayer.lean ====
section
/-! DEFINITION. bayer_matrix_ditherer (42_bayer_matrix_ditherer.md): the ROM look-up, the threshold modifier R103, the common step
R104 and the commands ORD2.1 to ORD8.2. -/

namespace Sys2Proof.Machine

/-- N (R54: N = 2^(ALG - 2)). -/
def matrixSide : MatrixSize → Nat
  | .n2 => 2
  | .n4 => 4
  | .n8 => 8

/-- `BAYER_N[y mod N][x mod N]`: row y mod N, column x mod N (R35, R101). -/
def bayerEntry (cfg : Config) (n : MatrixSize) (x y : Nat) : Nat :=
  (((cfg.bayer n)[y % matrixSide n]?).getD [])[x % matrixSide n]?.getD 0

/-- `Mod(k, N, s, DA)`: the product formed exactly and floored once (R103). -/
def bayerMod (k n sc : Nat) (da : BitVec 9) : Int :=
  Rat.floor ((k : Rat) / ((n : Rat) * n) * sc * ((da.toNat : Rat) / 256))

/-- A cutoff lowered by the modifier and clamped to [0, 255] (R104). -/
def lowered (v : Rat) (m : Int) : Rat := clampR (v - m) 0 255

/-- The modifier of the pixel at the cursor, with the scale of the bit depth: 255 or 85 (R103, R104). -/
def modAtCursor (cfg : Config) (n : MatrixSize) (bd : BitVec 1) (s : State) : Int :=
  bayerMod (bayerEntry cfg n s.cur.x.toNat s.cur.y.toNat) (matrixSide n) (if bd = 0 then 255 else 85) s.par.da

/-- The level of a value under a modifier: Q1 with the lowered threshold, or Q2c with the three lowered cutoffs (R104). -/
def ordLevel (cfg : Config) (bd : BitVec 1) (t : BitVec 8) (m : Int) (v : Rat) : Byte :=
  if bd = 0 then q1 v (lowered (byteRat t) m)
  else q2c v ⟨lowered (cutoffs cfg t).dark m, lowered (cutoffs cfg t).mid m, lowered (cutoffs cfg t).bright m⟩

/-- The level of channel `c` of the pixel at the cursor (R104). -/
def ordAtCursor (cfg : Config) (n : MatrixSize) (bd : BitVec 1) (s : State) (c : Nat) : Byte :=
  ordLevel cfg bd s.par.t (modAtCursor cfg n bd s) (srcAtCursor s c)

/-- The pixel of an ordered-dithering step (R104). -/
def ordPixel (cfg : Config) (n : MatrixSize) (bd : BitVec 1) (s : State) : State :=
  writePixel (ordAtCursor cfg n bd s 0) (ordAtCursor cfg n bd s 1) (ordAtCursor cfg n bd s 2) s

/-- ORD2.1 (R105). -/
def execOrd2_1 (t : BitVec 8) (da : BitVec 9) (s : State) : Result :=
  runCommand (startConvert hwConfig 3 0 t da) (pixelStep (ordPixel hwConfig .n2 0)) s

/-- ORD2.2 (R106). -/
def execOrd2_2 (t : BitVec 8) (da : BitVec 9) (s : State) : Result :=
  runCommand (startConvert hwConfig 3 1 t da) (pixelStep (ordPixel hwConfig .n2 1)) s

/-- ORD4.1 (R107). -/
def execOrd4_1 (t : BitVec 8) (da : BitVec 9) (s : State) : Result :=
  runCommand (startConvert hwConfig 4 0 t da) (pixelStep (ordPixel hwConfig .n4 0)) s

/-- ORD4.2 (R108). -/
def execOrd4_2 (t : BitVec 8) (da : BitVec 9) (s : State) : Result :=
  runCommand (startConvert hwConfig 4 1 t da) (pixelStep (ordPixel hwConfig .n4 1)) s

/-- ORD8.1 (R109). -/
def execOrd8_1 (t : BitVec 8) (da : BitVec 9) (s : State) : Result :=
  runCommand (startConvert hwConfig 5 0 t da) (pixelStep (ordPixel hwConfig .n8 0)) s

/-- ORD8.2 (R110). -/
def execOrd8_2 (t : BitVec 8) (da : BitVec 9) (s : State) : Result :=
  runCommand (startConvert hwConfig 5 1 t da) (pixelStep (ordPixel hwConfig .n8 1)) s

end Sys2Proof.Machine
end

