-- ==== Sys2Proof/Machine/Bitplane.lean ====
section
/-! DEFINITION. bitplane_encoder (43_bitplane_encoder.md): Format A, ENCA.1 (R116) and ENCA.2 (R118), and Format B, ENCB.1P (R123)
and ENCB.2P (R124). -/

namespace Sys2Proof.Machine

/-- The OR of one mask per pixel of a group, for the pixels 0 .. n-1 (R125): the byte starts at 0. -/
def orBits (mask : Nat → Byte) : Nat → Byte
  | 0 => 0
  | n + 1 => orBits mask n ||| mask n

/-- The bit of pixel `i` in the ENCA.1 byte `j` of row `y`, plane `p`: `0x80 >> i` if x < W and OUT[y][x][p] >= 128 (R116). -/
def encaBit1 (s : State) (p y j i : Nat) : Byte :=
  if 8 * j + i < imgWidth s ∧ 128 ≤ (outChan s (8 * j + i) y p).toNat then 0x80#8 >>> i else 0

/-- The ENCA.1 byte (p, y, j) (R116). -/
def encaByte1 (s : State) (p y j : Nat) : Byte := orBits (encaBit1 s p y j) 8

/-- `LevelIdx(v)` (R119): defined on the four levels only. -/
def levelIdx (v : Byte) : Option (BitVec 2) :=
  if v = 0 then some 0
  else if v = 85 then some 1
  else if v = 170 then some 2
  else if v = 255 then some 3
  else none

/-- A level index at its place in the byte: `LevelIdx << (6 - 2*i)` (R118). -/
def placeIdx (i : Nat) (l : BitVec 2) : Byte := (l.setWidth 8 : Byte) <<< (6 - 2 * i)

/-- The bits of pixel `i` in the ENCA.2 byte (p, y, j): `LevelIdx << (6 - 2*i)` if x < W (R118); no answer where LevelIdx has
none (U4). -/
def encaBits2 (s : State) (p y j i : Nat) : Option Byte :=
  if 4 * j + i < imgWidth s then (levelIdx (outChan s (4 * j + i) y p)).map (placeIdx i) else some 0

/-- The ENCA.2 byte (p, y, j), over the pixels 0 .. n-1 of the group (R118). -/
def encaByte2 (s : State) (p y j : Nat) : Nat → Option Byte
  | 0 => some 0
  | n + 1 =>
    match encaByte2 s p y j n, encaBits2 s p y j n with
    | some b, some m => some (b ||| m)
    | _, _ => none

/-- One step of ENCA.1 (R116). -/
def encaStep1 (cfg : Config) (s : State) : Result :=
  if planesInside (encaStride 8 s) s then
    emit cfg [encaByte1 s s.cur.p.toNat s.cur.y.toNat s.cur.j.toNat] (advancePlanes (encaStride 8 s)) s
  else .fault .cursorOutside

/-- One step of ENCA.2 (R118); refused where OUT holds a byte that is no level (U4, R119). -/
def encaStep2 (cfg : Config) (s : State) : Result :=
  if planesInside (encaStride 4 s) s then
    match encaByte2 s s.cur.p.toNat s.cur.y.toNat s.cur.j.toNat 4 with
    | some b => emit cfg [b] (advancePlanes (encaStride 4 s)) s
    | none => .refused .notALevel
  else .fault .cursorOutside

/-- The plane bit of Format B: channel > 127 (R120). -/
def planeBit (s : State) (x y c : Nat) : Bool := decide (127 < (outChan s x y c).toNat)

/-- The mask `m >> (2*i)` of pixel `i`, if its plane bit is set (R120). -/
def pairMask (m : Byte) (i : Nat) (b : Bool) : Byte := if b then m >>> (2 * i) else 0

/-- byte1 of a Format B group: the green bits at 7, 5, 3, 1 (R120). -/
def encbByte1 (s : State) (y g : Nat) : Byte :=
  orBits (fun i => pairMask 0x80#8 i (planeBit s (4 * g + i) y 1)) 4

/-- byte2 of a Format B group: red at 7, 5, 3, 1 and blue at 6, 4, 2, 0 (R120). -/
def encbByte2 (s : State) (y g : Nat) : Byte :=
  orBits (fun i => pairMask 0x80#8 i (planeBit s (4 * g + i) y 0) ||| pairMask 0x40#8 i (planeBit s (4 * g + i) y 2)) 4

/-- The bytes of one group in stream order: byte1 only with two planes, then byte2 (R121). -/
def encbBytes (twoPlan : Bool) (s : State) : List Byte :=
  if twoPlan then [encbByte1 s s.cur.y.toNat s.cur.g.toNat, encbByte2 s s.cur.y.toNat s.cur.g.toNat]
  else [encbByte2 s s.cur.y.toNat s.cur.g.toNat]

/-- One step of ENCB (R123, R124). -/
def encbStep (cfg : Config) (twoPlan : Bool) (s : State) : Result :=
  if groupsInside s then emit cfg (encbBytes twoPlan s) advanceGroups s else .fault .cursorOutside

/-- ENCA.1 (R116). -/
def execEnca1 (s : State) : Result := runCommand (startEncode 2 0 0) (encaStep1 hwConfig) s

/-- ENCA.2 (R118). -/
def execEnca2 (s : State) : Result := runCommand (startEncode 2 1 0) (encaStep2 hwConfig) s

/-- ENCB.1P (R123). -/
def execEncb1p (s : State) : Result := runCommand (startEncode 3 0 0) (encbStep hwConfig false) s

/-- ENCB.2P (R124). -/
def execEncb2p (s : State) : Result := runCommand (startEncode 3 0 1) (encbStep hwConfig true) s

end Sys2Proof.Machine
end

