-- ==== Sys2Proof/Machine/ErrorDiffusion.lean ====
section
/-! DEFINITION. error_diffusion_engine (41_error_diffusion_engine.md): the common step R85 with its readout R87, the kernels R90 and
R93, and the commands FS.1, FS.2, ATK.1, ATK.2. All values are exact rationals (R97). -/

namespace Sys2Proof.Machine

/-- `Readout(w)` (R87). -/
def readout (cfg : Config) (w : Rat) : Rat :=
  match cfg.readout with
  | .clamped => clampR w 0 255
  | .raw => w

/-- The two kernels. -/
inductive Kernel where
  | fs
  | atk
  deriving DecidableEq, Repr

/-- One target of a kernel: the displacement and the weight (R90, R93). -/
structure Target where
  dx : Int
  dy : Int
  wt : Rat
  deriving DecidableEq, Repr

/-- `Err_K(v, q, d)`: exact for FS (R90), floored toward minus infinity after the division by 8 for ATK (R93). -/
def kernelErr (cfg : Config) (k : Kernel) (v q d : Rat) : Rat :=
  match k with
  | .fs => cfg.fsRound ((v - q) * d)
  | .atk => (Rat.floor (((v - q) * d) / 8) : Rat)

/-- `Targets_K` (R90, R93). -/
def kernelTargets : Kernel → List Target
  | .fs => [⟨1, 0, 7 / 16⟩, ⟨-1, 1, 3 / 16⟩, ⟨0, 1, 5 / 16⟩, ⟨1, 1, 1 / 16⟩]
  | .atk => [⟨1, 0, 1⟩, ⟨2, 0, 1⟩, ⟨0, 1, 1⟩, ⟨-1, 1, 1⟩, ⟨1, 1, 1⟩, ⟨0, 2, 1⟩]

/-- One contribution added to WORK, dropped when its target lies outside the image (R36, R85). -/
def addError (c x y : Nat) (e : Rat) (tg : Target) (s : State) : State :=
  match neighbour (imgWidth s) (imgHeight s) x y tg.dx tg.dy with
  | some (x', y') =>
    writeWork (workIdx (imgWidth s) (imgHeight s) c x' y') (workChan s c x' y' + e * tg.wt) s
  | none => s

/-- The contributions of one channel in the kernel's order (R85). -/
def diffuse (c x y : Nat) (e : Rat) : List Target → State → State
  | [], s => s
  | tg :: tgs, s => diffuse c x y e tgs (addError c x y e tg s)

/-- The value v that is quantized at the cursor for a channel (R85 to R87). -/
def edValue (cfg : Config) (s : State) (c : Nat) : Rat :=
  readout cfg (workChan s c s.cur.x.toNat s.cur.y.toNat)

/-- The level q of a channel at the cursor (R85). -/
def edLevel (cfg : Config) (bd : BitVec 1) (s : State) (c : Nat) : Byte :=
  quant cfg (edValue cfg s c) s.par.t bd

/-- The error e of a channel at the cursor: from v, not from the source byte (R85, D12). -/
def edError (cfg : Config) (k : Kernel) (bd : BitVec 1) (s : State) (c : Nat) : Rat :=
  kernelErr cfg k (edValue cfg s c) (byteRat (edLevel cfg bd s c)) (ditherAmount s.par)

/-- One channel of the step: OUT written, the error spread over WORK (R85). -/
def edChannel (cfg : Config) (k : Kernel) (bd : BitVec 1) (c : Nat) (s : State) : State :=
  diffuse c s.cur.x.toNat s.cur.y.toNat (edError cfg k bd s c) (kernelTargets k)
    (writeOut (pixelAddr (imgWidth s) s.cur.x.toNat s.cur.y.toNat c) (edLevel cfg bd s c) s)

/-- The pixel of an error-diffusion step: R, G, B in order, then A = 255 (R80, R85). -/
def edPixel (cfg : Config) (k : Kernel) (bd : BitVec 1) (s : State) : State :=
  writeOut (pixelAddr (imgWidth s) s.cur.x.toNat s.cur.y.toNat 3) 255
    (edChannel cfg k bd 2 (edChannel cfg k bd 1 (edChannel cfg k bd 0 s)))

/-- FS.1 (R88). -/
def execFs1 (t : BitVec 8) (da : BitVec 9) (s : State) : Result :=
  runCommand (startConvert hwConfig 1 0 t da) (pixelStep (edPixel hwConfig .fs 0)) s

/-- FS.2 (R89). -/
def execFs2 (t : BitVec 8) (da : BitVec 9) (s : State) : Result :=
  runCommand (startConvert hwConfig 1 1 t da) (pixelStep (edPixel hwConfig .fs 1)) s

/-- ATK.1 (R91). -/
def execAtk1 (t : BitVec 8) (da : BitVec 9) (s : State) : Result :=
  runCommand (startConvert hwConfig 2 0 t da) (pixelStep (edPixel hwConfig .atk 0)) s

/-- ATK.2 (R92). -/
def execAtk2 (t : BitVec 8) (da : BitVec 9) (s : State) : Result :=
  runCommand (startConvert hwConfig 2 1 t da) (pixelStep (edPixel hwConfig .atk 1)) s

end Sys2Proof.Machine
end

