-- ==== Sys2Proof/Machine/Palette.lean ====
section
/-! DEFINITION. nibble_palette_encoder (44_nibble_palette_encoder.md): from pixel to palette entry (R131 to R133), tokens and text
(R134 to R138), and the commands ENCASM.1P (R139) and ENCASM.2P (R140). -/

namespace Sys2Proof.Machine

/-- `High(v)`: the fixed cutoff 85, inclusive or not by `PAL_HIGH_INCLUSIVE` (R131). A policy of its own, not the Level Quantizer's
(R142). -/
def paletteHigh (cfg : Config) (v : Byte) : Bool :=
  if cfg.palHighInclusive then decide (85 ≤ v.toNat) else decide (85 < v.toNat)

/-- `PalIdx`: 4*g + 2*r + b (R132). -/
def palIdx (r g b : Bool) : Nat := 4 * g.toNat + 2 * r.toNat + b.toNat

/-- The entry of ROM PAL at an index 0..7 (R22). -/
def palEntry (cfg : Config) (i : Nat) : PalEntry := (cfg.pal[i]?).getD ⟨.black, 0, 0, (0, 0, 0)⟩

/-- The palette entry of the OUT pixel (x, y) (R132, R134). -/
def pixelEntry (cfg : Config) (s : State) (x y : Nat) : PalEntry :=
  palEntry cfg (palIdx (paletteHigh cfg (outChan s x y 0)) (paletteHigh cfg (outChan s x y 1))
    (paletteHigh cfg (outChan s x y 2)))

/-- tok1 of a group: the first fragments of its four pixels, pixel 0 in bits 7:6 (R134). -/
def token1 (cfg : Config) (s : State) (y g : Nat) : Byte :=
  (pixelEntry cfg s (4 * g) y).f1 ++ (pixelEntry cfg s (4 * g + 1) y).f1 ++ (pixelEntry cfg s (4 * g + 2) y).f1
    ++ (pixelEntry cfg s (4 * g + 3) y).f1

/-- tok2 of a group: the second fragments (R134). -/
def token2 (cfg : Config) (s : State) (y g : Nat) : Byte :=
  (pixelEntry cfg s (4 * g) y).f2 ++ (pixelEntry cfg s (4 * g + 1) y).f2 ++ (pixelEntry cfg s (4 * g + 2) y).f2
    ++ (pixelEntry cfg s (4 * g + 3) y).f2

/-- A binary digit as text: 0x30 or 0x31 (R135). -/
def digitText (b : Bool) : Byte := if b then 0x31 else 0x30

/-- `Tok(b)`: a percent sign and the eight bits of b, bit 7 first (R135). -/
def tokenText (b : Byte) : List Byte :=
  [0x25, digitText (b.getLsbD 7), digitText (b.getLsbD 6), digitText (b.getLsbD 5), digitText (b.getLsbD 4),
    digitText (b.getLsbD 3), digitText (b.getLsbD 2), digitText (b.getLsbD 1), digitText (b.getLsbD 0)]

/-- The tokens of the first `n` groups of a row, left to right; tok1 only with two planes, before tok2 (R134, R136). -/
def rowTokens (cfg : Config) (twoPlan : Bool) (s : State) (y : Nat) : Nat → List Byte
  | 0 => []
  | n + 1 =>
    rowTokens cfg twoPlan s y n ++ (if twoPlan then [token1 cfg s y n, token2 cfg s y n] else [token2 cfg s y n])

/-- Tokens as text, separated by single commas, no spaces (R136). -/
def joinTokens : List Byte → List Byte
  | [] => []
  | [b] => tokenText b
  | b :: bs => tokenText b ++ 0x2C :: joinTokens bs

/-- A row line: TAB `dc.b` TAB, the tokens, LF (R136). -/
def rowLine (cfg : Config) (twoPlan : Bool) (s : State) (y : Nat) : List Byte :=
  [0x09, 0x64, 0x63, 0x2E, 0x62, 0x09] ++ joinTokens (rowTokens cfg twoPlan s y (groupsPerRow s)) ++ [0x0A]

/-- The decimal digits of `n` as text in front of `acc`, most significant first; `fuel` bounds the number of digits. -/
def decDigits : Nat → Nat → List Byte → List Byte
  | 0, _, acc => acc
  | fuel + 1, n, acc =>
    if n < 10 then BitVec.ofNat 8 (0x30 + n) :: acc
    else decDigits fuel (n / 10) (BitVec.ofNat 8 (0x30 + n % 10) :: acc)

/-- `dec(n)`: decimal, no sign, no leading zeros, no padding (R137). -/
def decText (n : Nat) : List Byte := decDigits (n + 1) n []

/-- The text `; Height: ` (R137, V-AS-1). -/
def heightText : List Byte := [0x3B, 0x20, 0x48, 0x65, 0x69, 0x67, 0x68, 0x74, 0x3A, 0x20]

/-- The text `; Width: ` (R137, V-AS-1). -/
def widthText : List Byte := [0x3B, 0x20, 0x57, 0x69, 0x64, 0x74, 0x68, 0x3A, 0x20]

/-- The two header lines, each ended by one LF (R137). -/
def headerText (s : State) : List Byte :=
  heightText ++ decText (imgHeight s) ++ [0x0A] ++ widthText ++ decText (imgWidth s) ++ [0x0A]

/-- The diagnostic line `; Width is not %4; exiting...` and LF (R138). -/
def diagnosticText : List Byte :=
  [0x3B, 0x20, 0x57, 0x69, 0x64, 0x74, 0x68, 0x20, 0x69, 0x73, 0x20, 0x6E, 0x6F, 0x74, 0x20, 0x25, 0x34, 0x3B, 0x20,
    0x65, 0x78, 0x69, 0x74, 0x69, 0x6E, 0x67, 0x2E, 0x2E, 0x2E, 0x0A]

/-- Step 0 with W mod 4 = 0: `cur.hdr <- 1; cur.y <- 0` (R139). -/
def beginLines (s : State) : State := { s with cur := { s.cur with hdr := 1, y := 0 } }

/-- Step 0 with W mod 4 other than 0: DIAG set, and the command finishes (R138, R139); the cursor stays at hdr = 0, y = 0, the
model's choice (log entry 31). -/
def finishDiag (s : State) : State := finishIf true { s with status := statusDiag s.status }

/-- Step 0: the header lines, and the diagnostic line where W mod 4 is not 0 (R137 to R139). -/
def headerStep (cfg : Config) (s : State) : Result :=
  if imgWidth s % 4 = 0 then emit cfg (headerText s) beginLines s
  else emit cfg (headerText s ++ diagnosticText) finishDiag s

/-- A later step: one row line (R139). -/
def lineStep (cfg : Config) (twoPlan : Bool) (s : State) : Result :=
  if s.cur.y.toNat < imgHeight s then emit cfg (rowLine cfg twoPlan s s.cur.y.toNat) advanceLines s
  else .fault .cursorOutside

/-- One step of ENCASM: step 0 while cur.hdr = 0, a row line while it is 1; it has no other value (R16, R139). -/
def encasmStep (cfg : Config) (twoPlan : Bool) (s : State) : Result :=
  if s.cur.hdr = 0 then headerStep cfg s
  else if s.cur.hdr = 1 then lineStep cfg twoPlan s
  else .fault .cursorOutside

/-- ENCASM.1P (R139). -/
def execEncasm1p (s : State) : Result := runCommand (startEncode 4 0 0) (encasmStep hwConfig false) s

/-- ENCASM.2P (R140). -/
def execEncasm2p (s : State) : Result := runCommand (startEncode 4 0 1) (encasmStep hwConfig true) s

end Sys2Proof.Machine
end

