-- ==== Sys2Proof/Machine/Dispatch.lean ====
section
/-! DEFINITION. One arm per command: the one transition of the command that is due (its start while BUSY = 0, one step while
BUSY = 1). -/

namespace Sys2Proof.Machine

def exec (i : Instr) (s : State) : Host.Outcome State Fault Refusal :=
  match i with
  | .thr1 t da => Sys2Proof.Machine.execThr1 t da s
  | .thr2 t da => Sys2Proof.Machine.execThr2 t da s
  | .fs1 t da => Sys2Proof.Machine.execFs1 t da s
  | .fs2 t da => Sys2Proof.Machine.execFs2 t da s
  | .atk1 t da => Sys2Proof.Machine.execAtk1 t da s
  | .atk2 t da => Sys2Proof.Machine.execAtk2 t da s
  | .ord2_1 t da => Sys2Proof.Machine.execOrd2_1 t da s
  | .ord2_2 t da => Sys2Proof.Machine.execOrd2_2 t da s
  | .ord4_1 t da => Sys2Proof.Machine.execOrd4_1 t da s
  | .ord4_2 t da => Sys2Proof.Machine.execOrd4_2 t da s
  | .ord8_1 t da => Sys2Proof.Machine.execOrd8_1 t da s
  | .ord8_2 t da => Sys2Proof.Machine.execOrd8_2 t da s
  | .enca1 => Sys2Proof.Machine.execEnca1 s
  | .enca2 => Sys2Proof.Machine.execEnca2 s
  | .encb1p => Sys2Proof.Machine.execEncb1p s
  | .encb2p => Sys2Proof.Machine.execEncb2p s
  | .encasm1p => Sys2Proof.Machine.execEncasm1p s
  | .encasm2p => Sys2Proof.Machine.execEncasm2p s

end Sys2Proof.Machine
end

