-- ==== Sys2Proof/Machine/HostPort.lean ====
section
/-! DEFINITION. The host's moves (60_exceptions.md R155; 10_state.md R11 to R15; 20_memory.md R30, R33, R34) and the choice of what
the next step does: the engine's turn or a host move, and which command runs. -/

namespace Sys2Proof.Machine

/-- A register as the host reads it (R11 to R15); numbers 5 and above read 0 (10_state.md section 3, U11). -/
def readReg (s : State) (n : Nat) : Word :=
  match n with
  | 0 => s.cmd
  | 1 => statusWord s.status
  | 2 => s.imgW.setWidth 32
  | 3 => s.imgH.setWidth 32
  | 4 => s.encLen
  | _ => 0

/-- The value a host read returns (log entry 3). -/
def returnRead (v : Word) (s : State) : State := { s with port := { s.port with rdata := v } }

/-- A host write to a register other than CMD: IMG_W and IMG_H take the low 12 bits, ignored while BUSY = 1 (R13, R14); STATUS,
ENC_LEN and numbers 5 and above ignore writes (R12, R15, U11). -/
def writePlainReg (n : Nat) (v : Word) (s : State) : State :=
  match n with
  | 2 => if s.status.busy then s else { s with imgW := v.extractLsb' 0 12 }
  | 3 => if s.status.busy then s else { s with imgH := v.extractLsb' 0 12 }
  | _ => s

/-- A host read of a buffer byte: BUSY = 0 and inside the size in use (R30, R34, R155); any other is no move (U7). -/
def hostRead (sp : Space) (a : Nat) (s : State) : Result :=
  if s.status.busy then .refused .hostBuffer
  else
    match sp with
    | .src => if a < sizeInUse s then .next (returnRead ((srcByte s a).setWidth 32) s) else .refused .hostBuffer
    | .out => if a < sizeInUse s then .next (returnRead ((outByte s a).setWidth 32) s) else .refused .hostBuffer
    | .enc => if a < s.encLen.toNat then .next (returnRead ((encByte s a).setWidth 32) s) else .refused .hostBuffer
    | .work => .refused .hostBuffer
    | .bayer => .refused .hostBuffer
    | .pal => .refused .hostBuffer

/-- Where the host may write: inside the size in use; before both dimensions are written no size is in use, and rule R162 lets the
host write SRC and OUT first, up to the largest legal image (log entry 15). -/
def hostWritable (s : State) (a : Nat) : Bool :=
  if sizeInUse s = 0 then decide (a < largestSize) else decide (a < sizeInUse s)

/-- A host write of a buffer byte: SRC or OUT, BUSY = 0 (R30, R155); any other is no move (U7). -/
def hostWrite (sp : Space) (a : Nat) (v : Byte) (s : State) : Result :=
  if s.status.busy then .refused .hostBuffer
  else
    match sp with
    | .src => if hostWritable s a then .next (writeSrc a v s) else .refused .hostBuffer
    | .out => if hostWritable s a then .next (writeOut a v s) else .refused .hostBuffer
    | .enc => .refused .hostBuffer
    | .work => .refused .hostBuffer
    | .bayer => .refused .hostBuffer
    | .pal => .refused .hostBuffer

/-- Reset, at any time, one atomic transition (R28, R160): every field at its reset value, every buffer unspecified again. The
host's own pending moves and read data are no part of the block and stay. -/
def resetEvent (s : State) : State :=
  { State.reset with port := s.port, epoch := s.epoch + 1, encGen := s.encGen + 1 }

/-- What the next step does: run a command's due transition in a state, or answer at once. -/
inductive Issue where
  | run (i : Instr) (s : State)
  | answer (r : Result)

/-- The engine's turn: while BUSY = 1 the one enabled step of the command in the latched registers (R10, R60), else nothing
(R160: an idle engine has no enabled step). -/
def issueEngine (s : State) : Issue :=
  if s.status.busy then
    match decode (latchedWord s.par) with
    | .ok i => .run i s
    | .error _ => .answer (.fault .latchIllegal)
  else .answer (.next s)

/-- A write to CMD: ignored while BUSY = 1 (R11), else accepted: a reserved word sets ILL (R57), a command starts (R56). -/
def issueCmd (w : Word) (s : State) : Issue :=
  if s.status.busy then .answer (.next s)
  else
    match decode w with
    | .ok i => .run i (storeCmd w s)
    | .error _ => .answer (.next (acceptReserved w s))

/-- A host move (R155). -/
def issueHost (m : HostMove) (s : State) : Issue :=
  match m with
  | .readReg n => .answer (.next (returnRead (readReg s n) s))
  | .writeReg n v => if n = 0 then issueCmd v s else .answer (.next (writePlainReg n v s))
  | .readBuf sp a => .answer (hostRead sp a s)
  | .writeBuf sp a v => .answer (hostWrite sp a v s)
  | .reset => .answer (.next (resetEvent s))

/-- The state with the turns `ts` still to come. -/
def withAgenda (ts : List Turn) (s : State) : State := { s with port := { s.port with agenda := ts } }

/-- The next turn: the agenda's first, and the engine's when the agenda is empty (log entry 2). -/
def issue (s : State) : Issue :=
  match s.port.agenda with
  | [] => issueEngine s
  | .engine :: ts => issueEngine (withAgenda ts s)
  | .host m :: ts => issueHost m (withAgenda ts s)

/-- The host's set-up of rule R162 where it is missing, so that the next step can start a command: the engine idle, and a legal
width and height (4 by 1) where IMG_W or IMG_H is 0; then a write of the word to CMD as the next turn (log entry 4). -/
def placeCommand (w : Word) (s : State) : State :=
  { s with
    status := { s.status with busy := false }
    imgW := if s.imgW = 0 then 4 else s.imgW
    imgH := if s.imgH = 0 then 1 else s.imgH
    port := { s.port with agenda := .host (.writeReg 0 w) :: s.port.agenda } }

end Sys2Proof.Machine
end

