-- ==== Sys2Proof/Machine/Step.lean ====
section
/-! DEFINITION. One step of the machine: the next turn's answer, or the due transition of the command it runs. -/

namespace Sys2Proof.Machine

/-- One step: one host move or one atomic transition of the engine (R23). -/
def step (s : State) : Host.Outcome State Fault Refusal :=
  match issue s with
  | .run i s' => exec i s'
  | .answer r => r

/-- The state whose very next step writes the given word to CMD and starts it (log entry 4). Bits at `nbits` and above are 0. -/
def State.withFetchWord (s : State) (nbits w : Nat) : State :=
  placeCommand (BitVec.ofNat 32 (w % 2 ^ nbits)) s

end Sys2Proof.Machine
end

