-- ==== Sys2Proof/Safety.lean ====
section
/-! DEFINITION. What claims about every state and every run are stated in: the command in execution, where its cursor may be, how
many steps it still has, how much of ENC it has filled, and the invariant of the machine. -/

namespace Sys2Proof.Machine

/-- The command in the latched parameter registers (R10). -/
def running (s : State) : Except Reserved Instr := decode (latchedWord s.par)

/-- A CONVERT command (Format C). -/
def isConvert : Instr → Bool
  | .thr1 _ _ | .thr2 _ _ | .fs1 _ _ | .fs2 _ _ | .atk1 _ _ | .atk2 _ _ => true
  | .ord2_1 _ _ | .ord2_2 _ _ | .ord4_1 _ _ | .ord4_2 _ _ | .ord8_1 _ _ | .ord8_2 _ _ => true
  | .enca1 | .enca2 | .encb1p | .encb2p | .encasm1p | .encasm2p => false

/-- A Format B command (R122). -/
def isFormatB : Instr → Bool
  | .encb1p | .encb2p => true
  | .thr1 _ _ | .thr2 _ _ | .fs1 _ _ | .fs2 _ _ | .atk1 _ _ | .atk2 _ _ => false
  | .ord2_1 _ _ | .ord2_2 _ _ | .ord4_1 _ _ | .ord4_2 _ _ | .ord8_1 _ _ | .ord8_2 _ _ => false
  | .enca1 | .enca2 | .encasm1p | .encasm2p => false

/-- The cursor of ENCASM lies inside its range: step 0, or a row of an image whose width is a multiple of 4 (R16, R139). -/
def linesInside (s : State) : Bool :=
  decide (s.cur.hdr = 0) ||
    (decide (s.cur.hdr = 1) && decide (s.cur.y.toNat < imgHeight s) && decide (imgWidth s % 4 = 0))

/-- The cursor lies inside the range rule R16 gives the command. -/
def cursorInside (i : Instr) (s : State) : Bool :=
  match i with
  | .thr1 _ _ | .thr2 _ _ | .fs1 _ _ | .fs2 _ _ | .atk1 _ _ | .atk2 _ _ => rasterInside s
  | .ord2_1 _ _ | .ord2_2 _ _ | .ord4_1 _ _ | .ord4_2 _ _ | .ord8_1 _ _ | .ord8_2 _ _ => rasterInside s
  | .enca1 => planesInside (encaStride 8 s) s
  | .enca2 => planesInside (encaStride 4 s) s
  | .encb1p | .encb2p => groupsInside s
  | .encasm1p | .encasm2p => linesInside s

/-- The position of a raster cursor in visiting order. -/
def rasterPos (s : State) : Nat := s.cur.y.toNat * imgWidth s + s.cur.x.toNat

/-- The position of an ENCA cursor in visiting order: the byte address of rule R35. -/
def planesPos (stride : Nat) (s : State) : Nat :=
  s.cur.p.toNat * imgHeight s * stride + s.cur.y.toNat * stride + s.cur.j.toNat

/-- The position of an ENCB cursor in visiting order: the group number of rule R35. -/
def groupsPos (s : State) : Nat := s.cur.y.toNat * groupsPerRow s + s.cur.g.toNat

/-- The bytes of one ENCASM row line: 10 n + 6 with n = (W/4)(1 + TP) tokens (R136). -/
def lineLength (tp : Nat) (s : State) : Nat := 10 * (groupsPerRow s * (1 + tp)) + 6

/-- The bytes of the two header lines: 21 and the digits of H and W (R137, R139). -/
def headerLength (s : State) : Nat := 21 + (decText (imgHeight s)).length + (decText (imgWidth s)).length

/-- How many bytes an ENCODE command has appended when its cursor stands where it does (R35, R139, R140). -/
def encodeProgress (i : Instr) (s : State) : Nat :=
  match i with
  | .thr1 _ _ | .thr2 _ _ | .fs1 _ _ | .fs2 _ _ | .atk1 _ _ | .atk2 _ _ => 0
  | .ord2_1 _ _ | .ord2_2 _ _ | .ord4_1 _ _ | .ord4_2 _ _ | .ord8_1 _ _ | .ord8_2 _ _ => 0
  | .enca1 => planesPos (encaStride 8 s) s
  | .enca2 => planesPos (encaStride 4 s) s
  | .encb1p => groupsPos s
  | .encb2p => groupsPos s * 2
  | .encasm1p => if s.cur.hdr = 0 then 0 else headerLength s + s.cur.y.toNat * lineLength 0 s
  | .encasm2p => if s.cur.hdr = 0 then 0 else headerLength s + s.cur.y.toNat * lineLength 1 s

/-- The steps a command takes (R60). -/
def commandSteps (i : Instr) (s : State) : Nat :=
  match i with
  | .thr1 _ _ | .thr2 _ _ | .fs1 _ _ | .fs2 _ _ | .atk1 _ _ | .atk2 _ _ => imgWidth s * imgHeight s
  | .ord2_1 _ _ | .ord2_2 _ _ | .ord4_1 _ _ | .ord4_2 _ _ | .ord8_1 _ _ | .ord8_2 _ _ => imgWidth s * imgHeight s
  | .enca1 => 3 * imgHeight s * ceilDiv (imgWidth s) 8
  | .enca2 => 3 * imgHeight s * ceilDiv (imgWidth s) 4
  | .encb1p | .encb2p => imgHeight s * (imgWidth s / 4)
  | .encasm1p | .encasm2p => if imgWidth s % 4 ≠ 0 then 1 else 1 + imgHeight s

/-- The steps a command has already taken when its cursor stands where it does (R16). -/
def stepsTaken (i : Instr) (s : State) : Nat :=
  match i with
  | .thr1 _ _ | .thr2 _ _ | .fs1 _ _ | .fs2 _ _ | .atk1 _ _ | .atk2 _ _ => rasterPos s
  | .ord2_1 _ _ | .ord2_2 _ _ | .ord4_1 _ _ | .ord4_2 _ _ | .ord8_1 _ _ | .ord8_2 _ _ => rasterPos s
  | .enca1 => planesPos (encaStride 8 s) s
  | .enca2 => planesPos (encaStride 4 s) s
  | .encb1p | .encb2p => groupsPos s
  | .encasm1p | .encasm2p => if s.cur.hdr = 0 then 0 else 1 + s.cur.y.toNat

/-- The weight with which the visit of (x, y) passes its error on to (x', y'): the kernels of rules R90 and R93 written as
positions, for (x', y') inside the image (R98). -/
def weightAt (k : Kernel) (x y x' y' : Nat) : Rat :=
  match k with
  | .fs =>
    if x' = x + 1 ∧ y' = y then 7 / 16
    else if x' + 1 = x ∧ y' = y + 1 then 3 / 16
    else if x' = x ∧ y' = y + 1 then 5 / 16
    else if x' = x + 1 ∧ y' = y + 1 then 1 / 16
    else 0
  | .atk =>
    if (x' = x + 1 ∧ y' = y) ∨ (x' = x + 2 ∧ y' = y) ∨ (x' = x ∧ y' = y + 1) ∨ (x' + 1 = x ∧ y' = y + 1) ∨
        (x' = x + 1 ∧ y' = y + 1) ∨ (x' = x ∧ y' = y + 2) then 1
    else 0

/-- A byte that is a 2-bit ColorLevel (R55). -/
def isLevel (v : Byte) : Bool := v == 0 || v == 85 || v == 170 || v == 255

/-- OUT holds only level bytes in the R, G and B channels of the image: the precondition of ENCA.2 (U4, R171). -/
def levelsOnly (s : State) : Prop :=
  ∀ x y c, x < imgWidth s → y < imgHeight s → c < 3 → isLevel (outChan s x y c) = true

/-- What holds while a command executes. -/
structure Executing (i : Instr) (s : State) : Prop where
  /-- The latched registers hold the command (R10, R56). -/
  latched : running s = .ok i
  /-- CMD still holds its word (R11). -/
  accepted : s.cmd = latchedWord s.par
  width : 0 < imgWidth s
  height : 0 < imgHeight s
  /-- The cursor is in range (R16). -/
  inside : cursorInside i s = true
  /-- ENC_LEN is the append address of rule R35. -/
  appended : isConvert i = false → s.encLen.toNat = encodeProgress i s
  /-- Format B runs only on widths that are multiples of 4 (R122). -/
  multiple : isFormatB i = true → imgWidth s % 4 = 0

/-- The invariant of the machine. -/
structure Inv (s : State) : Prop where
  /-- STATUS reads as one of 0, 1, 2, 6, 0xA (V-ENC-3); in particular BUSY and DONE are never both 1 (R12). -/
  status : statusWord s.status ∈ [0x0#32, 0x1#32, 0x2#32, 0x6#32, 0xA#32]
  src : Memory.wf s.src
  out : Memory.wf s.out
  work : WorkSpace.wf s.work
  /-- ENC lists exactly the bytes 0 .. ENC_LEN-1 (R19). -/
  enc : s.enc.map Prod.fst = List.range s.encLen.toNat
  /-- ENC_LEN is within the capacity (R19). -/
  fits : s.encLen.toNat ≤ hwConfig.encCap
  busy : s.status.busy = true → ∃ i, Executing i s

end Sys2Proof.Machine
end

