-- ==== Sys2Proof/Certificates/Slice0/Obligations.lean ====
section
/-! DEFINITION. The statements about QLC-CORE for the provers, and the predicates they are written in. -/

namespace Sys2Proof.Claims

open Sys2Proof.Machine

/-! ### Predicates the statements share -/

/-- One row of the opcode map of rule R53: match, mask, and the commands it stands for (any parameters). -/
structure Row where
  bits : Word
  mask : Word
  holds : Instr → Bool

/-- The 18 rows of rule R53, in its order, with the match and mask columns as printed. -/
def table : List Row :=
  [⟨0x10000000, 0xFF00FE00, fun i => match i with | .thr1 _ _ => true | _ => false⟩,
   ⟨0x11000000, 0xFF00FE00, fun i => match i with | .thr2 _ _ => true | _ => false⟩,
   ⟨0x12000000, 0xFF00FE00, fun i => match i with | .fs1 _ _ => true | _ => false⟩,
   ⟨0x13000000, 0xFF00FE00, fun i => match i with | .fs2 _ _ => true | _ => false⟩,
   ⟨0x14000000, 0xFF00FE00, fun i => match i with | .atk1 _ _ => true | _ => false⟩,
   ⟨0x15000000, 0xFF00FE00, fun i => match i with | .atk2 _ _ => true | _ => false⟩,
   ⟨0x16000000, 0xFF00FE00, fun i => match i with | .ord2_1 _ _ => true | _ => false⟩,
   ⟨0x17000000, 0xFF00FE00, fun i => match i with | .ord2_2 _ _ => true | _ => false⟩,
   ⟨0x18000000, 0xFF00FE00, fun i => match i with | .ord4_1 _ _ => true | _ => false⟩,
   ⟨0x19000000, 0xFF00FE00, fun i => match i with | .ord4_2 _ _ => true | _ => false⟩,
   ⟨0x1A000000, 0xFF00FE00, fun i => match i with | .ord8_1 _ _ => true | _ => false⟩,
   ⟨0x1B000000, 0xFF00FE00, fun i => match i with | .ord8_2 _ _ => true | _ => false⟩] ++
  [⟨0x20000000, 0xFFFFFFFF, fun i => match i with | .enca1 => true | _ => false⟩,
   ⟨0x21000000, 0xFFFFFFFF, fun i => match i with | .enca2 => true | _ => false⟩,
   ⟨0x30000000, 0xFFFFFFFF, fun i => match i with | .encb1p => true | _ => false⟩,
   ⟨0x30000001, 0xFFFFFFFF, fun i => match i with | .encb2p => true | _ => false⟩,
   ⟨0x40000000, 0xFFFFFFFF, fun i => match i with | .encasm1p => true | _ => false⟩,
   ⟨0x40000001, 0xFFFFFFFF, fun i => match i with | .encasm2p => true | _ => false⟩]

/-- A word matches a row of rule R53. -/
def matchesRow (r : Row) (w : Word) : Prop := w &&& r.mask = r.bits

/-- The reserved encodings as rule R57 lists them, by bits of the word. -/
def listedReserved (w : Word) : Prop :=
  (w.toNat / 2 ^ 28 = 0 ∨ 5 ≤ w.toNat / 2 ^ 28) ∨
  (w.toNat / 2 ^ 28 = 1 ∧ 6 ≤ w.toNat / 2 ^ 25 % 8) ∨
  (w.toNat / 2 ^ 28 = 1 ∧ w.toNat / 2 ^ 9 % 2 ^ 7 ≠ 0) ∨
  ((w.toNat / 2 ^ 28 = 2 ∨ w.toNat / 2 ^ 28 = 3 ∨ w.toNat / 2 ^ 28 = 4) ∧
    (w.toNat / 2 ^ 25 % 8 ≠ 0 ∨ w.toNat / 2 % 2 ^ 23 ≠ 0)) ∨
  (w.toNat / 2 ^ 28 = 2 ∧ w.toNat % 2 ≠ 0) ∨
  ((w.toNat / 2 ^ 28 = 3 ∨ w.toNat / 2 ^ 28 = 4) ∧ w.toNat / 2 ^ 24 % 2 ≠ 0)

/-- The fields of a CONVERT command (R51, R53): ALG, BD, THRESHOLD, DAMOUNT. -/
def convertFields : Instr → Option (BitVec 3 × BitVec 1 × BitVec 8 × BitVec 9)
  | .thr1 t da => some (0, 0, t, da)
  | .thr2 t da => some (0, 1, t, da)
  | .fs1 t da => some (1, 0, t, da)
  | .fs2 t da => some (1, 1, t, da)
  | .atk1 t da => some (2, 0, t, da)
  | .atk2 t da => some (2, 1, t, da)
  | .ord2_1 t da => some (3, 0, t, da)
  | .ord2_2 t da => some (3, 1, t, da)
  | .ord4_1 t da => some (4, 0, t, da)
  | .ord4_2 t da => some (4, 1, t, da)
  | .ord8_1 t da => some (5, 0, t, da)
  | .ord8_2 t da => some (5, 1, t, da)
  | .enca1 | .enca2 | .encb1p | .encb2p | .encasm1p | .encasm2p => none

/-- The fields of an ENCODE command (R52, R53): OPC, BD, TP. -/
def encodeFields : Instr → Option (BitVec 4 × BitVec 1 × BitVec 1)
  | .enca1 => some (2, 0, 0)
  | .enca2 => some (2, 1, 0)
  | .encb1p => some (3, 0, 0)
  | .encb2p => some (3, 0, 1)
  | .encasm1p => some (4, 0, 0)
  | .encasm2p => some (4, 0, 1)
  | .thr1 _ _ | .thr2 _ _ | .fs1 _ _ | .fs2 _ _ | .atk1 _ _ | .atk2 _ _ => none
  | .ord2_1 _ _ | .ord2_2 _ _ | .ord4_1 _ _ | .ord4_2 _ _ | .ord8_1 _ _ | .ord8_2 _ _ => none

/-- The matrix size of an ordered-dithering command (R54). -/
def ordSize : Instr → Option Nat
  | .ord2_1 _ _ | .ord2_2 _ _ => some 2
  | .ord4_1 _ _ | .ord4_2 _ _ => some 4
  | .ord8_1 _ _ | .ord8_2 _ _ => some 8
  | .thr1 _ _ | .thr2 _ _ | .fs1 _ _ | .fs2 _ _ | .atk1 _ _ | .atk2 _ _ => none
  | .enca1 | .enca2 | .encb1p | .encb2p | .encasm1p | .encasm2p => none

/-- CMD, IMG_W, IMG_H, the agenda, the host's read data and the reset count are unchanged. -/
def SameControl (s t : State) : Prop :=
  t.cmd = s.cmd ∧ t.imgW = s.imgW ∧ t.imgH = s.imgH ∧ t.port = s.port ∧ t.epoch = s.epoch

/-- Every byte of SRC reads as before. -/
def SameSrc (s t : State) : Prop := ∀ a, srcByte t a = srcByte s a

/-- Every byte of OUT reads as before. -/
def SameOut (s t : State) : Prop := ∀ a, outByte t a = outByte s a

/-- ENC_LEN is unchanged and every byte of ENC reads as before. -/
def SameEnc (s t : State) : Prop := t.encLen = s.encLen ∧ ∀ a, encByte t a = encByte s a

/-- Every element of WORK holds what it held. -/
def SameWork (s t : State) : Prop := ∀ i, workAt t i = workAt s i

/-- The raster cursor moved on by one pixel, and the command finished exactly when this was the last pixel (R16, R60); the other
components as they were, which is the model's choice (log entry 23). -/
def RasterAdvanced (s t : State) : Prop :=
  (t.cur.x.toNat = if s.cur.x.toNat + 1 = imgWidth s then 0 else s.cur.x.toNat + 1) ∧
  (t.cur.y.toNat = if s.cur.x.toNat + 1 = imgWidth s then s.cur.y.toNat + 1 else s.cur.y.toNat) ∧
  (t.cur.p = s.cur.p ∧ t.cur.j = s.cur.j ∧ t.cur.g = s.cur.g ∧ t.cur.hdr = s.cur.hdr) ∧
  (t.status = if s.cur.x.toNat + 1 = imgWidth s ∧ s.cur.y.toNat + 1 = imgHeight s
    then ⟨false, true, s.status.diag, s.status.ill⟩ else s.status)

/-- What every CONVERT step leaves as it was, beside the R, G, B bytes it writes and WORK: all of OUT outside the pixel's four
bytes, SRC, ENC, the control registers and the parameter registers (kept by the finishing step too, log entry 32); A becomes 255 and
the cursor advances. -/
def PixelFrame (s t : State) : Prop :=
  outChan t s.cur.x.toNat s.cur.y.toNat 3 = 255 ∧
  (∀ a, (∀ c, c < 4 → a ≠ pixelAddr (imgWidth s) s.cur.x.toNat s.cur.y.toNat c) → outByte t a = outByte s a) ∧
  SameSrc s t ∧ SameEnc s t ∧ SameControl s t ∧ t.par = s.par ∧ RasterAdvanced s t

/-- The level of an integer intensity: Q1, or the comparator form of Q2 (R70, R73). -/
def integerLevel (bd : BitVec 1) (v t : Nat) : Byte :=
  if bd = 0 then (if t ≤ v then 255 else 0)
  else if 2 * v < min t 254 then 0
  else if v < t then 85
  else if 2 * v < t + 255 then 170
  else 255

/-- The level of an integer intensity under a modifier (R104): the threshold, or each doubled cutoff, lowered and held at 0. -/
def integerOrdLevel (bd : BitVec 1) (v t m : Nat) : Byte :=
  if bd = 0 then (if t - m ≤ v then 255 else 0)
  else if 2 * v < min t 254 - 2 * m then 0
  else if v < t - m then 85
  else if 2 * v < t + 255 - 2 * m then 170
  else 255

/-- `bytes` stand at the old append address in order, ENC_LEN grew by their number, every other ENC byte reads as before (R8). -/
def Appended (s t : State) (bytes : List Byte) : Prop :=
  t.encLen.toNat = s.encLen.toNat + bytes.length ∧
  (∀ k, (h : k < bytes.length) → encByte t (s.encLen.toNat + k) = bytes[k]) ∧
  (∀ a, a < s.encLen.toNat ∨ s.encLen.toNat + bytes.length ≤ a → encByte t a = encByte s a)

/-- What every ENCODE step leaves as it was: SRC, OUT, WORK, the control registers, the parameter registers (R126), which the
finishing step keeps too (log entry 32). -/
def EncodeFrame (s t : State) : Prop :=
  SameSrc s t ∧ SameOut s t ∧ SameWork s t ∧ SameControl s t ∧ t.par = s.par

/-- The ENCA cursor moved on by one byte, finishing after the last byte (R16, R60); the other components as they were, which is the
model's choice (log entry 23). -/
def PlanesAdvanced (stride : Nat) (s t : State) : Prop :=
  (t.cur.j.toNat = if s.cur.j.toNat + 1 = stride then 0 else s.cur.j.toNat + 1) ∧
  (t.cur.y.toNat = if s.cur.j.toNat + 1 = stride then
      (if s.cur.y.toNat + 1 = imgHeight s then 0 else s.cur.y.toNat + 1) else s.cur.y.toNat) ∧
  (t.cur.p.toNat = if s.cur.j.toNat + 1 = stride ∧ s.cur.y.toNat + 1 = imgHeight s
    then s.cur.p.toNat + 1 else s.cur.p.toNat) ∧
  (t.cur.x = s.cur.x ∧ t.cur.g = s.cur.g ∧ t.cur.hdr = s.cur.hdr) ∧
  (t.status = if s.cur.j.toNat + 1 = stride ∧ s.cur.y.toNat + 1 = imgHeight s ∧ s.cur.p.toNat + 1 = 3
    then ⟨false, true, s.status.diag, s.status.ill⟩ else s.status)

/-- The ENCB cursor moved on by one group, finishing after the last group (R16, R60); the other components as they were, which is the
model's choice (log entry 23). -/
def GroupsAdvanced (s t : State) : Prop :=
  (t.cur.g.toNat = if s.cur.g.toNat + 1 = imgWidth s / 4 then 0 else s.cur.g.toNat + 1) ∧
  (t.cur.y.toNat = if s.cur.g.toNat + 1 = imgWidth s / 4 then s.cur.y.toNat + 1 else s.cur.y.toNat) ∧
  (t.cur.x = s.cur.x ∧ t.cur.p = s.cur.p ∧ t.cur.j = s.cur.j ∧ t.cur.hdr = s.cur.hdr) ∧
  (t.status = if s.cur.g.toNat + 1 = imgWidth s / 4 ∧ s.cur.y.toNat + 1 = imgHeight s
    then ⟨false, true, s.status.diag, s.status.ill⟩ else s.status)

/-- Text as ASCII bytes. -/
def ascii (text : String) : List Byte := text.toList.map (fun c => BitVec.ofNat 8 c.toNat)

/-- The tokens of an ENCASM row as a list of bytes, group by group (R134, R136). -/
def rowTokenBytes (twoPlan : Bool) (s : State) : List Byte :=
  (List.range (imgWidth s / 4)).flatMap (fun g =>
    if twoPlan then [token1 hwConfig s s.cur.y.toNat g, token2 hwConfig s s.cur.y.toNat g]
    else [token2 hwConfig s s.cur.y.toNat g])

/-- A row line as rule R136 prints it: TAB dc.b TAB, the tokens separated by single commas, LF. -/
def rowLineText (twoPlan : Bool) (s : State) : List Byte :=
  ascii "\tdc.b\t" ++ List.intercalate (ascii ",") ((rowTokenBytes twoPlan s).map tokenText) ++ ascii "\n"

/-- The ASCII text of a decimal numeral: the digits of `n` as `Nat.digits` gives them, most significant first. -/
def decimalText (n : Nat) : List Byte :=
  if n = 0 then ascii "0" else (Nat.digits 10 n).reverse.map (fun d => BitVec.ofNat 8 (0x30 + d))

/-- The header lines as rule R137 prints them. -/
def headerLines (s : State) : List Byte :=
  ascii "; Height: " ++ decimalText (imgHeight s) ++ ascii "\n" ++ ascii "; Width: " ++ decimalText (imgWidth s) ++ ascii "\n"

/-- The diagnostic line as rule R138 prints it. -/
def diagnosticLine : List Byte := ascii "; Width is not %4; exiting...\n"

/-- A pixel the raster cursor has already passed. -/
def visited (s : State) (x y : Nat) : Prop := y * imgWidth s + x < rasterPos s

/-- An error-diffusion command, the only kind that uses WORK (R20). -/
def isDiffusion : Instr → Bool
  | .fs1 _ _ | .fs2 _ _ | .atk1 _ _ | .atk2 _ _ => true
  | .thr1 _ _ | .thr2 _ _ => false
  | .ord2_1 _ _ | .ord2_2 _ _ | .ord4_1 _ _ | .ord4_2 _ _ | .ord8_1 _ _ | .ord8_2 _ _ => false
  | .enca1 | .enca2 | .encb1p | .encb2p | .encasm1p | .encasm2p => false

/-- Two states in the same CONVERT command on the same image that may differ in everything the command has no right to depend
on: what OUT held, ENC, ENC_LEN, P.TP, the host side, and WORK where the command does not use it. -/
structure SameConversion (i : Instr) (s t : State) : Prop where
  width : t.imgW = s.imgW
  height : t.imgH = s.imgH
  source : SameSrc s t
  busy : t.status.busy = s.status.busy
  x : t.cur.x = s.cur.x
  y : t.cur.y = s.cur.y
  threshold : t.par.t = s.par.t
  amount : t.par.da = s.par.da
  work : isDiffusion i = true → ∀ c x y, c < 3 → x < imgWidth s → y < imgHeight s → workChan t c x y = workChan s c x y
  done : ∀ c x y, c < 4 → x < imgWidth s → y < imgHeight s → visited s x y → outChan t x y c = outChan s x y c

/-- An error-diffusion command at ditherAmount 0 (state `s`) beside the threshold command of the same bit depth (state `t`):
same image, same place, same OUT, and WORK still the source. -/
structure PlainThreshold (s t : State) : Prop where
  width : t.imgW = s.imgW
  height : t.imgH = s.imgH
  source : SameSrc s t
  output : SameOut s t
  busy : t.status.busy = s.status.busy
  x : t.cur.x = s.cur.x
  y : t.cur.y = s.cur.y
  threshold : t.par.t = s.par.t
  zero : s.par.da = 0
  work : ∀ c x y, c < 3 → x < imgWidth s → y < imgHeight s → workChan s c x y = byteRat (srcChan s x y c)

/-- The sum of the weights with which visits already made reach (x, y): the part of the kernel's inflow that has arrived. -/
def arrivedWeight (k : Kernel) (s : State) (x y : Nat) : Rat :=
  ∑ n ∈ Finset.range (rasterPos s), weightAt k (n % imgWidth s) (n / imgWidth s) x y

/-- Every WORK element of the image lies within what the arrived contributions can have moved it from its source byte:
`lo` and `hi` bound one error. -/
def WorkWithin (k : Kernel) (lo hi : Rat) (s : State) : Prop :=
  ∀ c x y, c < 3 → x < imgWidth s → y < imgHeight s →
    byteRat (srcChan s x y c) + lo * arrivedWeight k s x y ≤ workChan s c x y ∧
    workChan s c x y ≤ byteRat (srcChan s x y c) + hi * arrivedWeight k s x y

/-- The plane of WORK and the place two states share: what one channel of an error-diffusion command may depend on (R94). -/
structure SamePlane (c : Nat) (s t : State) : Prop where
  width : t.imgW = s.imgW
  height : t.imgH = s.imgH
  x : t.cur.x = s.cur.x
  y : t.cur.y = s.cur.y
  threshold : t.par.t = s.par.t
  amount : t.par.da = s.par.da
  plane : ∀ x y, x < imgWidth s → y < imgHeight s → workChan t c x y = workChan s c x y

/-- The length of ENC when an ENCODE command has finished (R15, R117, R121, R139, R140). -/
def finalLength (i : Instr) (s : State) : Nat :=
  let w := imgWidth s
  let h := imgHeight s
  let digits := (decimalText h).length + (decimalText w).length
  match i with
  | .enca1 => 3 * h * ((w + 7) / 8)
  | .enca2 => 3 * h * ((w + 3) / 4)
  | .encb1p => h * (w / 4)
  | .encb2p => h * (w / 4) * 2
  | .encasm1p => if w % 4 = 0 then 21 + digits + h * (10 * (w / 4) + 6) else 51 + digits
  | .encasm2p => if w % 4 = 0 then 21 + digits + h * (20 * (w / 4) + 6) else 51 + digits
  | .thr1 _ _ | .thr2 _ _ | .fs1 _ _ | .fs2 _ _ | .atk1 _ _ | .atk2 _ _ => s.encLen.toNat
  | .ord2_1 _ _ | .ord2_2 _ _ | .ord4_1 _ _ | .ord4_2 _ _ | .ord8_1 _ _ | .ord8_2 _ _ => s.encLen.toNat

end Sys2Proof.Claims

open Sys2Proof Sys2Proof.Machine Sys2Proof.Claims

/-! ### Encoding -/

/-- Decoding a command's word gives the command back, for every command and every value of its fields (R50 to R54). -/
def Obligations.DecodeOfEncode : Prop := ∀ i : Instr, decode (encode i) = .ok i

/-- A word that decodes is exactly the encoding of what it decodes to: every word has one meaning and no bit is dropped
(R51 to R53). -/
def Obligations.EncodeOfDecode : Prop := ∀ (w : Word) (i : Instr), decode w = .ok i → encode i = w

/-- R53: a word is the command of a row exactly when `w & mask = match`. -/
def Obligations.TableDecidesDecoding : Prop :=
  ∀ r ∈ table, ∀ w : Word, matchesRow r w ↔ ∃ i, decode w = .ok i ∧ r.holds i = true

/-- The reserved words (R57) are those the rule lists, they are the words that match no row, 0 among them, and an accepted CMD write
of one sets ILL and DONE, leaves BUSY 0 and changes nothing else but CMD (the write itself leaves the agenda). That the idle
engine's cursor stays as it is, is the model's choice (log entry 31). -/
def Obligations.ReservedWordsOnlyFlag : Prop :=
  (∀ w : Word, listedReserved w ↔ ∀ r ∈ table, ¬ matchesRow r w) ∧ listedReserved 0 ∧
  ∀ (s : State) (w : Word) (ts : List Turn), listedReserved w → s.status.busy = false →
    s.port.agenda = .host (.writeReg 0 w) :: ts →
    step s = .next { s with cmd := w, status := ⟨false, true, false, true⟩, port := ⟨ts, s.port.rdata⟩ }

/-- The command words that the spec itself decodes (V-ENC-1). -/
def Obligations.SpecWordsDecode : Prop :=
  decode 0x13800100 = .ok (.fs2 128 256) ∧ decode 0x1B8000C8 = .ok (.ord8_2 128 200) ∧
  decode 0x10FF01FF = .ok (.thr1 255 511) ∧ decode 0x12FF01FF = .ok (.fs1 255 511) ∧
  decode 0x21000000 = .ok .enca2 ∧ decode 0x30000001 = .ok .encb2p ∧ decode 0x40000000 = .ok .encasm1p

/-! ### The quantizer -/

/-- Both quantizers answer a ColorLevel of their bit depth and are non-decreasing in v, for every rational v and under either
setting of `CFG.cutoff_div` (R75). -/
def Obligations.QuantizersMonotone : Prop :=
  ∀ (cfg : Config) (bd : BitVec 1) (t : BitVec 8) (v v' : Rat),
    (bd = 0 → quant cfg v t bd = 0 ∨ quant cfg v t bd = 255) ∧
    (bd = 1 → isLevel (quant cfg v t bd) = true) ∧
    (v ≤ v' → (quant cfg v t bd).toNat ≤ (quant cfg v' t bd).toNat)

/-- The cutoffs in doubled integers under EXACT, as floored integers under FLOOR, and their order (R71). -/
def Obligations.CutoffValues : Prop :=
  ∀ (cfg : Config) (t : BitVec 8),
    (cfg.cutoffDiv = .exact → 2 * (cutoffs cfg t).dark = (min t.toNat 254 : Nat) ∧
      2 * (cutoffs cfg t).bright = (t.toNat + 255 : Nat)) ∧
    (cfg.cutoffDiv = .floor → (cutoffs cfg t).dark = (t.toNat / 2 : Nat) ∧
      (cutoffs cfg t).bright = (t.toNat + (255 - t.toNat) / 2 : Nat)) ∧
    (cutoffs cfg t).mid = (t.toNat : Rat) ∧
    (cutoffs cfg t).dark ≤ (cutoffs cfg t).mid ∧ (cutoffs cfg t).mid ≤ (cutoffs cfg t).bright

/-- Q2 is the band selector over the cutoffs of t, and for an integer v it is the comparator form, which the spec derives from the
cutoffs (R71, R73). It holds under `CFG.cutoff_div` = EXACT (log entry 16), the only setting that `hwConfig` gives. -/
def Obligations.IntegerComparators : Prop :=
  (∀ (v : Rat) (t : BitVec 8), q2 hwConfig v t = q2c v (cutoffs hwConfig t)) ∧
  ∀ v t : BitVec 8, q2 hwConfig (byteRat v) t =
    if 2 * v.toNat < min t.toNat 254 then 0 else if v.toNat < t.toNat then 85
    else if 2 * v.toNat < t.toNat + 255 then 170 else 255

/-! ### Command start -/

/-- The start of each of the 12 CONVERT commands completes whenever both dimensions are legal: the parameters latched, WORK filled
from SRC for FS and ATK and left alone for the others, the raster cursor at (0, 0), BUSY set and the other flags cleared; nothing
else changes (R56). No bound on DAMOUNT is asked: running a command with DAMOUNT over 256 is the model's choice (log entry 10), and
so is keeping the unused cursor components (log entry 23). -/
def Obligations.ConvertStart : Prop :=
  ∀ (i : Instr) (alg : BitVec 3) (bd : BitVec 1) (t : BitVec 8) (da : BitVec 9) (s : State),
    convertFields i = some (alg, bd, t, da) → s.status.busy = false → imgWidth s ≠ 0 → imgHeight s ≠ 0 →
    ∃ s', exec i s = .next s' ∧ s'.status = ⟨true, false, false, false⟩ ∧
      s'.par = ⟨1, alg, bd, t, da, s.par.tp⟩ ∧
      s'.cur = { s.cur with x := 0, y := 0 } ∧
      (alg = 1 ∨ alg = 2 → ∀ c x y, c < 3 → x < imgWidth s → y < imgHeight s →
        workChan s' c x y = ((srcChan s x y c).toNat : Rat)) ∧
      (¬ (alg = 1 ∨ alg = 2) → SameWork s s') ∧
      SameSrc s s' ∧ SameOut s s' ∧ SameEnc s s' ∧ SameControl s s'

/-- The start of each of the six ENCODE commands completes whenever both dimensions are legal and, for Format B, W is a multiple of
4: OP, BD and TP latched, ENC_LEN 0, the command's cursor components at their start, BUSY set and the other flags cleared; SRC, OUT,
WORK, the other parameter registers and the control registers do not change (R56). ENC itself starts anew (R173, log entry 9), and
unused cursor components keep their values, the model's choice (log entry 23). -/
def Obligations.EncodeStart : Prop :=
  ∀ (i : Instr) (op : BitVec 4) (bd tp : BitVec 1) (s : State),
    encodeFields i = some (op, bd, tp) → s.status.busy = false → imgWidth s ≠ 0 → imgHeight s ≠ 0 →
    (isFormatB i = true → imgWidth s % 4 = 0) →
    ∃ s', exec i s = .next s' ∧ s'.status = ⟨true, false, false, false⟩ ∧
      s'.par = { s.par with op := op, bd := bd, tp := tp } ∧ s'.encLen = 0 ∧
      (op = 2 → s'.cur = { s.cur with p := 0, y := 0, j := 0 }) ∧
      (op = 3 → s'.cur = { s.cur with y := 0, g := 0 }) ∧
      (op = 4 → s'.cur = { s.cur with hdr := 0, y := 0 }) ∧
      SameSrc s s' ∧ SameOut s s' ∧ SameWork s s' ∧ SameControl s s'

/-- With IMG_W = 0 or IMG_H = 0 no command starts: every one is refused by name (U6, R56, R146). -/
def Obligations.ZeroDimensionRefused : Prop :=
  ∀ (i : Instr) (s : State), s.status.busy = false → (imgWidth s = 0 ∨ imgHeight s = 0) →
    exec i s = .refused .zeroDimension

/-- R122: an ENCB command whose width is not a multiple of 4 is refused at command start. -/
def Obligations.FormatBWidthRefused : Prop :=
  ∀ (i : Instr) (s : State), isFormatB i = true → s.status.busy = false → imgWidth s ≠ 0 → imgHeight s ≠ 0 →
    imgWidth s % 4 ≠ 0 → exec i s = .refused .formatBWidth

/-- The two treatments of ditherAmount over 1 that the spec names (U1): under `refuse` an FS, ATK or ORD start with DAMOUNT over 256
is refused and every other start completes; this hardware's configuration evaluates (the model's choice, log entry 10). -/
def Obligations.OverRangeTreatments : Prop :=
  hwConfig.overRange = .evaluate ∧
  ∀ (cfg : Config) (alg : BitVec 3) (bd : BitVec 1) (t : BitVec 8) (da : BitVec 9) (s : State),
    cfg.overRange = .refuse → imgWidth s ≠ 0 → imgHeight s ≠ 0 →
    (alg ≠ 0 → 256 < da.toNat → startConvert cfg alg bd t da s = .refused .ditherAmount) ∧
    (alg = 0 ∨ da.toNat ≤ 256 → ∃ s', startConvert cfg alg bd t da s = .next s')

/-! ### CONVERT steps -/

/-- A step of THR.1 or THR.2 completes wherever the cursor is inside the image: each channel becomes its level under P.T, and
nothing but this pixel, the cursor and BUSY/DONE changes (R76, R77). The cutoffs are EXACT (log entry 16); the cursor components that
CONVERT does not use keep their values, the model's choice (log entry 23). -/
def Obligations.ThresholdStep : Prop :=
  ∀ (i : Instr) (bd : BitVec 1) (t : BitVec 8) (da : BitVec 9) (s : State),
    (i = .thr1 t da ∧ bd = 0) ∨ (i = .thr2 t da ∧ bd = 1) →
    s.status.busy = true → s.cur.x.toNat < imgWidth s → s.cur.y.toNat < imgHeight s →
    ∃ s', exec i s = .next s' ∧
      (∀ c, c < 3 → outChan s' s.cur.x.toNat s.cur.y.toNat c =
        integerLevel bd (srcChan s s.cur.x.toNat s.cur.y.toNat c).toNat s.par.t.toNat) ∧
      SameWork s s' ∧ PixelFrame s s'

/-- A step of FS.1 or FS.2 completes wherever the cursor is inside the image: with v the WORK value clamped to [0, 255], q its
level and e = (v - q) DA/256, every WORK element of the image gains e times the Floyd-Steinberg weight of its position, in its own
plane; nothing else but this pixel, the cursor and BUSY/DONE changes (R85, R88 to R90). The cursor components that CONVERT does not
use keep their values, the model's choice (log entry 23). -/
def Obligations.FloydSteinbergStep : Prop :=
  ∀ (i : Instr) (bd : BitVec 1) (t : BitVec 8) (da : BitVec 9) (s : State),
    (i = .fs1 t da ∧ bd = 0) ∨ (i = .fs2 t da ∧ bd = 1) →
    s.status.busy = true → s.cur.x.toNat < imgWidth s → s.cur.y.toNat < imgHeight s →
    ∃ s', exec i s = .next s' ∧
      (∀ c, c < 3 → ∃ (v : Rat) (q : Byte),
        v = max 0 (min 255 (workChan s c s.cur.x.toNat s.cur.y.toNat)) ∧ q = quant hwConfig v s.par.t bd ∧
        outChan s' s.cur.x.toNat s.cur.y.toNat c = q ∧
        ∀ x y, x < imgWidth s → y < imgHeight s → workChan s' c x y = workChan s c x y +
          (v - q.toNat) * ((s.par.da.toNat : Rat) / 256) * weightAt .fs s.cur.x.toNat s.cur.y.toNat x y) ∧
      (∀ n, 3 * imgWidth s * imgHeight s ≤ n → workAt s' n = workAt s n) ∧ PixelFrame s s'

/-- A step of ATK.1 or ATK.2 completes wherever the cursor is inside the image: with v the WORK value clamped to [0, 255], q its
level and e the floor of (v - q) DA/256 / 8, every WORK element of the image that is a target gains e, in its own plane; nothing
else but this pixel, the cursor and BUSY/DONE changes (R85, R91 to R93). The cursor components that CONVERT does not use keep their
values, the model's choice (log entry 23). -/
def Obligations.AtkinsonStep : Prop :=
  ∀ (i : Instr) (bd : BitVec 1) (t : BitVec 8) (da : BitVec 9) (s : State),
    (i = .atk1 t da ∧ bd = 0) ∨ (i = .atk2 t da ∧ bd = 1) →
    s.status.busy = true → s.cur.x.toNat < imgWidth s → s.cur.y.toNat < imgHeight s →
    ∃ s', exec i s = .next s' ∧
      (∀ c, c < 3 → ∃ (v : Rat) (q : Byte) (e : Int),
        v = max 0 (min 255 (workChan s c s.cur.x.toNat s.cur.y.toNat)) ∧ q = quant hwConfig v s.par.t bd ∧
        outChan s' s.cur.x.toNat s.cur.y.toNat c = q ∧
        (e : Rat) ≤ (v - q.toNat) * s.par.da.toNat / 256 / 8 ∧ (v - q.toNat) * s.par.da.toNat / 256 / 8 < e + 1 ∧
        ∀ x y, x < imgWidth s → y < imgHeight s → workChan s' c x y = workChan s c x y +
          e * weightAt .atk s.cur.x.toNat s.cur.y.toNat x y) ∧
      (∀ n, 3 * imgWidth s * imgHeight s ≤ n → workAt s' n = workAt s n) ∧ PixelFrame s s'

/-- A step of an ORD command completes wherever the cursor is inside the image: with k the ROM entry at (y mod N, x mod N) and m
its modifier (k s DA) div (N^2 256), each channel becomes its level under the cutoffs lowered by m and held at 0; nothing else but
this pixel, the cursor and BUSY/DONE changes (R103 to R110). The cutoffs are EXACT (log entry 16); the cursor components that CONVERT
does not use keep their values, the model's choice (log entry 23). -/
def Obligations.OrderedStep : Prop :=
  ∀ (i : Instr) (alg : BitVec 3) (bd : BitVec 1) (t : BitVec 8) (da : BitVec 9) (n : Nat) (s : State),
    convertFields i = some (alg, bd, t, da) → ordSize i = some n →
    s.status.busy = true → s.cur.x.toNat < imgWidth s → s.cur.y.toNat < imgHeight s →
    ∃ s' k m, exec i s = .next s' ∧
      (n = 2 → ((bayer2[s.cur.y.toNat % 2]?).getD [])[s.cur.x.toNat % 2]? = some k) ∧
      (n = 4 → ((bayer4[s.cur.y.toNat % 4]?).getD [])[s.cur.x.toNat % 4]? = some k) ∧
      (n = 8 → ((bayer8[s.cur.y.toNat % 8]?).getD [])[s.cur.x.toNat % 8]? = some k) ∧
      m = k * (if bd = 0 then 255 else 85) * s.par.da.toNat / (n ^ 2 * 256) ∧
      (∀ c, c < 3 → outChan s' s.cur.x.toNat s.cur.y.toNat c =
        integerOrdLevel bd (srcChan s s.cur.x.toNat s.cur.y.toNat c).toNat s.par.t.toNat m) ∧
      SameWork s s' ∧ PixelFrame s s'

/-- R103: the modifier in its integer form, its bounds, and that it vanishes with the amount or the entry. -/
def Obligations.ModifierIntegerForm : Prop :=
  (∀ (k n sc : Nat) (da : BitVec 9), 0 < n → bayerMod k n sc da = (k * sc * da.toNat / (n ^ 2 * 256) : Nat)) ∧
  (∀ (k n sc : Nat) (da : BitVec 9), 0 < n → k < n ^ 2 → da.toNat ≤ 256 →
    0 ≤ bayerMod k n sc da ∧ bayerMod k n sc da ≤ (sc * (n ^ 2 - 1) / n ^ 2 : Nat)) ∧
  (∀ (k : Nat) (da : BitVec 9), k < 64 → da.toNat ≤ 256 →
    bayerMod k 8 255 da ≤ 251 ∧ bayerMod k 8 85 da ≤ 83 ∧ k * 255 * da.toNat < 2 ^ 22) ∧
  (∀ (k n sc : Nat) (da : BitVec 9), 0 < n → (k = 0 ∨ da = 0) → bayerMod k n sc da = 0)

/-- Every CONVERT step writes 255 to the A byte of its pixel, and no CONVERT transition depends on an A byte of SRC: with any
other SRC that agrees on the R, G, B bytes it gives the same next state but for SRC itself (R80). -/
def Obligations.AlphaWrittenNeverRead : Prop :=
  (∀ (i : Instr) (s t : State), isConvert i = true → s.status.busy = true → exec i s = .next t →
    outChan t s.cur.x.toNat s.cur.y.toNat 3 = 255) ∧
  (∀ (i : Instr) (s t : State) (m : Memory), isConvert i = true →
    (∀ a, a % 4 ≠ 3 → srcByte { s with src := m } a = srcByte s a) → exec i s = .next t →
    exec i { s with src := m } = .next { t with src := m })

/-- A CONVERT step writes only ColorLevels: each R, G, B byte of its pixel is one of 0, 85, 170, 255, and 0 or 255 at one bit per
channel (R18, R171). -/
def Obligations.ConvertWritesLevels : Prop :=
  ∀ (i : Instr) (alg : BitVec 3) (bd : BitVec 1) (ti : BitVec 8) (da : BitVec 9) (s t : State) (c : Nat),
    convertFields i = some (alg, bd, ti, da) → s.status.busy = true → exec i s = .next t → c < 3 →
    isLevel (outChan t s.cur.x.toNat s.cur.y.toNat c) = true ∧
    (bd = 0 → outChan t s.cur.x.toNat s.cur.y.toNat c = 0 ∨ outChan t s.cur.x.toNat s.cur.y.toNat c = 255)

/-! ### Properties of whole conversions -/

/-- With ditherAmount 0 an FS or ATK command keeps step with the threshold command of the same bit depth: the relation "same place,
same OUT, WORK still the source" holds after both start from one state, and every pair of steps keeps it (R78, R95). -/
def Obligations.ZeroAmountDiffusion : Prop :=
  ∀ (i j : Instr) (ti tj : BitVec 8) (da dj : BitVec 9),
    ((i = .fs1 ti da ∨ i = .atk1 ti da) ∧ j = .thr1 tj dj) ∨ ((i = .fs2 ti da ∨ i = .atk2 ti da) ∧ j = .thr2 tj dj) →
    (∀ s s' t', s.status.busy = false → ti = tj → da = 0 → exec i s = .next s' → exec j s = .next t' →
      PlainThreshold s' t') ∧
    (∀ s t s' t', PlainThreshold s t → s.status.busy = true → exec i s = .next s' → exec j t = .next t' →
      PlainThreshold s' t')

/-- With ditherAmount 0 a step of an ORD command is the step of the threshold command of the same bit depth (R78, R111). -/
def Obligations.ZeroAmountOrdered : Prop :=
  ∀ (i j : Instr) (n : Nat) (alg alg' : BitVec 3) (bd : BitVec 1) (t t' : BitVec 8) (da da' : BitVec 9) (s : State),
    ordSize i = some n → convertFields i = some (alg, bd, t, da) → convertFields j = some (alg', bd, t', da') → alg' = 0 →
    s.status.busy = true → s.par.da = 0 → exec i s = exec j s

/-- An ordered-dithering step depends only on (x mod N, y mod N), the source pixel and the parameters (R111). -/
def Obligations.OrderedPeriodic : Prop :=
  ∀ (i : Instr) (n : Nat) (s t s' t' : State), ordSize i = some n → s.status.busy = true → t.status.busy = true →
    s.cur.x.toNat % n = t.cur.x.toNat % n → s.cur.y.toNat % n = t.cur.y.toNat % n →
    s.par.t = t.par.t → s.par.da = t.par.da →
    (∀ c, c < 3 → srcChan s s.cur.x.toNat s.cur.y.toNat c = srcChan t t.cur.x.toNat t.cur.y.toNat c) →
    exec i s = .next s' → exec i t = .next t' →
    ∀ c, c < 3 → outChan s' s.cur.x.toNat s.cur.y.toNat c = outChan t' t.cur.x.toNat t.cur.y.toNat c

/-- Each channel of an error-diffusion step depends on its own WORK plane alone: two states that share the plane of channel c, the
place and the parameters write the same level and still share that plane afterwards (R94). -/
def Obligations.ChannelsIndependent : Prop :=
  ∀ (i : Instr) (ti : BitVec 8) (da : BitVec 9) (c : Nat) (s t s' t' : State),
    i = .fs1 ti da ∨ i = .fs2 ti da ∨ i = .atk1 ti da ∨ i = .atk2 ti da → c < 3 →
    s.status.busy = true → t.status.busy = true → SamePlane c s t →
    exec i s = .next s' → exec i t = .next t' →
    outChan s' s.cur.x.toNat s.cur.y.toNat c = outChan t' s.cur.x.toNat s.cur.y.toNat c ∧ SamePlane c s' t'

/-- A conversion is a function of SRC, W, H and the command word alone: two machines that start the same CONVERT on the same image,
whatever their OUT, ENC, WORK, parameter registers and cursor held, agree after the start, every pair of steps keeps them agreeing
on all pixels already passed, and when the command finishes they agree on the whole image (R161, R176). -/
def Obligations.ConversionDeterministic : Prop :=
  ∀ (i : Instr), isConvert i = true →
    (∀ s t s' t', s.status.busy = false → t.status.busy = false → s.imgW = t.imgW → s.imgH = t.imgH → SameSrc s t →
      exec i s = .next s' → exec i t = .next t' → SameConversion i s' t') ∧
    (∀ s t s' t', SameConversion i s t → s.status.busy = true → exec i s = .next s' → exec i t = .next t' →
      SameConversion i s' t' ∧ (s'.status.busy = false → ∀ c x y, c < 4 → x < imgWidth s → y < imgHeight s →
        outChan t' x y c = outChan s' x y c))

/-- While an error-diffusion command runs, no WORK element of the image moves further from its source byte than the errors already
sent to it allow, each error in [-255, 255] for FS and in [-32, 31] for ATK: it holds after the start, and every step keeps it, for
every legal ditherAmount (R96). -/
def Obligations.WorkStaysWithin : Prop :=
  ∀ (i : Instr) (k : Kernel) (lo hi : Rat) (ti : BitVec 8) (da : BitVec 9),
    ((i = .fs1 ti da ∨ i = .fs2 ti da) ∧ k = .fs ∧ lo = -255 ∧ hi = 255) ∨
      ((i = .atk1 ti da ∨ i = .atk2 ti da) ∧ k = .atk ∧ lo = -32 ∧ hi = 31) →
    (∀ s t, s.status.busy = false → exec i s = .next t → WorkWithin k lo hi t) ∧
    (∀ s t, s.status.busy = true → s.par.da.toNat ≤ 256 → WorkWithin k lo hi s → exec i s = .next t →
      WorkWithin k lo hi t)

/-- R96's ranges: within those bounds every WORK element of the image is in [-255, 510] for FS and in [-192, 441] for ATK, since
the weights that can arrive sum to at most 1 and at most 6. -/
def Obligations.WorkRange : Prop :=
  ∀ s c x y, c < 3 → x < imgWidth s → y < imgHeight s →
    (WorkWithin .fs (-255) 255 s → -255 ≤ workChan s c x y ∧ workChan s c x y ≤ 510) ∧
    (WorkWithin .atk (-32) 31 s → -192 ≤ workChan s c x y ∧ workChan s c x y ≤ 441)

/-! ### ENCODE steps -/

/-- A step of ENCA.1 completes wherever its cursor is in range and ENC has room: one byte is appended whose bit 7 - i is the plane
bit of pixel 8 j + i, 0 past the row's end; nothing else but the cursor and BUSY/DONE changes (R116, R117). The cursor components that
ENCA does not use keep their values, the model's choice (log entry 23). -/
def Obligations.EncaOneBitStep : Prop :=
  ∀ s : State, s.status.busy = true → s.cur.p.toNat < 3 → s.cur.y.toNat < imgHeight s →
    s.cur.j.toNat < (imgWidth s + 7) / 8 → s.encLen.toNat + 1 ≤ hwConfig.encCap →
    ∃ s' b, exec .enca1 s = .next s' ∧ Appended s s' [b] ∧
      (∀ i, i < 8 → b.getLsbD (7 - i) = (decide (8 * s.cur.j.toNat + i < imgWidth s) &&
        decide (128 ≤ (outChan s (8 * s.cur.j.toNat + i) s.cur.y.toNat s.cur.p.toNat).toNat))) ∧
      EncodeFrame s s' ∧ PlanesAdvanced ((imgWidth s + 7) / 8) s s'

/-- A step of ENCA.2 completes wherever its cursor is in range, ENC has room and the pixels it reads are levels: one byte is
appended whose bits 7 - 2 i and 6 - 2 i are the level index of pixel 4 j + i (the byte value divided by 85), 0 past the row's end;
nothing else but the cursor and BUSY/DONE changes (R118, R119). The cursor components that ENCA does not use keep their values, the
model's choice (log entry 23). -/
def Obligations.EncaTwoBitStep : Prop :=
  ∀ s : State, s.status.busy = true → s.cur.p.toNat < 3 → s.cur.y.toNat < imgHeight s →
    s.cur.j.toNat < (imgWidth s + 3) / 4 → s.encLen.toNat + 1 ≤ hwConfig.encCap →
    (∀ i, i < 4 → 4 * s.cur.j.toNat + i < imgWidth s →
      isLevel (outChan s (4 * s.cur.j.toNat + i) s.cur.y.toNat s.cur.p.toNat) = true) →
    ∃ s' b, exec .enca2 s = .next s' ∧ Appended s s' [b] ∧
      (∀ i, i < 4 → 85 * (b.extractLsb' (6 - 2 * i) 2).toNat = if 4 * s.cur.j.toNat + i < imgWidth s
        then (outChan s (4 * s.cur.j.toNat + i) s.cur.y.toNat s.cur.p.toNat).toNat else 0) ∧
      EncodeFrame s s' ∧ PlanesAdvanced ((imgWidth s + 3) / 4) s s'

/-- A step of ENCA.2 that reads a byte other than 0, 85, 170, 255 is refused by name (U4, R119). -/
def Obligations.NonLevelRefused : Prop :=
  ∀ (s : State) (i : Nat), s.status.busy = true → s.cur.p.toNat < 3 → s.cur.y.toNat < imgHeight s →
    s.cur.j.toNat < (imgWidth s + 3) / 4 → i < 4 → 4 * s.cur.j.toNat + i < imgWidth s →
    isLevel (outChan s (4 * s.cur.j.toNat + i) s.cur.y.toNat s.cur.p.toNat) = false →
    exec .enca2 s = .refused .notALevel

/-- A step of ENCB.1P or ENCB.2P completes wherever its cursor is in range and ENC has room: byte1 has the green bits at 7, 5, 3, 1
and 0 elsewhere, byte2 the red bits at 7, 5, 3, 1 and the blue bits at 6, 4, 2, 0; one plane appends byte2, two planes byte1 then
byte2; nothing else but the cursor and BUSY/DONE changes (R120, R121, R123, R124). The cursor components that ENCB does not
use keep their values, the model's choice (log entry 23). -/
def Obligations.FormatBStep : Prop :=
  ∀ (i : Instr) (s : State), isFormatB i = true → s.status.busy = true → s.cur.y.toNat < imgHeight s →
    s.cur.g.toNat < imgWidth s / 4 → s.encLen.toNat + (if i = .encb2p then 2 else 1) ≤ hwConfig.encCap →
    ∃ s' b1 b2, exec i s = .next s' ∧
      (i = .encb1p → Appended s s' [b2]) ∧ (i = .encb2p → Appended s s' [b1, b2]) ∧
      (∀ k, k < 4 →
        b1.getLsbD (7 - 2 * k) = decide (127 < (outChan s (4 * s.cur.g.toNat + k) s.cur.y.toNat 1).toNat) ∧
        b1.getLsbD (6 - 2 * k) = false ∧
        b2.getLsbD (7 - 2 * k) = decide (127 < (outChan s (4 * s.cur.g.toNat + k) s.cur.y.toNat 0).toNat) ∧
        b2.getLsbD (6 - 2 * k) = decide (127 < (outChan s (4 * s.cur.g.toNat + k) s.cur.y.toNat 2).toNat)) ∧
      EncodeFrame s s' ∧ GroupsAdvanced s s'

/-- R131: the two settings of the palette's classifier, that they differ on 85 alone, and how they meet the 2-bit levels. -/
def Obligations.PaletteClassifier : Prop :=
  ∀ cfg : Config,
    (cfg.palHighInclusive = false → ∀ v : Byte, paletteHigh cfg v = decide (85 < v.toNat)) ∧
    (cfg.palHighInclusive = true → ∀ v : Byte, paletteHigh cfg v = decide (85 ≤ v.toNat)) ∧
    (∀ (cfg' : Config) (v : Byte), cfg.palHighInclusive ≠ cfg'.palHighInclusive →
      (paletteHigh cfg v = paletteHigh cfg' v ↔ v ≠ 85)) ∧
    (cfg.palHighInclusive = false → ∀ v : Byte, isLevel v = true → paletteHigh cfg v = decide (127 < v.toNat)) ∧
    (cfg.palHighInclusive = true → paletteHigh cfg 85 = true)

/-- The tokens of a group by bits: tok1 has the green classes at 7, 5, 3, 1 and 0 elsewhere, tok2 the red classes at 7, 5, 3, 1 and
the blue classes at 6, 4, 2, 0, under the default palette and either setting of the classifier (R132 to R134). -/
def Obligations.TokenBits : Prop :=
  ∀ (cfg : Config) (s : State) (y g k : Nat), cfg.pal = palRom → k < 4 →
    (token1 cfg s y g).getLsbD (7 - 2 * k) = paletteHigh cfg (outChan s (4 * g + k) y 1) ∧
    (token1 cfg s y g).getLsbD (6 - 2 * k) = false ∧
    (token2 cfg s y g).getLsbD (7 - 2 * k) = paletteHigh cfg (outChan s (4 * g + k) y 0) ∧
    (token2 cfg s y g).getLsbD (6 - 2 * k) = paletteHigh cfg (outChan s (4 * g + k) y 2)

/-- R135: a token's text is a percent sign and the eight bits, bit 7 first, each as 0 or 1. -/
def Obligations.TokenTextDigits : Prop :=
  ∀ b : Byte, (tokenText b).length = 9 ∧ (tokenText b)[0]? = some 0x25 ∧
    ∀ k, k < 8 → (tokenText b)[k + 1]? = some (if b.getLsbD (7 - k) then 0x31 else 0x30)

/-- The tokens of a group are the Format B bytes of the group wherever the palette's classifier agrees with "over 127" on its
pixels (R133). -/
def Obligations.TokensAreFormatB : Prop :=
  ∀ (cfg : Config) (s : State) (y g : Nat), cfg.pal = palRom →
    (∀ k c, k < 4 → c < 3 → paletteHigh cfg (outChan s (4 * g + k) y c) = decide (127 < (outChan s (4 * g + k) y c).toNat)) →
    token1 cfg s y g = encbByte1 s y g ∧ token2 cfg s y g = encbByte2 s y g

/-- Step 0 of an ENCASM command completes on a width that is a multiple of 4, wherever ENC has room: the two header lines are
appended and the rows begin, the cursor at hdr = 1, y = 0; nothing else changes (R137, R139, R140). That the cursor components x, p,
j and g, which ENCASM does not use, keep their values is the model's choice (log entry 23). -/
def Obligations.HeaderStep : Prop :=
  ∀ (i : Instr) (s : State), i = .encasm1p ∨ i = .encasm2p → s.status.busy = true → s.cur.hdr = 0 →
    imgWidth s % 4 = 0 → s.encLen.toNat + (headerLines s).length ≤ hwConfig.encCap →
    ∃ s', exec i s = .next s' ∧ Appended s s' (headerLines s) ∧ s'.cur = { s.cur with hdr := 1, y := 0 } ∧
      s'.status = s.status ∧ EncodeFrame s s'

/-- On a width that is not a multiple of 4, step 0 of an ENCASM command appends the header lines and the diagnostic line, sets DIAG
and finishes, so that no dc.b line is emitted; OUT is not read (R60, R137 to R140). That the cursor components other than hdr keep
their values is the model's choice: x, p, j and g, which ENCASM does not use, by log entry 23, and y after the finish, where the
spec leaves the cursor unspecified, by log entry 31. Nothing is said of hdr. -/
def Obligations.DiagnosticStep : Prop :=
  ∀ (i : Instr) (s : State), i = .encasm1p ∨ i = .encasm2p → s.status.busy = true → s.cur.hdr = 0 →
    imgWidth s % 4 ≠ 0 → s.encLen.toNat + (headerLines s ++ diagnosticLine).length ≤ hwConfig.encCap →
    ∃ s', exec i s = .next s' ∧ Appended s s' (headerLines s ++ diagnosticLine) ∧
      s'.status = ⟨false, true, true, s.status.ill⟩ ∧ s'.cur = { s.cur with hdr := s'.cur.hdr } ∧ EncodeFrame s s' ∧
      diagnosticLine.length = 30 ∧ ∀ m : Memory, exec i { s with out := m } = .next { s' with out := m }

/-- A later step of an ENCASM command completes wherever its row is in range and ENC has room: the row's line is appended as rule
R136 prints it, of 10 n + 6 bytes with n = (W/4)(1 + TP) tokens, and the cursor moves to the next row, finishing after the last;
nothing else changes (R136, R139, R140). That the cursor components x, p, j and g, which ENCASM does not use, keep their values is
the model's choice (log entry 23). -/
def Obligations.RowLineStep : Prop :=
  ∀ (i : Instr) (twoPlan : Bool) (s : State), (i = .encasm1p ∧ twoPlan = false) ∨ (i = .encasm2p ∧ twoPlan = true) →
    s.status.busy = true → s.cur.hdr = 1 → s.cur.y.toNat < imgHeight s →
    s.encLen.toNat + (rowLineText twoPlan s).length ≤ hwConfig.encCap →
    ∃ s', exec i s = .next s' ∧ Appended s s' (rowLineText twoPlan s) ∧
      (4 ≤ imgWidth s → (rowLineText twoPlan s).length = 10 * (imgWidth s / 4 * (if twoPlan then 2 else 1)) + 6) ∧
      s'.cur = { s.cur with y := s.cur.y + 1 } ∧
      s'.status = (if s.cur.y.toNat + 1 = imgHeight s then ⟨false, true, s.status.diag, s.status.ill⟩ else s.status) ∧
      EncodeFrame s s'

/-- An ENCODE step depends on OUT, W, H, the cursor and the append address alone: another state that shares these, whatever its SRC,
WORK, parameter registers and older ENC bytes, completes the step too and appends the same bytes (R126, R176). That equal cursors
stay equal in the components the command does not use, and at the finish, is the model's choice (log entries 23 and 31). -/
def Obligations.EncodingReadsOutAlone : Prop :=
  ∀ (i : Instr) (s t s' : State), isConvert i = false → s.status.busy = true → t.status.busy = true →
    t.imgW = s.imgW → t.imgH = s.imgH → SameOut s t → t.cur = s.cur → t.encLen = s.encLen → exec i s = .next s' →
    ∃ t', exec i t = .next t' ∧ t'.cur = s'.cur ∧ t'.encLen = s'.encLen ∧ t'.status.busy = s'.status.busy ∧
      ∀ a, s.encLen.toNat ≤ a → a < s'.encLen.toNat → encByte t' a = encByte s' a

/-! ### What no command does -/

/-- Whatever transition of whatever command completes, SRC and the control registers do not change; the parameter registers change
at a start alone; a CONVERT leaves ENC and ENC_LEN, and an ENCODE leaves OUT and WORK; THR and ORD leave WORK (R10, R17, R30, R126,
R167, R173, R174). That WORK and the parameter registers keep their values over the finish is the model's choice (log entries 8 and
32). -/
def Obligations.EngineLeavesAlone : Prop :=
  ∀ (i : Instr) (s t : State), exec i s = .next t →
    SameSrc s t ∧ SameControl s t ∧ (s.status.busy = true → t.par = s.par) ∧
    (isConvert i = true → SameEnc s t) ∧ (isConvert i = false → SameOut s t ∧ SameWork s t) ∧
    ((∃ n, ordSize i = some n) ∨ (∃ ti da, i = .thr1 ti da ∨ i = .thr2 ti da) → SameWork s t)

/-- Every step of the machine keeps each space canonical, from any state whose spaces are (the memory's form). -/
def Obligations.CanonicalFormKept : Prop :=
  ∀ s t : State, Memory.wf s.src → Memory.wf s.out → Memory.wf s.enc → WorkSpace.wf s.work → step s = .next t →
    Memory.wf t.src ∧ Memory.wf t.out ∧ Memory.wf t.enc ∧ WorkSpace.wf t.work

/-! ### The machine and its host -/

/-- A word written to CMD while BUSY = 0 that decodes to a command runs that command's start, with the word in CMD and the turn
taken off the agenda (R11, R56). -/
def Obligations.WrittenCommandRuns : Prop :=
  ∀ (s : State) (w : Word) (i : Instr) (ts : List Turn), s.status.busy = false →
    s.port.agenda = .host (.writeReg 0 w) :: ts → decode w = .ok i →
    step s = exec i { s with cmd := w, port := ⟨ts, s.port.rdata⟩ }

/-- While BUSY = 1 the engine's turn runs one step of the command in the latched registers; with an empty agenda it is always the
engine's turn (the agenda is the model's own, log entry 2); an idle engine does nothing (R60, R160), its cursor and
parameter registers kept by the model's choice (log entries 31 and 32). -/
def Obligations.LatchedCommandRuns : Prop :=
  ∀ (s : State) (i : Instr) (ts : List Turn), s.port.agenda = .engine :: ts ∨ (s.port.agenda = [] ∧ ts = []) →
    (s.status.busy = true → running s = .ok i → step s = exec i { s with port := ⟨ts, s.port.rdata⟩ }) ∧
    (s.status.busy = false → step s = .next { s with port := ⟨ts, s.port.rdata⟩ })

/-- R168: while BUSY = 1 a CMD write is ignored, not queued; so are writes of IMG_W and IMG_H: the step takes the turn off the
agenda and changes nothing else. -/
def Obligations.BusyIgnoresWrites : Prop :=
  ∀ (s : State) (n : Nat) (v : Word) (ts : List Turn), s.status.busy = true → n = 0 ∨ n = 2 ∨ n = 3 →
    s.port.agenda = .host (.writeReg n v) :: ts → step s = .next { s with port := ⟨ts, s.port.rdata⟩ }

/-- What the host reads from each register, with no side effect: CMD, the STATUS bits with 31:4 zero, W and H with 31:12 zero,
ENC_LEN, and 0 from number 5 on (R11 to R15, U11). The value is returned in the model's own field (log entry 3); an idle engine's
cursor and parameter registers are kept by the model's choice (log entries 31 and 32). -/
def Obligations.RegisterReads : Prop :=
  ∀ (s : State) (n : Nat) (ts : List Turn), s.port.agenda = .host (.readReg n) :: ts →
    ∃ v : Word, step s = .next { s with port := ⟨ts, v⟩ } ∧
      (n = 0 → v = s.cmd) ∧
      (n = 1 → ∀ k, v.getLsbD k = ((k == 0 && s.status.busy) || (k == 1 && s.status.done) || (k == 2 && s.status.diag) ||
        (k == 3 && s.status.ill))) ∧
      (n = 2 → v.toNat = imgWidth s) ∧ (n = 3 → v.toNat = imgHeight s) ∧ (n = 4 → v = s.encLen) ∧ (5 ≤ n → v = 0)

/-- A write of IMG_W or IMG_H while BUSY = 0 takes bits 11:0 and ignores the rest, while BUSY = 1 it is ignored; the
register reads back below 4096; both are 0 after reset (R13, R14). An idle engine's cursor and parameter registers are kept
by the model's choice (log entries 31 and 32). -/
def Obligations.DimensionRegisters : Prop :=
  State.reset.imgW = 0 ∧ State.reset.imgH = 0 ∧ (∀ s, (readReg s 2).toNat < 4096 ∧ (readReg s 3).toNat < 4096) ∧
  ∀ (s : State) (n : Nat) (v : Word) (ts : List Turn), s.port.agenda = .host (.writeReg n v) :: ts →
    (n = 2 → ∃ w : BitVec 12, w.toNat = v.toNat % 4096 ∧
      step s = .next { s with imgW := if s.status.busy then s.imgW else w, port := ⟨ts, s.port.rdata⟩ }) ∧
    (n = 3 → ∃ h : BitVec 12, h.toNat = v.toNat % 4096 ∧
      step s = .next { s with imgH := if s.status.busy then s.imgH else h, port := ⟨ts, s.port.rdata⟩ })

/-- Writes to STATUS, to ENC_LEN and to numbers 5 and above have no effect, busy or idle (R12, R15, U11); an idle
engine's cursor and parameter registers are kept by the model's choice (log entries 31 and 32). -/
def Obligations.ReadOnlyRegisters : Prop :=
  ∀ (s : State) (n : Nat) (v : Word) (ts : List Turn), n = 1 ∨ 4 ≤ n →
    s.port.agenda = .host (.writeReg n v) :: ts → step s = .next { s with port := ⟨ts, s.port.rdata⟩ }

/-- While BUSY = 0 and inside the size in use, the host's write of a SRC or OUT byte sets that byte and nothing else, and its read
of a SRC, OUT or ENC byte returns the byte with no side effect (R30, R33, R155). The idle engine's cursor and parameter
registers are kept by the model's choice (log entries 31 and 32). -/
def Obligations.HostBufferAccess : Prop :=
  ∀ (s : State) (a : Nat) (v : Byte) (ts : List Turn), s.status.busy = false →
    (a < 4 * imgWidth s * imgHeight s →
      (s.port.agenda = .host (.writeBuf .src a v) :: ts → ∃ t, step s = .next t ∧ srcByte t a = v ∧
        (∀ b, b ≠ a → srcByte t b = srcByte s b) ∧ t = { s with src := t.src, port := ⟨ts, s.port.rdata⟩ }) ∧
      (s.port.agenda = .host (.writeBuf .out a v) :: ts → ∃ t, step s = .next t ∧ outByte t a = v ∧
        (∀ b, b ≠ a → outByte t b = outByte s b) ∧ t = { s with out := t.out, port := ⟨ts, s.port.rdata⟩ }) ∧
      (s.port.agenda = .host (.readBuf .src a) :: ts →
        step s = .next { s with port := ⟨ts, (srcByte s a).setWidth 32⟩ }) ∧
      (s.port.agenda = .host (.readBuf .out a) :: ts →
        step s = .next { s with port := ⟨ts, (outByte s a).setWidth 32⟩ })) ∧
    (a < s.encLen.toNat → s.port.agenda = .host (.readBuf .enc a) :: ts →
      step s = .next { s with port := ⟨ts, (encByte s a).setWidth 32⟩ })

/-- The host accesses that are no move are refused by name: any buffer access while BUSY = 1, any access to WORK, BAYER or PAL, a
write to ENC, a read at or above the size in use (ENC_LEN for ENC), and a write at or above it once both dimensions are legal
(U7, R155, R166). -/
def Obligations.ForbiddenHostAccess : Prop :=
  ∀ (s : State) (sp : Space) (a : Nat) (v : Byte) (ts : List Turn),
    (s.port.agenda = .host (.readBuf sp a) :: ts →
      s.status.busy = true ∨ sp = .work ∨ sp = .bayer ∨ sp = .pal ∨
        ((sp = .src ∨ sp = .out) ∧ 4 * imgWidth s * imgHeight s ≤ a) ∨ (sp = .enc ∧ s.encLen.toNat ≤ a) →
      step s = .refused .hostBuffer) ∧
    (s.port.agenda = .host (.writeBuf sp a v) :: ts →
      s.status.busy = true ∨ sp = .enc ∨ sp = .work ∨ sp = .bayer ∨ sp = .pal ∨
        (imgWidth s ≠ 0 ∧ imgHeight s ≠ 0 ∧ 4 * imgWidth s * imgHeight s ≤ a) →
      step s = .refused .hostBuffer)

/-- The registers whose reset value the spec gives, and that the engine is idle (R28). -/
def Obligations.ResetValues : Prop :=
  State.reset.cmd = 0 ∧ statusWord State.reset.status = 0 ∧ State.reset.imgW = 0 ∧ State.reset.imgH = 0 ∧
  State.reset.encLen = 0 ∧ State.reset.status.busy = false ∧ State.reset.status.done = false

/-- A reset at any time, BUSY or not, takes the registers to their reset values in one transition, lists no buffer byte any more
(so that every byte is unspecified again, log entry 27), and leaves an idle engine, whose next turns change nothing until a host
move (R28, R160), the cursor and the parameter registers kept by the model's choice (log entries 31 and 32). -/
def Obligations.ResetAtAnyTime : Prop :=
  ∀ (s : State) (ts : List Turn), s.port.agenda = .host .reset :: ts →
    ∃ t, step s = .next t ∧ t.cmd = 0 ∧ statusWord t.status = 0 ∧ t.imgW = 0 ∧ t.imgH = 0 ∧ t.encLen = 0 ∧
      t.src = [] ∧ t.out = [] ∧ t.enc = [] ∧ t.work = [] ∧ t.port = ⟨ts, s.port.rdata⟩ ∧
      (ts = [] → step t = .next t)

/-! ### Invariants of every run -/

/-- The invariant holds right after reset. -/
def Obligations.InvariantAtReset : Prop := Inv State.reset

/-- Every step of the machine, of the engine or of the host, keeps the invariant: STATUS stays one of the five values a host can
read, BUSY and DONE are never both 1, the spaces stay canonical, ENC holds exactly ENC_LEN bytes within its capacity, and while a
command runs its latches agree with CMD, its cursor is in range and its append address is that of rule R35 (R12, R16, R19, R35). -/
def Obligations.InvariantKept : Prop := ∀ s t : State, Inv s → step s = .next t → Inv t

/-- From every state with the invariant no step faults: the model's faults are out of every run's reach (R145). -/
def Obligations.NoFaultUnderInvariant : Prop := ∀ (s : State) (f : Fault), Inv s → step s ≠ .fault f

/-- A command with BUSY = 1 always has its step: under the invariant the engine's transition completes, for ENCA.2 whenever OUT
holds only level bytes (R60). -/
def Obligations.StepAlwaysEnabled : Prop :=
  ∀ (i : Instr) (s : State), Inv s → s.status.busy = true → running s = .ok i → (i = .enca2 → levelsOnly s) →
    ∃ t, exec i s = .next t

/-- A command takes exactly the steps rule R60 gives it: none are taken at the start, each step takes one, and BUSY falls and DONE
rises at the last one and at no other. -/
def Obligations.StepCount : Prop :=
  (∀ (i : Instr) (s t : State), s.status.busy = false → exec i s = .next t →
    stepsTaken i t = 0 ∧ 0 < commandSteps i t ∧ t.status.busy = true) ∧
  (∀ (i : Instr) (s t : State), Inv s → s.status.busy = true → running s = .ok i → exec i s = .next t →
    stepsTaken i s < commandSteps i s ∧ commandSteps i t = commandSteps i s ∧
    (t.status.busy = true → running t = .ok i ∧ stepsTaken i t = stepsTaken i s + 1) ∧
    (t.status.busy = false ↔ stepsTaken i s + 1 = commandSteps i s) ∧
    (t.status.done = true ↔ stepsTaken i s + 1 = commandSteps i s))

/-- Every started command finishes: left to the engine, a running command reaches DONE after exactly its remaining steps (for
ENCA.2, when OUT holds only level bytes), and the invariant still holds (R60, R177). -/
def Obligations.CommandFinishes : Prop :=
  ∀ (i : Instr) (s : State), Inv s → s.status.busy = true → running s = .ok i → (i = .enca2 → levelsOnly s) →
    s.port.agenda = [] →
    ∃ t : State, Host.Core.run Sys2Proof.core (commandSteps i s - stepsTaken i s) s = .next t ∧
      t.status.busy = false ∧ t.status.done = true ∧ Inv t

/-- When an ENCODE command finishes, ENC_LEN is the length the spec gives its output (R15). -/
def Obligations.FinishedLength : Prop :=
  ∀ (i : Instr) (s t : State), Inv s → s.status.busy = true → running s = .ok i → isConvert i = false →
    exec i s = .next t → t.status.busy = false → t.encLen.toNat = finalLength i s
end

