-- ==== Sys2Proof/Laws/Cells.lean ====
section
/-! SUPPORT. What the sparse spaces do: a read after a write, and the canonical form kept by every write (20_memory.md R37). -/

namespace Sys2Proof.Laws

open Sys2Proof.Machine

variable {α : Type}

@[simp] theorem cellGet_put_self (m : List (Nat × α)) (a : Nat) (v : α) : cellGet (cellPut m a v) a = some v := by
  induction m with
  | nil => simp [cellPut, cellGet]
  | cons p m ih =>
    obtain ⟨k, w⟩ := p
    unfold cellPut
    split
    · simp [cellGet]
    · split
      · simp [cellGet]
      · rename_i h1 h2
        simp [cellGet, Ne.symm h2, ih]

theorem cellGet_put_ne (m : List (Nat × α)) {a b : Nat} (v : α) (h : b ≠ a) :
    cellGet (cellPut m a v) b = cellGet m b := by
  induction m with
  | nil => simp [cellPut, cellGet, Ne.symm h]
  | cons p m ih =>
    obtain ⟨k, w⟩ := p
    unfold cellPut
    split
    · simp [cellGet, Ne.symm h]
    · split
      · rename_i h1 h2
        subst h2
        simp [cellGet, Ne.symm h]
      · simp [cellGet, ih]

/-- A read after a write, in one lemma. -/
theorem cellGet_put (m : List (Nat × α)) (a b : Nat) (v : α) :
    cellGet (cellPut m a v) b = if b = a then some v else cellGet m b := by
  by_cases h : b = a
  · subst h; simp
  · simp [h, cellGet_put_ne m v h]

/-- The keys a write lists are the old ones and the written one. -/
theorem mem_cellPut {m : List (Nat × α)} {a : Nat} {v : α} {p : Nat × α} (h : p ∈ cellPut m a v) :
    p = (a, v) ∨ p ∈ m := by
  induction m with
  | nil => simp [cellPut] at h; exact .inl h
  | cons q m ih =>
    obtain ⟨k, w⟩ := q
    unfold cellPut at h
    split at h
    · simpa using h
    · split at h
      · rcases List.mem_cons.mp h with h | h
        · exact .inl h
        · exact .inr (List.mem_cons_of_mem _ h)
      · rcases List.mem_cons.mp h with h | h
        · exact .inr (by simp [h])
        · rcases ih h with h | h
          · exact .inl h
          · exact .inr (List.mem_cons_of_mem _ h)

/-- A write keeps the canonical form: strictly rising keys. -/
theorem cellPut_rising {m : List (Nat × α)} (a : Nat) (v : α) (h : m.Pairwise (fun p q => p.1 < q.1)) :
    (cellPut m a v).Pairwise (fun p q => p.1 < q.1) := by
  induction m with
  | nil => simp [cellPut]
  | cons q m ih =>
    obtain ⟨k, w⟩ := q
    rw [List.pairwise_cons] at h
    obtain ⟨hk, hm⟩ := h
    unfold cellPut
    split
    · rename_i hlt
      refine List.pairwise_cons.mpr ⟨?_, List.pairwise_cons.mpr ⟨hk, hm⟩⟩
      intro p hp
      rcases List.mem_cons.mp hp with hp | hp
      · subst hp; exact hlt
      · exact Nat.lt_trans hlt (hk p hp)
    · split
      · rename_i _ heq
        subst heq
        exact List.pairwise_cons.mpr ⟨hk, hm⟩
      · rename_i hnlt hne
        refine List.pairwise_cons.mpr ⟨?_, ih hm⟩
        intro p hp
        rcases mem_cellPut hp with hp | hp
        · subst hp; simp only; omega
        · exact hk p hp

theorem Memory_wf_put {m : Memory} (a : Nat) (v : Byte) (h : Memory.wf m) : Memory.wf (cellPut m a v) :=
  cellPut_rising a v h

theorem WorkSpace_wf_put {m : WorkSpace} (i : Nat) (v : Rat) (h : WorkSpace.wf m) : WorkSpace.wf (cellPut m i v) :=
  cellPut_rising i v h

/-- A space listed by a function of the index is canonical. -/
theorem rangeMap_rising (f : Nat → α) (n : Nat) :
    ((List.range n).map (fun i => (i, f i))).Pairwise (fun p q => p.1 < q.1) := by
  rw [List.pairwise_map]
  exact List.pairwise_lt_range

theorem cellGet_append (l m : List (Nat × α)) (a : Nat) :
    cellGet (l ++ m) a = (cellGet l a).or (cellGet m a) := by
  induction l with
  | nil => simp [cellGet]
  | cons p l ih =>
    obtain ⟨k, w⟩ := p
    by_cases h : k = a <;> simp [cellGet, h, ih]

/-- Reading a space listed by a function of the index. -/
theorem cellGet_rangeMap (f : Nat → α) (n a : Nat) :
    cellGet ((List.range n).map (fun i => (i, f i))) a = if a < n then some (f a) else none := by
  induction n with
  | zero => simp [cellGet]
  | succ n ih =>
    rw [List.range_succ, List.map_append, cellGet_append, ih]
    by_cases h : a < n
    · simp [h, Nat.lt_succ_of_lt h]
    · by_cases h2 : n = a
      · subst h2; simp [cellGet]
      · have h3 : ¬ a < n + 1 := by omega
        simp [h, h2, h3, cellGet]

/-- A write above every listed key is at the end. -/
theorem cellPut_above (m : List (Nat × α)) (a : Nat) (v : α) (h : ∀ p ∈ m, p.1 < a) : cellPut m a v = m ++ [(a, v)] := by
  induction m with
  | nil => rfl
  | cons q m ih =>
    obtain ⟨k, w⟩ := q
    have hk : k < a := h (k, w) (List.mem_cons_self ..)
    have h1 : ¬ a < k := by omega
    have h2 : ¬ a = k := by omega
    simp only [cellPut, h1, h2, if_false, List.cons_append]
    rw [ih (fun p hp => h p (List.mem_cons_of_mem _ hp))]

end Sys2Proof.Laws
end

