-- ==== Sys2Proof/Laws/State.lean ====
section
/-! SUPPORT. One lemma per field and per update of State: what each named operation writes and what it leaves alone. -/

namespace Sys2Proof.Laws

open Sys2Proof.Machine

/-! ### writeSrc -/

@[simp] theorem writeSrc_cmd (a : Nat) (v : Byte) (s : State) : (writeSrc a v s).cmd = s.cmd := rfl
@[simp] theorem writeSrc_status (a : Nat) (v : Byte) (s : State) : (writeSrc a v s).status = s.status := rfl
@[simp] theorem writeSrc_imgW (a : Nat) (v : Byte) (s : State) : (writeSrc a v s).imgW = s.imgW := rfl
@[simp] theorem writeSrc_imgH (a : Nat) (v : Byte) (s : State) : (writeSrc a v s).imgH = s.imgH := rfl
@[simp] theorem writeSrc_encLen (a : Nat) (v : Byte) (s : State) : (writeSrc a v s).encLen = s.encLen := rfl
@[simp] theorem writeSrc_par (a : Nat) (v : Byte) (s : State) : (writeSrc a v s).par = s.par := rfl
@[simp] theorem writeSrc_cur (a : Nat) (v : Byte) (s : State) : (writeSrc a v s).cur = s.cur := rfl
@[simp] theorem writeSrc_src (a : Nat) (v : Byte) (s : State) : (writeSrc a v s).src = cellPut s.src a v := rfl
@[simp] theorem writeSrc_out (a : Nat) (v : Byte) (s : State) : (writeSrc a v s).out = s.out := rfl
@[simp] theorem writeSrc_enc (a : Nat) (v : Byte) (s : State) : (writeSrc a v s).enc = s.enc := rfl
@[simp] theorem writeSrc_work (a : Nat) (v : Byte) (s : State) : (writeSrc a v s).work = s.work := rfl
@[simp] theorem writeSrc_port (a : Nat) (v : Byte) (s : State) : (writeSrc a v s).port = s.port := rfl
@[simp] theorem writeSrc_epoch (a : Nat) (v : Byte) (s : State) : (writeSrc a v s).epoch = s.epoch := rfl
@[simp] theorem writeSrc_encGen (a : Nat) (v : Byte) (s : State) : (writeSrc a v s).encGen = s.encGen := rfl
@[simp] theorem imgWidth_writeSrc (a : Nat) (v : Byte) (s : State) : imgWidth (writeSrc a v s) = imgWidth s :=
  by simp [imgWidth]
@[simp] theorem imgHeight_writeSrc (a : Nat) (v : Byte) (s : State) : imgHeight (writeSrc a v s) = imgHeight s :=
  by simp [imgHeight]
@[simp] theorem outByte_writeSrc (a : Nat) (v : Byte) (s : State) (a' : Nat) : outByte (writeSrc a v s) a' = outByte s a' :=
  by simp [outByte]
@[simp] theorem encByte_writeSrc (a : Nat) (v : Byte) (s : State) (a' : Nat) : encByte (writeSrc a v s) a' = encByte s a' :=
  by simp [encByte]
@[simp] theorem workAt_writeSrc (a : Nat) (v : Byte) (s : State) (a' : Nat) : workAt (writeSrc a v s) a' = workAt s a' :=
  by simp [workAt]
@[simp] theorem outChan_writeSrc (a : Nat) (v : Byte) (s : State) (x' y' c' : Nat) : outChan (writeSrc a v s) x' y' c' = outChan s x' y' c' :=
  by simp [outChan]
@[simp] theorem workChan_writeSrc (a : Nat) (v : Byte) (s : State) (c' x' y' : Nat) : workChan (writeSrc a v s) c' x' y' = workChan s c' x' y' :=
  by simp [workChan]

/-! ### writeOut -/

@[simp] theorem writeOut_cmd (a : Nat) (v : Byte) (s : State) : (writeOut a v s).cmd = s.cmd := rfl
@[simp] theorem writeOut_status (a : Nat) (v : Byte) (s : State) : (writeOut a v s).status = s.status := rfl
@[simp] theorem writeOut_imgW (a : Nat) (v : Byte) (s : State) : (writeOut a v s).imgW = s.imgW := rfl
@[simp] theorem writeOut_imgH (a : Nat) (v : Byte) (s : State) : (writeOut a v s).imgH = s.imgH := rfl
@[simp] theorem writeOut_encLen (a : Nat) (v : Byte) (s : State) : (writeOut a v s).encLen = s.encLen := rfl
@[simp] theorem writeOut_par (a : Nat) (v : Byte) (s : State) : (writeOut a v s).par = s.par := rfl
@[simp] theorem writeOut_cur (a : Nat) (v : Byte) (s : State) : (writeOut a v s).cur = s.cur := rfl
@[simp] theorem writeOut_src (a : Nat) (v : Byte) (s : State) : (writeOut a v s).src = s.src := rfl
@[simp] theorem writeOut_out (a : Nat) (v : Byte) (s : State) : (writeOut a v s).out = cellPut s.out a v := rfl
@[simp] theorem writeOut_enc (a : Nat) (v : Byte) (s : State) : (writeOut a v s).enc = s.enc := rfl
@[simp] theorem writeOut_work (a : Nat) (v : Byte) (s : State) : (writeOut a v s).work = s.work := rfl
@[simp] theorem writeOut_port (a : Nat) (v : Byte) (s : State) : (writeOut a v s).port = s.port := rfl
@[simp] theorem writeOut_epoch (a : Nat) (v : Byte) (s : State) : (writeOut a v s).epoch = s.epoch := rfl
@[simp] theorem writeOut_encGen (a : Nat) (v : Byte) (s : State) : (writeOut a v s).encGen = s.encGen := rfl
@[simp] theorem imgWidth_writeOut (a : Nat) (v : Byte) (s : State) : imgWidth (writeOut a v s) = imgWidth s :=
  by simp [imgWidth]
@[simp] theorem imgHeight_writeOut (a : Nat) (v : Byte) (s : State) : imgHeight (writeOut a v s) = imgHeight s :=
  by simp [imgHeight]
@[simp] theorem srcByte_writeOut (a : Nat) (v : Byte) (s : State) (a' : Nat) : srcByte (writeOut a v s) a' = srcByte s a' :=
  by simp [srcByte]
@[simp] theorem encByte_writeOut (a : Nat) (v : Byte) (s : State) (a' : Nat) : encByte (writeOut a v s) a' = encByte s a' :=
  by simp [encByte]
@[simp] theorem workAt_writeOut (a : Nat) (v : Byte) (s : State) (a' : Nat) : workAt (writeOut a v s) a' = workAt s a' :=
  by simp [workAt]
@[simp] theorem srcChan_writeOut (a : Nat) (v : Byte) (s : State) (x' y' c' : Nat) : srcChan (writeOut a v s) x' y' c' = srcChan s x' y' c' :=
  by simp [srcChan]
@[simp] theorem workChan_writeOut (a : Nat) (v : Byte) (s : State) (c' x' y' : Nat) : workChan (writeOut a v s) c' x' y' = workChan s c' x' y' :=
  by simp [workChan]

/-! ### writeWork -/

@[simp] theorem writeWork_cmd (i : Nat) (v : Rat) (s : State) : (writeWork i v s).cmd = s.cmd := rfl
@[simp] theorem writeWork_status (i : Nat) (v : Rat) (s : State) : (writeWork i v s).status = s.status := rfl
@[simp] theorem writeWork_imgW (i : Nat) (v : Rat) (s : State) : (writeWork i v s).imgW = s.imgW := rfl
@[simp] theorem writeWork_imgH (i : Nat) (v : Rat) (s : State) : (writeWork i v s).imgH = s.imgH := rfl
@[simp] theorem writeWork_encLen (i : Nat) (v : Rat) (s : State) : (writeWork i v s).encLen = s.encLen := rfl
@[simp] theorem writeWork_par (i : Nat) (v : Rat) (s : State) : (writeWork i v s).par = s.par := rfl
@[simp] theorem writeWork_cur (i : Nat) (v : Rat) (s : State) : (writeWork i v s).cur = s.cur := rfl
@[simp] theorem writeWork_src (i : Nat) (v : Rat) (s : State) : (writeWork i v s).src = s.src := rfl
@[simp] theorem writeWork_out (i : Nat) (v : Rat) (s : State) : (writeWork i v s).out = s.out := rfl
@[simp] theorem writeWork_enc (i : Nat) (v : Rat) (s : State) : (writeWork i v s).enc = s.enc := rfl
@[simp] theorem writeWork_work (i : Nat) (v : Rat) (s : State) : (writeWork i v s).work = cellPut s.work i v := rfl
@[simp] theorem writeWork_port (i : Nat) (v : Rat) (s : State) : (writeWork i v s).port = s.port := rfl
@[simp] theorem writeWork_epoch (i : Nat) (v : Rat) (s : State) : (writeWork i v s).epoch = s.epoch := rfl
@[simp] theorem writeWork_encGen (i : Nat) (v : Rat) (s : State) : (writeWork i v s).encGen = s.encGen := rfl
@[simp] theorem imgWidth_writeWork (i : Nat) (v : Rat) (s : State) : imgWidth (writeWork i v s) = imgWidth s :=
  by simp [imgWidth]
@[simp] theorem imgHeight_writeWork (i : Nat) (v : Rat) (s : State) : imgHeight (writeWork i v s) = imgHeight s :=
  by simp [imgHeight]
@[simp] theorem srcByte_writeWork (i : Nat) (v : Rat) (s : State) (a' : Nat) : srcByte (writeWork i v s) a' = srcByte s a' :=
  by simp [srcByte]
@[simp] theorem outByte_writeWork (i : Nat) (v : Rat) (s : State) (a' : Nat) : outByte (writeWork i v s) a' = outByte s a' :=
  by simp [outByte]
@[simp] theorem encByte_writeWork (i : Nat) (v : Rat) (s : State) (a' : Nat) : encByte (writeWork i v s) a' = encByte s a' :=
  by simp [encByte]
@[simp] theorem srcChan_writeWork (i : Nat) (v : Rat) (s : State) (x' y' c' : Nat) : srcChan (writeWork i v s) x' y' c' = srcChan s x' y' c' :=
  by simp [srcChan]
@[simp] theorem outChan_writeWork (i : Nat) (v : Rat) (s : State) (x' y' c' : Nat) : outChan (writeWork i v s) x' y' c' = outChan s x' y' c' :=
  by simp [outChan]

/-! ### encAppend -/

@[simp] theorem encAppend_cmd (b : Byte) (s : State) : (encAppend b s).cmd = s.cmd := rfl
@[simp] theorem encAppend_status (b : Byte) (s : State) : (encAppend b s).status = s.status := rfl
@[simp] theorem encAppend_imgW (b : Byte) (s : State) : (encAppend b s).imgW = s.imgW := rfl
@[simp] theorem encAppend_imgH (b : Byte) (s : State) : (encAppend b s).imgH = s.imgH := rfl
@[simp] theorem encAppend_encLen (b : Byte) (s : State) : (encAppend b s).encLen = s.encLen + 1 := rfl
@[simp] theorem encAppend_par (b : Byte) (s : State) : (encAppend b s).par = s.par := rfl
@[simp] theorem encAppend_cur (b : Byte) (s : State) : (encAppend b s).cur = s.cur := rfl
@[simp] theorem encAppend_src (b : Byte) (s : State) : (encAppend b s).src = s.src := rfl
@[simp] theorem encAppend_out (b : Byte) (s : State) : (encAppend b s).out = s.out := rfl
@[simp] theorem encAppend_enc (b : Byte) (s : State) : (encAppend b s).enc = cellPut s.enc s.encLen.toNat b := rfl
@[simp] theorem encAppend_work (b : Byte) (s : State) : (encAppend b s).work = s.work := rfl
@[simp] theorem encAppend_port (b : Byte) (s : State) : (encAppend b s).port = s.port := rfl
@[simp] theorem encAppend_epoch (b : Byte) (s : State) : (encAppend b s).epoch = s.epoch := rfl
@[simp] theorem encAppend_encGen (b : Byte) (s : State) : (encAppend b s).encGen = s.encGen := rfl
@[simp] theorem imgWidth_encAppend (b : Byte) (s : State) : imgWidth (encAppend b s) = imgWidth s :=
  by simp [imgWidth]
@[simp] theorem imgHeight_encAppend (b : Byte) (s : State) : imgHeight (encAppend b s) = imgHeight s :=
  by simp [imgHeight]
@[simp] theorem srcByte_encAppend (b : Byte) (s : State) (a' : Nat) : srcByte (encAppend b s) a' = srcByte s a' :=
  by simp [srcByte]
@[simp] theorem outByte_encAppend (b : Byte) (s : State) (a' : Nat) : outByte (encAppend b s) a' = outByte s a' :=
  by simp [outByte]
@[simp] theorem workAt_encAppend (b : Byte) (s : State) (a' : Nat) : workAt (encAppend b s) a' = workAt s a' :=
  by simp [workAt]
@[simp] theorem srcChan_encAppend (b : Byte) (s : State) (x' y' c' : Nat) : srcChan (encAppend b s) x' y' c' = srcChan s x' y' c' :=
  by simp [srcChan]
@[simp] theorem outChan_encAppend (b : Byte) (s : State) (x' y' c' : Nat) : outChan (encAppend b s) x' y' c' = outChan s x' y' c' :=
  by simp [outChan]
@[simp] theorem workChan_encAppend (b : Byte) (s : State) (c' x' y' : Nat) : workChan (encAppend b s) c' x' y' = workChan s c' x' y' :=
  by simp [workChan]

/-! ### latchConvert -/

@[simp] theorem latchConvert_cmd (alg : BitVec 3) (bd : BitVec 1) (t : BitVec 8) (da : BitVec 9) (s : State) : (latchConvert alg bd t da s).cmd = s.cmd :=
  rfl
@[simp] theorem latchConvert_status (alg : BitVec 3) (bd : BitVec 1) (t : BitVec 8) (da : BitVec 9) (s : State) : (latchConvert alg bd t da s).status = s.status :=
  rfl
@[simp] theorem latchConvert_imgW (alg : BitVec 3) (bd : BitVec 1) (t : BitVec 8) (da : BitVec 9) (s : State) : (latchConvert alg bd t da s).imgW = s.imgW :=
  rfl
@[simp] theorem latchConvert_imgH (alg : BitVec 3) (bd : BitVec 1) (t : BitVec 8) (da : BitVec 9) (s : State) : (latchConvert alg bd t da s).imgH = s.imgH :=
  rfl
@[simp] theorem latchConvert_encLen (alg : BitVec 3) (bd : BitVec 1) (t : BitVec 8) (da : BitVec 9) (s : State) : (latchConvert alg bd t da s).encLen = s.encLen :=
  rfl
@[simp] theorem latchConvert_par (alg : BitVec 3) (bd : BitVec 1) (t : BitVec 8) (da : BitVec 9) (s : State) : (latchConvert alg bd t da s).par = ⟨1, alg, bd, t, da, s.par.tp⟩ :=
  rfl
@[simp] theorem latchConvert_cur (alg : BitVec 3) (bd : BitVec 1) (t : BitVec 8) (da : BitVec 9) (s : State) : (latchConvert alg bd t da s).cur = s.cur :=
  rfl
@[simp] theorem latchConvert_src (alg : BitVec 3) (bd : BitVec 1) (t : BitVec 8) (da : BitVec 9) (s : State) : (latchConvert alg bd t da s).src = s.src :=
  rfl
@[simp] theorem latchConvert_out (alg : BitVec 3) (bd : BitVec 1) (t : BitVec 8) (da : BitVec 9) (s : State) : (latchConvert alg bd t da s).out = s.out :=
  rfl
@[simp] theorem latchConvert_enc (alg : BitVec 3) (bd : BitVec 1) (t : BitVec 8) (da : BitVec 9) (s : State) : (latchConvert alg bd t da s).enc = s.enc :=
  rfl
@[simp] theorem latchConvert_work (alg : BitVec 3) (bd : BitVec 1) (t : BitVec 8) (da : BitVec 9) (s : State) : (latchConvert alg bd t da s).work = s.work :=
  rfl
@[simp] theorem latchConvert_port (alg : BitVec 3) (bd : BitVec 1) (t : BitVec 8) (da : BitVec 9) (s : State) : (latchConvert alg bd t da s).port = s.port :=
  rfl
@[simp] theorem latchConvert_epoch (alg : BitVec 3) (bd : BitVec 1) (t : BitVec 8) (da : BitVec 9) (s : State) : (latchConvert alg bd t da s).epoch = s.epoch :=
  rfl
@[simp] theorem latchConvert_encGen (alg : BitVec 3) (bd : BitVec 1) (t : BitVec 8) (da : BitVec 9) (s : State) : (latchConvert alg bd t da s).encGen = s.encGen :=
  rfl
@[simp] theorem imgWidth_latchConvert (alg : BitVec 3) (bd : BitVec 1) (t : BitVec 8) (da : BitVec 9) (s : State) : imgWidth (latchConvert alg bd t da s) = imgWidth s :=
  by simp [imgWidth]
@[simp] theorem imgHeight_latchConvert (alg : BitVec 3) (bd : BitVec 1) (t : BitVec 8) (da : BitVec 9) (s : State) : imgHeight (latchConvert alg bd t da s) = imgHeight s :=
  by simp [imgHeight]
@[simp] theorem srcByte_latchConvert (alg : BitVec 3) (bd : BitVec 1) (t : BitVec 8) (da : BitVec 9) (s : State) (a' : Nat) : srcByte (latchConvert alg bd t da s) a' = srcByte s a' :=
  by simp [srcByte]
@[simp] theorem outByte_latchConvert (alg : BitVec 3) (bd : BitVec 1) (t : BitVec 8) (da : BitVec 9) (s : State) (a' : Nat) : outByte (latchConvert alg bd t da s) a' = outByte s a' :=
  by simp [outByte]
@[simp] theorem encByte_latchConvert (alg : BitVec 3) (bd : BitVec 1) (t : BitVec 8) (da : BitVec 9) (s : State) (a' : Nat) : encByte (latchConvert alg bd t da s) a' = encByte s a' :=
  by simp [encByte]
@[simp] theorem workAt_latchConvert (alg : BitVec 3) (bd : BitVec 1) (t : BitVec 8) (da : BitVec 9) (s : State) (a' : Nat) : workAt (latchConvert alg bd t da s) a' = workAt s a' :=
  by simp [workAt]
@[simp] theorem srcChan_latchConvert (alg : BitVec 3) (bd : BitVec 1) (t : BitVec 8) (da : BitVec 9) (s : State) (x' y' c' : Nat) : srcChan (latchConvert alg bd t da s) x' y' c' = srcChan s x' y' c' :=
  by simp [srcChan]
@[simp] theorem outChan_latchConvert (alg : BitVec 3) (bd : BitVec 1) (t : BitVec 8) (da : BitVec 9) (s : State) (x' y' c' : Nat) : outChan (latchConvert alg bd t da s) x' y' c' = outChan s x' y' c' :=
  by simp [outChan]
@[simp] theorem workChan_latchConvert (alg : BitVec 3) (bd : BitVec 1) (t : BitVec 8) (da : BitVec 9) (s : State) (c' x' y' : Nat) : workChan (latchConvert alg bd t da s) c' x' y' = workChan s c' x' y' :=
  by simp [workChan]

/-! ### latchEncode -/

@[simp] theorem latchEncode_cmd (op : BitVec 4) (bd tp : BitVec 1) (s : State) : (latchEncode op bd tp s).cmd = s.cmd :=
  rfl
@[simp] theorem latchEncode_status (op : BitVec 4) (bd tp : BitVec 1) (s : State) : (latchEncode op bd tp s).status = s.status :=
  rfl
@[simp] theorem latchEncode_imgW (op : BitVec 4) (bd tp : BitVec 1) (s : State) : (latchEncode op bd tp s).imgW = s.imgW :=
  rfl
@[simp] theorem latchEncode_imgH (op : BitVec 4) (bd tp : BitVec 1) (s : State) : (latchEncode op bd tp s).imgH = s.imgH :=
  rfl
@[simp] theorem latchEncode_encLen (op : BitVec 4) (bd tp : BitVec 1) (s : State) : (latchEncode op bd tp s).encLen = s.encLen :=
  rfl
@[simp] theorem latchEncode_par (op : BitVec 4) (bd tp : BitVec 1) (s : State) : (latchEncode op bd tp s).par = ⟨op, s.par.alg, bd, s.par.t, s.par.da, tp⟩ :=
  rfl
@[simp] theorem latchEncode_cur (op : BitVec 4) (bd tp : BitVec 1) (s : State) : (latchEncode op bd tp s).cur = s.cur :=
  rfl
@[simp] theorem latchEncode_src (op : BitVec 4) (bd tp : BitVec 1) (s : State) : (latchEncode op bd tp s).src = s.src :=
  rfl
@[simp] theorem latchEncode_out (op : BitVec 4) (bd tp : BitVec 1) (s : State) : (latchEncode op bd tp s).out = s.out :=
  rfl
@[simp] theorem latchEncode_enc (op : BitVec 4) (bd tp : BitVec 1) (s : State) : (latchEncode op bd tp s).enc = s.enc :=
  rfl
@[simp] theorem latchEncode_work (op : BitVec 4) (bd tp : BitVec 1) (s : State) : (latchEncode op bd tp s).work = s.work :=
  rfl
@[simp] theorem latchEncode_port (op : BitVec 4) (bd tp : BitVec 1) (s : State) : (latchEncode op bd tp s).port = s.port :=
  rfl
@[simp] theorem latchEncode_epoch (op : BitVec 4) (bd tp : BitVec 1) (s : State) : (latchEncode op bd tp s).epoch = s.epoch :=
  rfl
@[simp] theorem latchEncode_encGen (op : BitVec 4) (bd tp : BitVec 1) (s : State) : (latchEncode op bd tp s).encGen = s.encGen :=
  rfl
@[simp] theorem imgWidth_latchEncode (op : BitVec 4) (bd tp : BitVec 1) (s : State) : imgWidth (latchEncode op bd tp s) = imgWidth s :=
  by simp [imgWidth]
@[simp] theorem imgHeight_latchEncode (op : BitVec 4) (bd tp : BitVec 1) (s : State) : imgHeight (latchEncode op bd tp s) = imgHeight s :=
  by simp [imgHeight]
@[simp] theorem srcByte_latchEncode (op : BitVec 4) (bd tp : BitVec 1) (s : State) (a' : Nat) : srcByte (latchEncode op bd tp s) a' = srcByte s a' :=
  by simp [srcByte]
@[simp] theorem outByte_latchEncode (op : BitVec 4) (bd tp : BitVec 1) (s : State) (a' : Nat) : outByte (latchEncode op bd tp s) a' = outByte s a' :=
  by simp [outByte]
@[simp] theorem encByte_latchEncode (op : BitVec 4) (bd tp : BitVec 1) (s : State) (a' : Nat) : encByte (latchEncode op bd tp s) a' = encByte s a' :=
  by simp [encByte]
@[simp] theorem workAt_latchEncode (op : BitVec 4) (bd tp : BitVec 1) (s : State) (a' : Nat) : workAt (latchEncode op bd tp s) a' = workAt s a' :=
  by simp [workAt]
@[simp] theorem srcChan_latchEncode (op : BitVec 4) (bd tp : BitVec 1) (s : State) (x' y' c' : Nat) : srcChan (latchEncode op bd tp s) x' y' c' = srcChan s x' y' c' :=
  by simp [srcChan]
@[simp] theorem outChan_latchEncode (op : BitVec 4) (bd tp : BitVec 1) (s : State) (x' y' c' : Nat) : outChan (latchEncode op bd tp s) x' y' c' = outChan s x' y' c' :=
  by simp [outChan]
@[simp] theorem workChan_latchEncode (op : BitVec 4) (bd tp : BitVec 1) (s : State) (c' x' y' : Nat) : workChan (latchEncode op bd tp s) c' x' y' = workChan s c' x' y' :=
  by simp [workChan]

/-! ### beginRaster -/

@[simp] theorem beginRaster_cmd (s : State) : (beginRaster s).cmd = s.cmd := rfl
@[simp] theorem beginRaster_status (s : State) : (beginRaster s).status = statusStart := rfl
@[simp] theorem beginRaster_imgW (s : State) : (beginRaster s).imgW = s.imgW := rfl
@[simp] theorem beginRaster_imgH (s : State) : (beginRaster s).imgH = s.imgH := rfl
@[simp] theorem beginRaster_encLen (s : State) : (beginRaster s).encLen = s.encLen := rfl
@[simp] theorem beginRaster_par (s : State) : (beginRaster s).par = s.par := rfl
@[simp] theorem beginRaster_cur (s : State) : (beginRaster s).cur = ⟨0, 0, s.cur.p, s.cur.j, s.cur.g, s.cur.hdr⟩ :=
  rfl
@[simp] theorem beginRaster_src (s : State) : (beginRaster s).src = s.src := rfl
@[simp] theorem beginRaster_out (s : State) : (beginRaster s).out = s.out := rfl
@[simp] theorem beginRaster_enc (s : State) : (beginRaster s).enc = s.enc := rfl
@[simp] theorem beginRaster_work (s : State) : (beginRaster s).work = s.work := rfl
@[simp] theorem beginRaster_port (s : State) : (beginRaster s).port = s.port := rfl
@[simp] theorem beginRaster_epoch (s : State) : (beginRaster s).epoch = s.epoch := rfl
@[simp] theorem beginRaster_encGen (s : State) : (beginRaster s).encGen = s.encGen := rfl
@[simp] theorem imgWidth_beginRaster (s : State) : imgWidth (beginRaster s) = imgWidth s := by simp [imgWidth]
@[simp] theorem imgHeight_beginRaster (s : State) : imgHeight (beginRaster s) = imgHeight s := by simp [imgHeight]
@[simp] theorem srcByte_beginRaster (s : State) (a' : Nat) : srcByte (beginRaster s) a' = srcByte s a' :=
  by simp [srcByte]
@[simp] theorem outByte_beginRaster (s : State) (a' : Nat) : outByte (beginRaster s) a' = outByte s a' :=
  by simp [outByte]
@[simp] theorem encByte_beginRaster (s : State) (a' : Nat) : encByte (beginRaster s) a' = encByte s a' :=
  by simp [encByte]
@[simp] theorem workAt_beginRaster (s : State) (a' : Nat) : workAt (beginRaster s) a' = workAt s a' :=
  by simp [workAt]
@[simp] theorem srcChan_beginRaster (s : State) (x' y' c' : Nat) : srcChan (beginRaster s) x' y' c' = srcChan s x' y' c' :=
  by simp [srcChan]
@[simp] theorem outChan_beginRaster (s : State) (x' y' c' : Nat) : outChan (beginRaster s) x' y' c' = outChan s x' y' c' :=
  by simp [outChan]
@[simp] theorem workChan_beginRaster (s : State) (c' x' y' : Nat) : workChan (beginRaster s) c' x' y' = workChan s c' x' y' :=
  by simp [workChan]

/-! ### beginEncode -/

@[simp] theorem beginEncode_cmd (op : BitVec 4) (s : State) : (beginEncode op s).cmd = s.cmd := rfl
@[simp] theorem beginEncode_status (op : BitVec 4) (s : State) : (beginEncode op s).status = statusStart := rfl
@[simp] theorem beginEncode_imgW (op : BitVec 4) (s : State) : (beginEncode op s).imgW = s.imgW := rfl
@[simp] theorem beginEncode_imgH (op : BitVec 4) (s : State) : (beginEncode op s).imgH = s.imgH := rfl
@[simp] theorem beginEncode_encLen (op : BitVec 4) (s : State) : (beginEncode op s).encLen = 0 := rfl
@[simp] theorem beginEncode_par (op : BitVec 4) (s : State) : (beginEncode op s).par = s.par := rfl
@[simp] theorem beginEncode_cur (op : BitVec 4) (s : State) : (beginEncode op s).cur = startCursor op s.cur := rfl
@[simp] theorem beginEncode_src (op : BitVec 4) (s : State) : (beginEncode op s).src = s.src := rfl
@[simp] theorem beginEncode_out (op : BitVec 4) (s : State) : (beginEncode op s).out = s.out := rfl
@[simp] theorem beginEncode_enc (op : BitVec 4) (s : State) : (beginEncode op s).enc = [] := rfl
@[simp] theorem beginEncode_work (op : BitVec 4) (s : State) : (beginEncode op s).work = s.work := rfl
@[simp] theorem beginEncode_port (op : BitVec 4) (s : State) : (beginEncode op s).port = s.port := rfl
@[simp] theorem beginEncode_epoch (op : BitVec 4) (s : State) : (beginEncode op s).epoch = s.epoch := rfl
@[simp] theorem beginEncode_encGen (op : BitVec 4) (s : State) : (beginEncode op s).encGen = s.encGen + 1 := rfl
@[simp] theorem imgWidth_beginEncode (op : BitVec 4) (s : State) : imgWidth (beginEncode op s) = imgWidth s :=
  by simp [imgWidth]
@[simp] theorem imgHeight_beginEncode (op : BitVec 4) (s : State) : imgHeight (beginEncode op s) = imgHeight s :=
  by simp [imgHeight]
@[simp] theorem srcByte_beginEncode (op : BitVec 4) (s : State) (a' : Nat) : srcByte (beginEncode op s) a' = srcByte s a' :=
  by simp [srcByte]
@[simp] theorem outByte_beginEncode (op : BitVec 4) (s : State) (a' : Nat) : outByte (beginEncode op s) a' = outByte s a' :=
  by simp [outByte]
@[simp] theorem workAt_beginEncode (op : BitVec 4) (s : State) (a' : Nat) : workAt (beginEncode op s) a' = workAt s a' :=
  by simp [workAt]
@[simp] theorem srcChan_beginEncode (op : BitVec 4) (s : State) (x' y' c' : Nat) : srcChan (beginEncode op s) x' y' c' = srcChan s x' y' c' :=
  by simp [srcChan]
@[simp] theorem outChan_beginEncode (op : BitVec 4) (s : State) (x' y' c' : Nat) : outChan (beginEncode op s) x' y' c' = outChan s x' y' c' :=
  by simp [outChan]
@[simp] theorem workChan_beginEncode (op : BitVec 4) (s : State) (c' x' y' : Nat) : workChan (beginEncode op s) c' x' y' = workChan s c' x' y' :=
  by simp [workChan]

/-! ### storeCmd -/

@[simp] theorem storeCmd_cmd (w : Word) (s : State) : (storeCmd w s).cmd = w := rfl
@[simp] theorem storeCmd_status (w : Word) (s : State) : (storeCmd w s).status = s.status := rfl
@[simp] theorem storeCmd_imgW (w : Word) (s : State) : (storeCmd w s).imgW = s.imgW := rfl
@[simp] theorem storeCmd_imgH (w : Word) (s : State) : (storeCmd w s).imgH = s.imgH := rfl
@[simp] theorem storeCmd_encLen (w : Word) (s : State) : (storeCmd w s).encLen = s.encLen := rfl
@[simp] theorem storeCmd_par (w : Word) (s : State) : (storeCmd w s).par = s.par := rfl
@[simp] theorem storeCmd_cur (w : Word) (s : State) : (storeCmd w s).cur = s.cur := rfl
@[simp] theorem storeCmd_src (w : Word) (s : State) : (storeCmd w s).src = s.src := rfl
@[simp] theorem storeCmd_out (w : Word) (s : State) : (storeCmd w s).out = s.out := rfl
@[simp] theorem storeCmd_enc (w : Word) (s : State) : (storeCmd w s).enc = s.enc := rfl
@[simp] theorem storeCmd_work (w : Word) (s : State) : (storeCmd w s).work = s.work := rfl
@[simp] theorem storeCmd_port (w : Word) (s : State) : (storeCmd w s).port = s.port := rfl
@[simp] theorem storeCmd_epoch (w : Word) (s : State) : (storeCmd w s).epoch = s.epoch := rfl
@[simp] theorem storeCmd_encGen (w : Word) (s : State) : (storeCmd w s).encGen = s.encGen := rfl
@[simp] theorem imgWidth_storeCmd (w : Word) (s : State) : imgWidth (storeCmd w s) = imgWidth s := by simp [imgWidth]
@[simp] theorem imgHeight_storeCmd (w : Word) (s : State) : imgHeight (storeCmd w s) = imgHeight s :=
  by simp [imgHeight]
@[simp] theorem srcByte_storeCmd (w : Word) (s : State) (a' : Nat) : srcByte (storeCmd w s) a' = srcByte s a' :=
  by simp [srcByte]
@[simp] theorem outByte_storeCmd (w : Word) (s : State) (a' : Nat) : outByte (storeCmd w s) a' = outByte s a' :=
  by simp [outByte]
@[simp] theorem encByte_storeCmd (w : Word) (s : State) (a' : Nat) : encByte (storeCmd w s) a' = encByte s a' :=
  by simp [encByte]
@[simp] theorem workAt_storeCmd (w : Word) (s : State) (a' : Nat) : workAt (storeCmd w s) a' = workAt s a' :=
  by simp [workAt]
@[simp] theorem srcChan_storeCmd (w : Word) (s : State) (x' y' c' : Nat) : srcChan (storeCmd w s) x' y' c' = srcChan s x' y' c' :=
  by simp [srcChan]
@[simp] theorem outChan_storeCmd (w : Word) (s : State) (x' y' c' : Nat) : outChan (storeCmd w s) x' y' c' = outChan s x' y' c' :=
  by simp [outChan]
@[simp] theorem workChan_storeCmd (w : Word) (s : State) (c' x' y' : Nat) : workChan (storeCmd w s) c' x' y' = workChan s c' x' y' :=
  by simp [workChan]

/-! ### acceptReserved -/

@[simp] theorem acceptReserved_cmd (w : Word) (s : State) : (acceptReserved w s).cmd = w := rfl
@[simp] theorem acceptReserved_status (w : Word) (s : State) : (acceptReserved w s).status = statusReserved := rfl
@[simp] theorem acceptReserved_imgW (w : Word) (s : State) : (acceptReserved w s).imgW = s.imgW := rfl
@[simp] theorem acceptReserved_imgH (w : Word) (s : State) : (acceptReserved w s).imgH = s.imgH := rfl
@[simp] theorem acceptReserved_encLen (w : Word) (s : State) : (acceptReserved w s).encLen = s.encLen := rfl
@[simp] theorem acceptReserved_par (w : Word) (s : State) : (acceptReserved w s).par = s.par := rfl
@[simp] theorem acceptReserved_cur (w : Word) (s : State) : (acceptReserved w s).cur = s.cur := rfl
@[simp] theorem acceptReserved_src (w : Word) (s : State) : (acceptReserved w s).src = s.src := rfl
@[simp] theorem acceptReserved_out (w : Word) (s : State) : (acceptReserved w s).out = s.out := rfl
@[simp] theorem acceptReserved_enc (w : Word) (s : State) : (acceptReserved w s).enc = s.enc := rfl
@[simp] theorem acceptReserved_work (w : Word) (s : State) : (acceptReserved w s).work = s.work := rfl
@[simp] theorem acceptReserved_port (w : Word) (s : State) : (acceptReserved w s).port = s.port := rfl
@[simp] theorem acceptReserved_epoch (w : Word) (s : State) : (acceptReserved w s).epoch = s.epoch := rfl
@[simp] theorem acceptReserved_encGen (w : Word) (s : State) : (acceptReserved w s).encGen = s.encGen := rfl
@[simp] theorem imgWidth_acceptReserved (w : Word) (s : State) : imgWidth (acceptReserved w s) = imgWidth s :=
  by simp [imgWidth]
@[simp] theorem imgHeight_acceptReserved (w : Word) (s : State) : imgHeight (acceptReserved w s) = imgHeight s :=
  by simp [imgHeight]
@[simp] theorem srcByte_acceptReserved (w : Word) (s : State) (a' : Nat) : srcByte (acceptReserved w s) a' = srcByte s a' :=
  by simp [srcByte]
@[simp] theorem outByte_acceptReserved (w : Word) (s : State) (a' : Nat) : outByte (acceptReserved w s) a' = outByte s a' :=
  by simp [outByte]
@[simp] theorem encByte_acceptReserved (w : Word) (s : State) (a' : Nat) : encByte (acceptReserved w s) a' = encByte s a' :=
  by simp [encByte]
@[simp] theorem workAt_acceptReserved (w : Word) (s : State) (a' : Nat) : workAt (acceptReserved w s) a' = workAt s a' :=
  by simp [workAt]
@[simp] theorem srcChan_acceptReserved (w : Word) (s : State) (x' y' c' : Nat) : srcChan (acceptReserved w s) x' y' c' = srcChan s x' y' c' :=
  by simp [srcChan]
@[simp] theorem outChan_acceptReserved (w : Word) (s : State) (x' y' c' : Nat) : outChan (acceptReserved w s) x' y' c' = outChan s x' y' c' :=
  by simp [outChan]
@[simp] theorem workChan_acceptReserved (w : Word) (s : State) (c' x' y' : Nat) : workChan (acceptReserved w s) c' x' y' = workChan s c' x' y' :=
  by simp [workChan]

/-! ### beginLines -/

@[simp] theorem beginLines_cmd (s : State) : (beginLines s).cmd = s.cmd := rfl
@[simp] theorem beginLines_status (s : State) : (beginLines s).status = s.status := rfl
@[simp] theorem beginLines_imgW (s : State) : (beginLines s).imgW = s.imgW := rfl
@[simp] theorem beginLines_imgH (s : State) : (beginLines s).imgH = s.imgH := rfl
@[simp] theorem beginLines_encLen (s : State) : (beginLines s).encLen = s.encLen := rfl
@[simp] theorem beginLines_par (s : State) : (beginLines s).par = s.par := rfl
@[simp] theorem beginLines_cur (s : State) : (beginLines s).cur = ⟨s.cur.x, 0, s.cur.p, s.cur.j, s.cur.g, 1⟩ := rfl
@[simp] theorem beginLines_src (s : State) : (beginLines s).src = s.src := rfl
@[simp] theorem beginLines_out (s : State) : (beginLines s).out = s.out := rfl
@[simp] theorem beginLines_enc (s : State) : (beginLines s).enc = s.enc := rfl
@[simp] theorem beginLines_work (s : State) : (beginLines s).work = s.work := rfl
@[simp] theorem beginLines_port (s : State) : (beginLines s).port = s.port := rfl
@[simp] theorem beginLines_epoch (s : State) : (beginLines s).epoch = s.epoch := rfl
@[simp] theorem beginLines_encGen (s : State) : (beginLines s).encGen = s.encGen := rfl
@[simp] theorem imgWidth_beginLines (s : State) : imgWidth (beginLines s) = imgWidth s := by simp [imgWidth]
@[simp] theorem imgHeight_beginLines (s : State) : imgHeight (beginLines s) = imgHeight s := by simp [imgHeight]
@[simp] theorem srcByte_beginLines (s : State) (a' : Nat) : srcByte (beginLines s) a' = srcByte s a' :=
  by simp [srcByte]
@[simp] theorem outByte_beginLines (s : State) (a' : Nat) : outByte (beginLines s) a' = outByte s a' :=
  by simp [outByte]
@[simp] theorem encByte_beginLines (s : State) (a' : Nat) : encByte (beginLines s) a' = encByte s a' :=
  by simp [encByte]
@[simp] theorem workAt_beginLines (s : State) (a' : Nat) : workAt (beginLines s) a' = workAt s a' := by simp [workAt]
@[simp] theorem srcChan_beginLines (s : State) (x' y' c' : Nat) : srcChan (beginLines s) x' y' c' = srcChan s x' y' c' :=
  by simp [srcChan]
@[simp] theorem outChan_beginLines (s : State) (x' y' c' : Nat) : outChan (beginLines s) x' y' c' = outChan s x' y' c' :=
  by simp [outChan]
@[simp] theorem workChan_beginLines (s : State) (c' x' y' : Nat) : workChan (beginLines s) c' x' y' = workChan s c' x' y' :=
  by simp [workChan]

/-! ### returnRead -/

@[simp] theorem returnRead_cmd (v : Word) (s : State) : (returnRead v s).cmd = s.cmd := rfl
@[simp] theorem returnRead_status (v : Word) (s : State) : (returnRead v s).status = s.status := rfl
@[simp] theorem returnRead_imgW (v : Word) (s : State) : (returnRead v s).imgW = s.imgW := rfl
@[simp] theorem returnRead_imgH (v : Word) (s : State) : (returnRead v s).imgH = s.imgH := rfl
@[simp] theorem returnRead_encLen (v : Word) (s : State) : (returnRead v s).encLen = s.encLen := rfl
@[simp] theorem returnRead_par (v : Word) (s : State) : (returnRead v s).par = s.par := rfl
@[simp] theorem returnRead_cur (v : Word) (s : State) : (returnRead v s).cur = s.cur := rfl
@[simp] theorem returnRead_src (v : Word) (s : State) : (returnRead v s).src = s.src := rfl
@[simp] theorem returnRead_out (v : Word) (s : State) : (returnRead v s).out = s.out := rfl
@[simp] theorem returnRead_enc (v : Word) (s : State) : (returnRead v s).enc = s.enc := rfl
@[simp] theorem returnRead_work (v : Word) (s : State) : (returnRead v s).work = s.work := rfl
@[simp] theorem returnRead_port (v : Word) (s : State) : (returnRead v s).port = ⟨s.port.agenda, v⟩ := rfl
@[simp] theorem returnRead_epoch (v : Word) (s : State) : (returnRead v s).epoch = s.epoch := rfl
@[simp] theorem returnRead_encGen (v : Word) (s : State) : (returnRead v s).encGen = s.encGen := rfl
@[simp] theorem imgWidth_returnRead (v : Word) (s : State) : imgWidth (returnRead v s) = imgWidth s :=
  by simp [imgWidth]
@[simp] theorem imgHeight_returnRead (v : Word) (s : State) : imgHeight (returnRead v s) = imgHeight s :=
  by simp [imgHeight]
@[simp] theorem srcByte_returnRead (v : Word) (s : State) (a' : Nat) : srcByte (returnRead v s) a' = srcByte s a' :=
  by simp [srcByte]
@[simp] theorem outByte_returnRead (v : Word) (s : State) (a' : Nat) : outByte (returnRead v s) a' = outByte s a' :=
  by simp [outByte]
@[simp] theorem encByte_returnRead (v : Word) (s : State) (a' : Nat) : encByte (returnRead v s) a' = encByte s a' :=
  by simp [encByte]
@[simp] theorem workAt_returnRead (v : Word) (s : State) (a' : Nat) : workAt (returnRead v s) a' = workAt s a' :=
  by simp [workAt]
@[simp] theorem srcChan_returnRead (v : Word) (s : State) (x' y' c' : Nat) : srcChan (returnRead v s) x' y' c' = srcChan s x' y' c' :=
  by simp [srcChan]
@[simp] theorem outChan_returnRead (v : Word) (s : State) (x' y' c' : Nat) : outChan (returnRead v s) x' y' c' = outChan s x' y' c' :=
  by simp [outChan]
@[simp] theorem workChan_returnRead (v : Word) (s : State) (c' x' y' : Nat) : workChan (returnRead v s) c' x' y' = workChan s c' x' y' :=
  by simp [workChan]

/-! ### withAgenda -/

@[simp] theorem withAgenda_cmd (ts : List Turn) (s : State) : (withAgenda ts s).cmd = s.cmd := rfl
@[simp] theorem withAgenda_status (ts : List Turn) (s : State) : (withAgenda ts s).status = s.status := rfl
@[simp] theorem withAgenda_imgW (ts : List Turn) (s : State) : (withAgenda ts s).imgW = s.imgW := rfl
@[simp] theorem withAgenda_imgH (ts : List Turn) (s : State) : (withAgenda ts s).imgH = s.imgH := rfl
@[simp] theorem withAgenda_encLen (ts : List Turn) (s : State) : (withAgenda ts s).encLen = s.encLen := rfl
@[simp] theorem withAgenda_par (ts : List Turn) (s : State) : (withAgenda ts s).par = s.par := rfl
@[simp] theorem withAgenda_cur (ts : List Turn) (s : State) : (withAgenda ts s).cur = s.cur := rfl
@[simp] theorem withAgenda_src (ts : List Turn) (s : State) : (withAgenda ts s).src = s.src := rfl
@[simp] theorem withAgenda_out (ts : List Turn) (s : State) : (withAgenda ts s).out = s.out := rfl
@[simp] theorem withAgenda_enc (ts : List Turn) (s : State) : (withAgenda ts s).enc = s.enc := rfl
@[simp] theorem withAgenda_work (ts : List Turn) (s : State) : (withAgenda ts s).work = s.work := rfl
@[simp] theorem withAgenda_port (ts : List Turn) (s : State) : (withAgenda ts s).port = ⟨ts, s.port.rdata⟩ := rfl
@[simp] theorem withAgenda_epoch (ts : List Turn) (s : State) : (withAgenda ts s).epoch = s.epoch := rfl
@[simp] theorem withAgenda_encGen (ts : List Turn) (s : State) : (withAgenda ts s).encGen = s.encGen := rfl
@[simp] theorem imgWidth_withAgenda (ts : List Turn) (s : State) : imgWidth (withAgenda ts s) = imgWidth s :=
  by simp [imgWidth]
@[simp] theorem imgHeight_withAgenda (ts : List Turn) (s : State) : imgHeight (withAgenda ts s) = imgHeight s :=
  by simp [imgHeight]
@[simp] theorem srcByte_withAgenda (ts : List Turn) (s : State) (a' : Nat) : srcByte (withAgenda ts s) a' = srcByte s a' :=
  by simp [srcByte]
@[simp] theorem outByte_withAgenda (ts : List Turn) (s : State) (a' : Nat) : outByte (withAgenda ts s) a' = outByte s a' :=
  by simp [outByte]
@[simp] theorem encByte_withAgenda (ts : List Turn) (s : State) (a' : Nat) : encByte (withAgenda ts s) a' = encByte s a' :=
  by simp [encByte]
@[simp] theorem workAt_withAgenda (ts : List Turn) (s : State) (a' : Nat) : workAt (withAgenda ts s) a' = workAt s a' :=
  by simp [workAt]
@[simp] theorem srcChan_withAgenda (ts : List Turn) (s : State) (x' y' c' : Nat) : srcChan (withAgenda ts s) x' y' c' = srcChan s x' y' c' :=
  by simp [srcChan]
@[simp] theorem outChan_withAgenda (ts : List Turn) (s : State) (x' y' c' : Nat) : outChan (withAgenda ts s) x' y' c' = outChan s x' y' c' :=
  by simp [outChan]
@[simp] theorem workChan_withAgenda (ts : List Turn) (s : State) (c' x' y' : Nat) : workChan (withAgenda ts s) c' x' y' = workChan s c' x' y' :=
  by simp [workChan]

/-! ### resetEvent -/

@[simp] theorem resetEvent_cmd (s : State) : (resetEvent s).cmd = 0 := rfl
@[simp] theorem resetEvent_status (s : State) : (resetEvent s).status = Status.reset := rfl
@[simp] theorem resetEvent_imgW (s : State) : (resetEvent s).imgW = 0 := rfl
@[simp] theorem resetEvent_imgH (s : State) : (resetEvent s).imgH = 0 := rfl
@[simp] theorem resetEvent_encLen (s : State) : (resetEvent s).encLen = 0 := rfl
@[simp] theorem resetEvent_par (s : State) : (resetEvent s).par = Params.reset := rfl
@[simp] theorem resetEvent_cur (s : State) : (resetEvent s).cur = Cursor.reset := rfl
@[simp] theorem resetEvent_src (s : State) : (resetEvent s).src = [] := rfl
@[simp] theorem resetEvent_out (s : State) : (resetEvent s).out = [] := rfl
@[simp] theorem resetEvent_enc (s : State) : (resetEvent s).enc = [] := rfl
@[simp] theorem resetEvent_work (s : State) : (resetEvent s).work = [] := rfl
@[simp] theorem resetEvent_port (s : State) : (resetEvent s).port = s.port := rfl
@[simp] theorem resetEvent_epoch (s : State) : (resetEvent s).epoch = s.epoch + 1 := rfl
@[simp] theorem resetEvent_encGen (s : State) : (resetEvent s).encGen = s.encGen + 1 := rfl

/-! ### placeCommand -/

@[simp] theorem placeCommand_cmd (w : Word) (s : State) : (placeCommand w s).cmd = s.cmd := rfl
@[simp] theorem placeCommand_status (w : Word) (s : State) : (placeCommand w s).status = ⟨false, s.status.done, s.status.diag, s.status.ill⟩ :=
  rfl
@[simp] theorem placeCommand_imgW (w : Word) (s : State) : (placeCommand w s).imgW = if s.imgW = 0 then 4 else s.imgW :=
  rfl
@[simp] theorem placeCommand_imgH (w : Word) (s : State) : (placeCommand w s).imgH = if s.imgH = 0 then 1 else s.imgH :=
  rfl
@[simp] theorem placeCommand_encLen (w : Word) (s : State) : (placeCommand w s).encLen = s.encLen := rfl
@[simp] theorem placeCommand_par (w : Word) (s : State) : (placeCommand w s).par = s.par := rfl
@[simp] theorem placeCommand_cur (w : Word) (s : State) : (placeCommand w s).cur = s.cur := rfl
@[simp] theorem placeCommand_src (w : Word) (s : State) : (placeCommand w s).src = s.src := rfl
@[simp] theorem placeCommand_out (w : Word) (s : State) : (placeCommand w s).out = s.out := rfl
@[simp] theorem placeCommand_enc (w : Word) (s : State) : (placeCommand w s).enc = s.enc := rfl
@[simp] theorem placeCommand_work (w : Word) (s : State) : (placeCommand w s).work = s.work := rfl
@[simp] theorem placeCommand_port (w : Word) (s : State) : (placeCommand w s).port = ⟨.host (.writeReg 0 w) :: s.port.agenda, s.port.rdata⟩ :=
  rfl
@[simp] theorem placeCommand_epoch (w : Word) (s : State) : (placeCommand w s).epoch = s.epoch := rfl
@[simp] theorem placeCommand_encGen (w : Word) (s : State) : (placeCommand w s).encGen = s.encGen := rfl
@[simp] theorem srcByte_placeCommand (w : Word) (s : State) (a' : Nat) : srcByte (placeCommand w s) a' = srcByte s a' :=
  by simp [srcByte]
@[simp] theorem outByte_placeCommand (w : Word) (s : State) (a' : Nat) : outByte (placeCommand w s) a' = outByte s a' :=
  by simp [outByte]
@[simp] theorem encByte_placeCommand (w : Word) (s : State) (a' : Nat) : encByte (placeCommand w s) a' = encByte s a' :=
  by simp [encByte]
@[simp] theorem workAt_placeCommand (w : Word) (s : State) (a' : Nat) : workAt (placeCommand w s) a' = workAt s a' :=
  by simp [workAt]

/-! ### finishIf -/

@[simp] theorem finishIf_cmd (b : Bool) (s : State) : (finishIf b s).cmd = s.cmd := by unfold finishIf; split <;> rfl
@[simp] theorem finishIf_status (b : Bool) (s : State) : (finishIf b s).status = if b then statusFinish s.status else s.status :=
  by unfold finishIf; split <;> rfl
@[simp] theorem finishIf_imgW (b : Bool) (s : State) : (finishIf b s).imgW = s.imgW :=
  by unfold finishIf; split <;> rfl
@[simp] theorem finishIf_imgH (b : Bool) (s : State) : (finishIf b s).imgH = s.imgH :=
  by unfold finishIf; split <;> rfl
@[simp] theorem finishIf_encLen (b : Bool) (s : State) : (finishIf b s).encLen = s.encLen :=
  by unfold finishIf; split <;> rfl
@[simp] theorem finishIf_par (b : Bool) (s : State) : (finishIf b s).par = s.par := by unfold finishIf; split <;> rfl
@[simp] theorem finishIf_cur (b : Bool) (s : State) : (finishIf b s).cur = s.cur := by unfold finishIf; split <;> rfl
@[simp] theorem finishIf_src (b : Bool) (s : State) : (finishIf b s).src = s.src := by unfold finishIf; split <;> rfl
@[simp] theorem finishIf_out (b : Bool) (s : State) : (finishIf b s).out = s.out := by unfold finishIf; split <;> rfl
@[simp] theorem finishIf_enc (b : Bool) (s : State) : (finishIf b s).enc = s.enc := by unfold finishIf; split <;> rfl
@[simp] theorem finishIf_work (b : Bool) (s : State) : (finishIf b s).work = s.work :=
  by unfold finishIf; split <;> rfl
@[simp] theorem finishIf_port (b : Bool) (s : State) : (finishIf b s).port = s.port :=
  by unfold finishIf; split <;> rfl
@[simp] theorem finishIf_epoch (b : Bool) (s : State) : (finishIf b s).epoch = s.epoch :=
  by unfold finishIf; split <;> rfl
@[simp] theorem finishIf_encGen (b : Bool) (s : State) : (finishIf b s).encGen = s.encGen :=
  by unfold finishIf; split <;> rfl
@[simp] theorem imgWidth_finishIf (b : Bool) (s : State) : imgWidth (finishIf b s) = imgWidth s := by simp [imgWidth]
@[simp] theorem imgHeight_finishIf (b : Bool) (s : State) : imgHeight (finishIf b s) = imgHeight s :=
  by simp [imgHeight]
@[simp] theorem srcByte_finishIf (b : Bool) (s : State) (a' : Nat) : srcByte (finishIf b s) a' = srcByte s a' :=
  by simp [srcByte]
@[simp] theorem outByte_finishIf (b : Bool) (s : State) (a' : Nat) : outByte (finishIf b s) a' = outByte s a' :=
  by simp [outByte]
@[simp] theorem encByte_finishIf (b : Bool) (s : State) (a' : Nat) : encByte (finishIf b s) a' = encByte s a' :=
  by simp [encByte]
@[simp] theorem workAt_finishIf (b : Bool) (s : State) (a' : Nat) : workAt (finishIf b s) a' = workAt s a' :=
  by simp [workAt]
@[simp] theorem srcChan_finishIf (b : Bool) (s : State) (x' y' c' : Nat) : srcChan (finishIf b s) x' y' c' = srcChan s x' y' c' :=
  by simp [srcChan]
@[simp] theorem outChan_finishIf (b : Bool) (s : State) (x' y' c' : Nat) : outChan (finishIf b s) x' y' c' = outChan s x' y' c' :=
  by simp [outChan]
@[simp] theorem workChan_finishIf (b : Bool) (s : State) (c' x' y' : Nat) : workChan (finishIf b s) c' x' y' = workChan s c' x' y' :=
  by simp [workChan]

/-! ### loadWork -/

@[simp] theorem loadWork_cmd (s : State) : (loadWork s).cmd = s.cmd := by unfold loadWork; split <;> rfl
@[simp] theorem loadWork_status (s : State) : (loadWork s).status = s.status := by unfold loadWork; split <;> rfl
@[simp] theorem loadWork_imgW (s : State) : (loadWork s).imgW = s.imgW := by unfold loadWork; split <;> rfl
@[simp] theorem loadWork_imgH (s : State) : (loadWork s).imgH = s.imgH := by unfold loadWork; split <;> rfl
@[simp] theorem loadWork_encLen (s : State) : (loadWork s).encLen = s.encLen := by unfold loadWork; split <;> rfl
@[simp] theorem loadWork_par (s : State) : (loadWork s).par = s.par := by unfold loadWork; split <;> rfl
@[simp] theorem loadWork_cur (s : State) : (loadWork s).cur = s.cur := by unfold loadWork; split <;> rfl
@[simp] theorem loadWork_src (s : State) : (loadWork s).src = s.src := by unfold loadWork; split <;> rfl
@[simp] theorem loadWork_out (s : State) : (loadWork s).out = s.out := by unfold loadWork; split <;> rfl
@[simp] theorem loadWork_enc (s : State) : (loadWork s).enc = s.enc := by unfold loadWork; split <;> rfl
@[simp] theorem loadWork_work (s : State) : (loadWork s).work = if s.par.alg = 1 ∨ s.par.alg = 2 then initialWork s else s.work :=
  by unfold loadWork; split <;> rfl
@[simp] theorem loadWork_port (s : State) : (loadWork s).port = s.port := by unfold loadWork; split <;> rfl
@[simp] theorem loadWork_epoch (s : State) : (loadWork s).epoch = s.epoch := by unfold loadWork; split <;> rfl
@[simp] theorem loadWork_encGen (s : State) : (loadWork s).encGen = s.encGen := by unfold loadWork; split <;> rfl
@[simp] theorem imgWidth_loadWork (s : State) : imgWidth (loadWork s) = imgWidth s := by simp [imgWidth]
@[simp] theorem imgHeight_loadWork (s : State) : imgHeight (loadWork s) = imgHeight s := by simp [imgHeight]
@[simp] theorem srcByte_loadWork (s : State) (a' : Nat) : srcByte (loadWork s) a' = srcByte s a' := by simp [srcByte]
@[simp] theorem outByte_loadWork (s : State) (a' : Nat) : outByte (loadWork s) a' = outByte s a' := by simp [outByte]
@[simp] theorem encByte_loadWork (s : State) (a' : Nat) : encByte (loadWork s) a' = encByte s a' := by simp [encByte]
@[simp] theorem srcChan_loadWork (s : State) (x' y' c' : Nat) : srcChan (loadWork s) x' y' c' = srcChan s x' y' c' :=
  by simp [srcChan]
@[simp] theorem outChan_loadWork (s : State) (x' y' c' : Nat) : outChan (loadWork s) x' y' c' = outChan s x' y' c' :=
  by simp [outChan]

/-! ### encAppendAll -/

@[simp] theorem encAppendAll_cmd (bs : List Byte) (s : State) : (encAppendAll bs s).cmd = s.cmd := by
  induction bs generalizing s with
  | nil => rfl
  | cons b bs ih => exact (ih _).trans rfl
@[simp] theorem encAppendAll_status (bs : List Byte) (s : State) : (encAppendAll bs s).status = s.status := by
  induction bs generalizing s with
  | nil => rfl
  | cons b bs ih => exact (ih _).trans rfl
@[simp] theorem encAppendAll_imgW (bs : List Byte) (s : State) : (encAppendAll bs s).imgW = s.imgW := by
  induction bs generalizing s with
  | nil => rfl
  | cons b bs ih => exact (ih _).trans rfl
@[simp] theorem encAppendAll_imgH (bs : List Byte) (s : State) : (encAppendAll bs s).imgH = s.imgH := by
  induction bs generalizing s with
  | nil => rfl
  | cons b bs ih => exact (ih _).trans rfl
@[simp] theorem encAppendAll_par (bs : List Byte) (s : State) : (encAppendAll bs s).par = s.par := by
  induction bs generalizing s with
  | nil => rfl
  | cons b bs ih => exact (ih _).trans rfl
@[simp] theorem encAppendAll_cur (bs : List Byte) (s : State) : (encAppendAll bs s).cur = s.cur := by
  induction bs generalizing s with
  | nil => rfl
  | cons b bs ih => exact (ih _).trans rfl
@[simp] theorem encAppendAll_src (bs : List Byte) (s : State) : (encAppendAll bs s).src = s.src := by
  induction bs generalizing s with
  | nil => rfl
  | cons b bs ih => exact (ih _).trans rfl
@[simp] theorem encAppendAll_out (bs : List Byte) (s : State) : (encAppendAll bs s).out = s.out := by
  induction bs generalizing s with
  | nil => rfl
  | cons b bs ih => exact (ih _).trans rfl
@[simp] theorem encAppendAll_work (bs : List Byte) (s : State) : (encAppendAll bs s).work = s.work := by
  induction bs generalizing s with
  | nil => rfl
  | cons b bs ih => exact (ih _).trans rfl
@[simp] theorem encAppendAll_port (bs : List Byte) (s : State) : (encAppendAll bs s).port = s.port := by
  induction bs generalizing s with
  | nil => rfl
  | cons b bs ih => exact (ih _).trans rfl
@[simp] theorem encAppendAll_epoch (bs : List Byte) (s : State) : (encAppendAll bs s).epoch = s.epoch := by
  induction bs generalizing s with
  | nil => rfl
  | cons b bs ih => exact (ih _).trans rfl
@[simp] theorem encAppendAll_encGen (bs : List Byte) (s : State) : (encAppendAll bs s).encGen = s.encGen := by
  induction bs generalizing s with
  | nil => rfl
  | cons b bs ih => exact (ih _).trans rfl
@[simp] theorem imgWidth_encAppendAll (bs : List Byte) (s : State) : imgWidth (encAppendAll bs s) = imgWidth s :=
  by simp [imgWidth]
@[simp] theorem imgHeight_encAppendAll (bs : List Byte) (s : State) : imgHeight (encAppendAll bs s) = imgHeight s :=
  by simp [imgHeight]
@[simp] theorem srcByte_encAppendAll (bs : List Byte) (s : State) (a' : Nat) : srcByte (encAppendAll bs s) a' = srcByte s a' :=
  by simp [srcByte]
@[simp] theorem outByte_encAppendAll (bs : List Byte) (s : State) (a' : Nat) : outByte (encAppendAll bs s) a' = outByte s a' :=
  by simp [outByte]
@[simp] theorem workAt_encAppendAll (bs : List Byte) (s : State) (a' : Nat) : workAt (encAppendAll bs s) a' = workAt s a' :=
  by simp [workAt]
@[simp] theorem srcChan_encAppendAll (bs : List Byte) (s : State) (x' y' c' : Nat) : srcChan (encAppendAll bs s) x' y' c' = srcChan s x' y' c' :=
  by simp [srcChan]
@[simp] theorem outChan_encAppendAll (bs : List Byte) (s : State) (x' y' c' : Nat) : outChan (encAppendAll bs s) x' y' c' = outChan s x' y' c' :=
  by simp [outChan]
@[simp] theorem workChan_encAppendAll (bs : List Byte) (s : State) (c' x' y' : Nat) : workChan (encAppendAll bs s) c' x' y' = workChan s c' x' y' :=
  by simp [workChan]

/-! ### writePixel -/

@[simp] theorem writePixel_cmd (r g b : Byte) (s : State) : (writePixel r g b s).cmd = s.cmd := rfl
@[simp] theorem writePixel_status (r g b : Byte) (s : State) : (writePixel r g b s).status = s.status := rfl
@[simp] theorem writePixel_imgW (r g b : Byte) (s : State) : (writePixel r g b s).imgW = s.imgW := rfl
@[simp] theorem writePixel_imgH (r g b : Byte) (s : State) : (writePixel r g b s).imgH = s.imgH := rfl
@[simp] theorem writePixel_encLen (r g b : Byte) (s : State) : (writePixel r g b s).encLen = s.encLen := rfl
@[simp] theorem writePixel_par (r g b : Byte) (s : State) : (writePixel r g b s).par = s.par := rfl
@[simp] theorem writePixel_cur (r g b : Byte) (s : State) : (writePixel r g b s).cur = s.cur := rfl
@[simp] theorem writePixel_src (r g b : Byte) (s : State) : (writePixel r g b s).src = s.src := rfl
@[simp] theorem writePixel_enc (r g b : Byte) (s : State) : (writePixel r g b s).enc = s.enc := rfl
@[simp] theorem writePixel_work (r g b : Byte) (s : State) : (writePixel r g b s).work = s.work := rfl
@[simp] theorem writePixel_port (r g b : Byte) (s : State) : (writePixel r g b s).port = s.port := rfl
@[simp] theorem writePixel_epoch (r g b : Byte) (s : State) : (writePixel r g b s).epoch = s.epoch := rfl
@[simp] theorem writePixel_encGen (r g b : Byte) (s : State) : (writePixel r g b s).encGen = s.encGen := rfl
@[simp] theorem imgWidth_writePixel (r g b : Byte) (s : State) : imgWidth (writePixel r g b s) = imgWidth s :=
  by simp [imgWidth]
@[simp] theorem imgHeight_writePixel (r g b : Byte) (s : State) : imgHeight (writePixel r g b s) = imgHeight s :=
  by simp [imgHeight]
@[simp] theorem srcByte_writePixel (r g b : Byte) (s : State) (a' : Nat) : srcByte (writePixel r g b s) a' = srcByte s a' :=
  by simp [srcByte]
@[simp] theorem encByte_writePixel (r g b : Byte) (s : State) (a' : Nat) : encByte (writePixel r g b s) a' = encByte s a' :=
  by simp [encByte]
@[simp] theorem workAt_writePixel (r g b : Byte) (s : State) (a' : Nat) : workAt (writePixel r g b s) a' = workAt s a' :=
  by simp [workAt]
@[simp] theorem srcChan_writePixel (r g b : Byte) (s : State) (x' y' c' : Nat) : srcChan (writePixel r g b s) x' y' c' = srcChan s x' y' c' :=
  by simp [srcChan]
@[simp] theorem workChan_writePixel (r g b : Byte) (s : State) (c' x' y' : Nat) : workChan (writePixel r g b s) c' x' y' = workChan s c' x' y' :=
  by simp [workChan]

/-! ### advanceRaster -/

@[simp] theorem advanceRaster_cmd (s : State) : (advanceRaster s).cmd = s.cmd :=
  by unfold advanceRaster; split <;> simp
@[simp] theorem advanceRaster_imgW (s : State) : (advanceRaster s).imgW = s.imgW :=
  by unfold advanceRaster; split <;> simp
@[simp] theorem advanceRaster_imgH (s : State) : (advanceRaster s).imgH = s.imgH :=
  by unfold advanceRaster; split <;> simp
@[simp] theorem advanceRaster_encLen (s : State) : (advanceRaster s).encLen = s.encLen :=
  by unfold advanceRaster; split <;> simp
@[simp] theorem advanceRaster_par (s : State) : (advanceRaster s).par = s.par :=
  by unfold advanceRaster; split <;> simp
@[simp] theorem advanceRaster_src (s : State) : (advanceRaster s).src = s.src :=
  by unfold advanceRaster; split <;> simp
@[simp] theorem advanceRaster_out (s : State) : (advanceRaster s).out = s.out :=
  by unfold advanceRaster; split <;> simp
@[simp] theorem advanceRaster_enc (s : State) : (advanceRaster s).enc = s.enc :=
  by unfold advanceRaster; split <;> simp
@[simp] theorem advanceRaster_work (s : State) : (advanceRaster s).work = s.work :=
  by unfold advanceRaster; split <;> simp
@[simp] theorem advanceRaster_port (s : State) : (advanceRaster s).port = s.port :=
  by unfold advanceRaster; split <;> simp
@[simp] theorem advanceRaster_epoch (s : State) : (advanceRaster s).epoch = s.epoch :=
  by unfold advanceRaster; split <;> simp
@[simp] theorem advanceRaster_encGen (s : State) : (advanceRaster s).encGen = s.encGen :=
  by unfold advanceRaster; split <;> simp
@[simp] theorem imgWidth_advanceRaster (s : State) : imgWidth (advanceRaster s) = imgWidth s := by simp [imgWidth]
@[simp] theorem imgHeight_advanceRaster (s : State) : imgHeight (advanceRaster s) = imgHeight s := by simp [imgHeight]
@[simp] theorem srcByte_advanceRaster (s : State) (a' : Nat) : srcByte (advanceRaster s) a' = srcByte s a' :=
  by simp [srcByte]
@[simp] theorem outByte_advanceRaster (s : State) (a' : Nat) : outByte (advanceRaster s) a' = outByte s a' :=
  by simp [outByte]
@[simp] theorem encByte_advanceRaster (s : State) (a' : Nat) : encByte (advanceRaster s) a' = encByte s a' :=
  by simp [encByte]
@[simp] theorem workAt_advanceRaster (s : State) (a' : Nat) : workAt (advanceRaster s) a' = workAt s a' :=
  by simp [workAt]
@[simp] theorem srcChan_advanceRaster (s : State) (x' y' c' : Nat) : srcChan (advanceRaster s) x' y' c' = srcChan s x' y' c' :=
  by simp [srcChan]
@[simp] theorem outChan_advanceRaster (s : State) (x' y' c' : Nat) : outChan (advanceRaster s) x' y' c' = outChan s x' y' c' :=
  by simp [outChan]
@[simp] theorem workChan_advanceRaster (s : State) (c' x' y' : Nat) : workChan (advanceRaster s) c' x' y' = workChan s c' x' y' :=
  by simp [workChan]

/-! ### advanceGroups -/

@[simp] theorem advanceGroups_cmd (s : State) : (advanceGroups s).cmd = s.cmd :=
  by unfold advanceGroups; split <;> simp
@[simp] theorem advanceGroups_imgW (s : State) : (advanceGroups s).imgW = s.imgW :=
  by unfold advanceGroups; split <;> simp
@[simp] theorem advanceGroups_imgH (s : State) : (advanceGroups s).imgH = s.imgH :=
  by unfold advanceGroups; split <;> simp
@[simp] theorem advanceGroups_encLen (s : State) : (advanceGroups s).encLen = s.encLen :=
  by unfold advanceGroups; split <;> simp
@[simp] theorem advanceGroups_par (s : State) : (advanceGroups s).par = s.par :=
  by unfold advanceGroups; split <;> simp
@[simp] theorem advanceGroups_src (s : State) : (advanceGroups s).src = s.src :=
  by unfold advanceGroups; split <;> simp
@[simp] theorem advanceGroups_out (s : State) : (advanceGroups s).out = s.out :=
  by unfold advanceGroups; split <;> simp
@[simp] theorem advanceGroups_enc (s : State) : (advanceGroups s).enc = s.enc :=
  by unfold advanceGroups; split <;> simp
@[simp] theorem advanceGroups_work (s : State) : (advanceGroups s).work = s.work :=
  by unfold advanceGroups; split <;> simp
@[simp] theorem advanceGroups_port (s : State) : (advanceGroups s).port = s.port :=
  by unfold advanceGroups; split <;> simp
@[simp] theorem advanceGroups_epoch (s : State) : (advanceGroups s).epoch = s.epoch :=
  by unfold advanceGroups; split <;> simp
@[simp] theorem advanceGroups_encGen (s : State) : (advanceGroups s).encGen = s.encGen :=
  by unfold advanceGroups; split <;> simp
@[simp] theorem imgWidth_advanceGroups (s : State) : imgWidth (advanceGroups s) = imgWidth s := by simp [imgWidth]
@[simp] theorem imgHeight_advanceGroups (s : State) : imgHeight (advanceGroups s) = imgHeight s := by simp [imgHeight]
@[simp] theorem srcByte_advanceGroups (s : State) (a' : Nat) : srcByte (advanceGroups s) a' = srcByte s a' :=
  by simp [srcByte]
@[simp] theorem outByte_advanceGroups (s : State) (a' : Nat) : outByte (advanceGroups s) a' = outByte s a' :=
  by simp [outByte]
@[simp] theorem encByte_advanceGroups (s : State) (a' : Nat) : encByte (advanceGroups s) a' = encByte s a' :=
  by simp [encByte]
@[simp] theorem workAt_advanceGroups (s : State) (a' : Nat) : workAt (advanceGroups s) a' = workAt s a' :=
  by simp [workAt]
@[simp] theorem srcChan_advanceGroups (s : State) (x' y' c' : Nat) : srcChan (advanceGroups s) x' y' c' = srcChan s x' y' c' :=
  by simp [srcChan]
@[simp] theorem outChan_advanceGroups (s : State) (x' y' c' : Nat) : outChan (advanceGroups s) x' y' c' = outChan s x' y' c' :=
  by simp [outChan]
@[simp] theorem workChan_advanceGroups (s : State) (c' x' y' : Nat) : workChan (advanceGroups s) c' x' y' = workChan s c' x' y' :=
  by simp [workChan]

/-! ### advancePlanes -/

@[simp] theorem advancePlanes_cmd (n : Nat) (s : State) : (advancePlanes n s).cmd = s.cmd :=
  by unfold advancePlanes; split <;> (try split) <;> simp
@[simp] theorem advancePlanes_imgW (n : Nat) (s : State) : (advancePlanes n s).imgW = s.imgW :=
  by unfold advancePlanes; split <;> (try split) <;> simp
@[simp] theorem advancePlanes_imgH (n : Nat) (s : State) : (advancePlanes n s).imgH = s.imgH :=
  by unfold advancePlanes; split <;> (try split) <;> simp
@[simp] theorem advancePlanes_encLen (n : Nat) (s : State) : (advancePlanes n s).encLen = s.encLen :=
  by unfold advancePlanes; split <;> (try split) <;> simp
@[simp] theorem advancePlanes_par (n : Nat) (s : State) : (advancePlanes n s).par = s.par :=
  by unfold advancePlanes; split <;> (try split) <;> simp
@[simp] theorem advancePlanes_src (n : Nat) (s : State) : (advancePlanes n s).src = s.src :=
  by unfold advancePlanes; split <;> (try split) <;> simp
@[simp] theorem advancePlanes_out (n : Nat) (s : State) : (advancePlanes n s).out = s.out :=
  by unfold advancePlanes; split <;> (try split) <;> simp
@[simp] theorem advancePlanes_enc (n : Nat) (s : State) : (advancePlanes n s).enc = s.enc :=
  by unfold advancePlanes; split <;> (try split) <;> simp
@[simp] theorem advancePlanes_work (n : Nat) (s : State) : (advancePlanes n s).work = s.work :=
  by unfold advancePlanes; split <;> (try split) <;> simp
@[simp] theorem advancePlanes_port (n : Nat) (s : State) : (advancePlanes n s).port = s.port :=
  by unfold advancePlanes; split <;> (try split) <;> simp
@[simp] theorem advancePlanes_epoch (n : Nat) (s : State) : (advancePlanes n s).epoch = s.epoch :=
  by unfold advancePlanes; split <;> (try split) <;> simp
@[simp] theorem advancePlanes_encGen (n : Nat) (s : State) : (advancePlanes n s).encGen = s.encGen :=
  by unfold advancePlanes; split <;> (try split) <;> simp
@[simp] theorem imgWidth_advancePlanes (n : Nat) (s : State) : imgWidth (advancePlanes n s) = imgWidth s :=
  by simp [imgWidth]
@[simp] theorem imgHeight_advancePlanes (n : Nat) (s : State) : imgHeight (advancePlanes n s) = imgHeight s :=
  by simp [imgHeight]
@[simp] theorem srcByte_advancePlanes (n : Nat) (s : State) (a' : Nat) : srcByte (advancePlanes n s) a' = srcByte s a' :=
  by simp [srcByte]
@[simp] theorem outByte_advancePlanes (n : Nat) (s : State) (a' : Nat) : outByte (advancePlanes n s) a' = outByte s a' :=
  by simp [outByte]
@[simp] theorem encByte_advancePlanes (n : Nat) (s : State) (a' : Nat) : encByte (advancePlanes n s) a' = encByte s a' :=
  by simp [encByte]
@[simp] theorem workAt_advancePlanes (n : Nat) (s : State) (a' : Nat) : workAt (advancePlanes n s) a' = workAt s a' :=
  by simp [workAt]
@[simp] theorem srcChan_advancePlanes (n : Nat) (s : State) (x' y' c' : Nat) : srcChan (advancePlanes n s) x' y' c' = srcChan s x' y' c' :=
  by simp [srcChan]
@[simp] theorem outChan_advancePlanes (n : Nat) (s : State) (x' y' c' : Nat) : outChan (advancePlanes n s) x' y' c' = outChan s x' y' c' :=
  by simp [outChan]
@[simp] theorem workChan_advancePlanes (n : Nat) (s : State) (c' x' y' : Nat) : workChan (advancePlanes n s) c' x' y' = workChan s c' x' y' :=
  by simp [workChan]

/-! ### advanceLines -/

@[simp] theorem advanceLines_cmd (s : State) : (advanceLines s).cmd = s.cmd := by unfold advanceLines; simp
@[simp] theorem advanceLines_imgW (s : State) : (advanceLines s).imgW = s.imgW := by unfold advanceLines; simp
@[simp] theorem advanceLines_imgH (s : State) : (advanceLines s).imgH = s.imgH := by unfold advanceLines; simp
@[simp] theorem advanceLines_encLen (s : State) : (advanceLines s).encLen = s.encLen := by unfold advanceLines; simp
@[simp] theorem advanceLines_par (s : State) : (advanceLines s).par = s.par := by unfold advanceLines; simp
@[simp] theorem advanceLines_src (s : State) : (advanceLines s).src = s.src := by unfold advanceLines; simp
@[simp] theorem advanceLines_out (s : State) : (advanceLines s).out = s.out := by unfold advanceLines; simp
@[simp] theorem advanceLines_enc (s : State) : (advanceLines s).enc = s.enc := by unfold advanceLines; simp
@[simp] theorem advanceLines_work (s : State) : (advanceLines s).work = s.work := by unfold advanceLines; simp
@[simp] theorem advanceLines_port (s : State) : (advanceLines s).port = s.port := by unfold advanceLines; simp
@[simp] theorem advanceLines_epoch (s : State) : (advanceLines s).epoch = s.epoch := by unfold advanceLines; simp
@[simp] theorem advanceLines_encGen (s : State) : (advanceLines s).encGen = s.encGen := by unfold advanceLines; simp
@[simp] theorem imgWidth_advanceLines (s : State) : imgWidth (advanceLines s) = imgWidth s := by simp [imgWidth]
@[simp] theorem imgHeight_advanceLines (s : State) : imgHeight (advanceLines s) = imgHeight s := by simp [imgHeight]
@[simp] theorem srcByte_advanceLines (s : State) (a' : Nat) : srcByte (advanceLines s) a' = srcByte s a' :=
  by simp [srcByte]
@[simp] theorem outByte_advanceLines (s : State) (a' : Nat) : outByte (advanceLines s) a' = outByte s a' :=
  by simp [outByte]
@[simp] theorem encByte_advanceLines (s : State) (a' : Nat) : encByte (advanceLines s) a' = encByte s a' :=
  by simp [encByte]
@[simp] theorem workAt_advanceLines (s : State) (a' : Nat) : workAt (advanceLines s) a' = workAt s a' :=
  by simp [workAt]
@[simp] theorem srcChan_advanceLines (s : State) (x' y' c' : Nat) : srcChan (advanceLines s) x' y' c' = srcChan s x' y' c' :=
  by simp [srcChan]
@[simp] theorem outChan_advanceLines (s : State) (x' y' c' : Nat) : outChan (advanceLines s) x' y' c' = outChan s x' y' c' :=
  by simp [outChan]
@[simp] theorem workChan_advanceLines (s : State) (c' x' y' : Nat) : workChan (advanceLines s) c' x' y' = workChan s c' x' y' :=
  by simp [workChan]

/-! ### finishDiag -/

@[simp] theorem finishDiag_cmd (s : State) : (finishDiag s).cmd = s.cmd := rfl
@[simp] theorem finishDiag_status (s : State) : (finishDiag s).status = ⟨false, true, true, s.status.ill⟩ := rfl
@[simp] theorem finishDiag_imgW (s : State) : (finishDiag s).imgW = s.imgW := rfl
@[simp] theorem finishDiag_imgH (s : State) : (finishDiag s).imgH = s.imgH := rfl
@[simp] theorem finishDiag_encLen (s : State) : (finishDiag s).encLen = s.encLen := rfl
@[simp] theorem finishDiag_par (s : State) : (finishDiag s).par = s.par := rfl
@[simp] theorem finishDiag_cur (s : State) : (finishDiag s).cur = s.cur := rfl
@[simp] theorem finishDiag_src (s : State) : (finishDiag s).src = s.src := rfl
@[simp] theorem finishDiag_out (s : State) : (finishDiag s).out = s.out := rfl
@[simp] theorem finishDiag_enc (s : State) : (finishDiag s).enc = s.enc := rfl
@[simp] theorem finishDiag_work (s : State) : (finishDiag s).work = s.work := rfl
@[simp] theorem finishDiag_port (s : State) : (finishDiag s).port = s.port := rfl
@[simp] theorem finishDiag_epoch (s : State) : (finishDiag s).epoch = s.epoch := rfl
@[simp] theorem finishDiag_encGen (s : State) : (finishDiag s).encGen = s.encGen := rfl
@[simp] theorem imgWidth_finishDiag (s : State) : imgWidth (finishDiag s) = imgWidth s := by simp [imgWidth]
@[simp] theorem imgHeight_finishDiag (s : State) : imgHeight (finishDiag s) = imgHeight s := by simp [imgHeight]
@[simp] theorem srcByte_finishDiag (s : State) (a' : Nat) : srcByte (finishDiag s) a' = srcByte s a' :=
  by simp [srcByte]
@[simp] theorem outByte_finishDiag (s : State) (a' : Nat) : outByte (finishDiag s) a' = outByte s a' :=
  by simp [outByte]
@[simp] theorem encByte_finishDiag (s : State) (a' : Nat) : encByte (finishDiag s) a' = encByte s a' :=
  by simp [encByte]
@[simp] theorem workAt_finishDiag (s : State) (a' : Nat) : workAt (finishDiag s) a' = workAt s a' := by simp [workAt]
@[simp] theorem srcChan_finishDiag (s : State) (x' y' c' : Nat) : srcChan (finishDiag s) x' y' c' = srcChan s x' y' c' :=
  by simp [srcChan]
@[simp] theorem outChan_finishDiag (s : State) (x' y' c' : Nat) : outChan (finishDiag s) x' y' c' = outChan s x' y' c' :=
  by simp [outChan]
@[simp] theorem workChan_finishDiag (s : State) (c' x' y' : Nat) : workChan (finishDiag s) c' x' y' = workChan s c' x' y' :=
  by simp [workChan]

/-! ### writePlainReg -/

@[simp] theorem writePlainReg_cmd (n : Nat) (v : Word) (s : State) : (writePlainReg n v s).cmd = s.cmd :=
  by unfold writePlainReg; split <;> (try split) <;> rfl
@[simp] theorem writePlainReg_status (n : Nat) (v : Word) (s : State) : (writePlainReg n v s).status = s.status :=
  by unfold writePlainReg; split <;> (try split) <;> rfl
@[simp] theorem writePlainReg_encLen (n : Nat) (v : Word) (s : State) : (writePlainReg n v s).encLen = s.encLen :=
  by unfold writePlainReg; split <;> (try split) <;> rfl
@[simp] theorem writePlainReg_par (n : Nat) (v : Word) (s : State) : (writePlainReg n v s).par = s.par :=
  by unfold writePlainReg; split <;> (try split) <;> rfl
@[simp] theorem writePlainReg_cur (n : Nat) (v : Word) (s : State) : (writePlainReg n v s).cur = s.cur :=
  by unfold writePlainReg; split <;> (try split) <;> rfl
@[simp] theorem writePlainReg_src (n : Nat) (v : Word) (s : State) : (writePlainReg n v s).src = s.src :=
  by unfold writePlainReg; split <;> (try split) <;> rfl
@[simp] theorem writePlainReg_out (n : Nat) (v : Word) (s : State) : (writePlainReg n v s).out = s.out :=
  by unfold writePlainReg; split <;> (try split) <;> rfl
@[simp] theorem writePlainReg_enc (n : Nat) (v : Word) (s : State) : (writePlainReg n v s).enc = s.enc :=
  by unfold writePlainReg; split <;> (try split) <;> rfl
@[simp] theorem writePlainReg_work (n : Nat) (v : Word) (s : State) : (writePlainReg n v s).work = s.work :=
  by unfold writePlainReg; split <;> (try split) <;> rfl
@[simp] theorem writePlainReg_port (n : Nat) (v : Word) (s : State) : (writePlainReg n v s).port = s.port :=
  by unfold writePlainReg; split <;> (try split) <;> rfl
@[simp] theorem writePlainReg_epoch (n : Nat) (v : Word) (s : State) : (writePlainReg n v s).epoch = s.epoch :=
  by unfold writePlainReg; split <;> (try split) <;> rfl
@[simp] theorem writePlainReg_encGen (n : Nat) (v : Word) (s : State) : (writePlainReg n v s).encGen = s.encGen :=
  by unfold writePlainReg; split <;> (try split) <;> rfl
@[simp] theorem srcByte_writePlainReg (n : Nat) (v : Word) (s : State) (a' : Nat) : srcByte (writePlainReg n v s) a' = srcByte s a' :=
  by simp [srcByte]
@[simp] theorem outByte_writePlainReg (n : Nat) (v : Word) (s : State) (a' : Nat) : outByte (writePlainReg n v s) a' = outByte s a' :=
  by simp [outByte]
@[simp] theorem encByte_writePlainReg (n : Nat) (v : Word) (s : State) (a' : Nat) : encByte (writePlainReg n v s) a' = encByte s a' :=
  by simp [encByte]
@[simp] theorem workAt_writePlainReg (n : Nat) (v : Word) (s : State) (a' : Nat) : workAt (writePlainReg n v s) a' = workAt s a' :=
  by simp [workAt]

end Sys2Proof.Laws
end

