-- ==== Sys2Proof/Laws/Cursor.lean ====
section
/-! SUPPORT. How the cursor moves: each component, the flags, and the position in visiting order (10_state.md R16, 30_encoding.md
R60). -/

namespace Sys2Proof.Laws

open Sys2Proof.Machine

theorem imgWidth_lt (s : State) : imgWidth s < 4096 := s.imgW.isLt

theorem imgHeight_lt (s : State) : imgHeight s < 4096 := s.imgH.isLt

/-- A cursor component below 4096 does not wrap (R16). -/
theorem cursor_succ {a : BitVec 13} (h : a.toNat < 4096) : (a + 1).toNat = a.toNat + 1 := by
  rw [BitVec.toNat_add]
  simp
  omega

theorem rasterInside_iff {s : State} :
    rasterInside s = true ↔ s.cur.x.toNat < imgWidth s ∧ s.cur.y.toNat < imgHeight s := by
  simp [rasterInside]

theorem planesInside_iff {n : Nat} {s : State} :
    planesInside n s = true ↔ s.cur.p.toNat < 3 ∧ s.cur.y.toNat < imgHeight s ∧ s.cur.j.toNat < n := by
  simp [planesInside, and_assoc]

theorem groupsInside_iff {s : State} :
    groupsInside s = true ↔ s.cur.y.toNat < imgHeight s ∧ s.cur.g.toNat < groupsPerRow s := by
  simp [groupsInside]

/-! ### The raster cursor -/

section raster
variable {s : State} (hin : rasterInside s = true)
include hin

theorem raster_succ_x : (s.cur.x + 1).toNat = s.cur.x.toNat + 1 :=
  cursor_succ (by have := imgWidth_lt s; have := (rasterInside_iff.mp hin).1; omega)

theorem raster_succ_y : (s.cur.y + 1).toNat = s.cur.y.toNat + 1 :=
  cursor_succ (by have := imgHeight_lt s; have := (rasterInside_iff.mp hin).2; omega)

theorem advanceRaster_x : (advanceRaster s).cur.x.toNat =
    if s.cur.x.toNat + 1 = imgWidth s then 0 else s.cur.x.toNat + 1 := by
  unfold advanceRaster
  rw [raster_succ_x hin]
  split
  · simp
  · exact raster_succ_x hin

theorem advanceRaster_y : (advanceRaster s).cur.y.toNat =
    if s.cur.x.toNat + 1 = imgWidth s then s.cur.y.toNat + 1 else s.cur.y.toNat := by
  unfold advanceRaster
  rw [raster_succ_x hin]
  split
  · simp only [finishIf_cur]
    exact raster_succ_y hin
  · rfl

theorem advanceRaster_status : (advanceRaster s).status =
    if s.cur.x.toNat + 1 = imgWidth s ∧ s.cur.y.toNat + 1 = imgHeight s then statusFinish s.status else s.status := by
  unfold advanceRaster
  rw [raster_succ_x hin, raster_succ_y hin]
  split
  · rename_i h
    simp [h]
  · rename_i h
    simp [h]

theorem rasterPos_lt : rasterPos s < imgWidth s * imgHeight s := by
  obtain ⟨hx, hy⟩ := rasterInside_iff.mp hin
  unfold rasterPos
  calc s.cur.y.toNat * imgWidth s + s.cur.x.toNat < s.cur.y.toNat * imgWidth s + imgWidth s := by omega
    _ = (s.cur.y.toNat + 1) * imgWidth s := by ring
    _ ≤ imgHeight s * imgWidth s := Nat.mul_le_mul_right _ hy
    _ = imgWidth s * imgHeight s := Nat.mul_comm _ _

theorem rasterPos_advance : rasterPos (advanceRaster s) = rasterPos s + 1 := by
  unfold rasterPos
  rw [advanceRaster_x hin, advanceRaster_y hin, imgWidth_advanceRaster]
  split
  · rename_i h
    rw [← h]; ring
  · rfl

/-- The last pixel is the one whose successor position is W H. -/
theorem raster_last_iff : (s.cur.x.toNat + 1 = imgWidth s ∧ s.cur.y.toNat + 1 = imgHeight s) ↔
    rasterPos s + 1 = imgWidth s * imgHeight s := by
  obtain ⟨hx, hy⟩ := rasterInside_iff.mp hin
  unfold rasterPos
  constructor
  · rintro ⟨h1, h2⟩
    rw [← h1, ← h2]; ring
  · intro h
    have hx1 : s.cur.y.toNat * imgWidth s + s.cur.x.toNat + 1 ≤ (s.cur.y.toNat + 1) * imgWidth s := by
      rw [Nat.add_mul, Nat.one_mul]; omega
    have hy1 : s.cur.y.toNat + 1 = imgHeight s := by
      by_contra hne
      have h3 : (s.cur.y.toNat + 2) * imgWidth s ≤ imgHeight s * imgWidth s := Nat.mul_le_mul_right _ (by omega)
      have h4 : imgHeight s * imgWidth s = imgWidth s * imgHeight s := Nat.mul_comm _ _
      have h5 : (s.cur.y.toNat + 2) * imgWidth s = (s.cur.y.toNat + 1) * imgWidth s + imgWidth s := by ring
      omega
    refine ⟨?_, hy1⟩
    have h6 : imgWidth s * imgHeight s = s.cur.y.toNat * imgWidth s + imgWidth s := by rw [← hy1]; ring
    omega

/-- Unless the command finishes, the cursor is still inside the image. -/
theorem advanceRaster_inside (h : (advanceRaster s).status.busy = true) :
    rasterInside (advanceRaster s) = true := by
  obtain ⟨hx, hy⟩ := rasterInside_iff.mp hin
  rw [advanceRaster_status hin] at h
  rw [rasterInside_iff, advanceRaster_x hin, advanceRaster_y hin, imgWidth_advanceRaster, imgHeight_advanceRaster]
  split at h
  · simp [statusFinish] at h
  · split <;> omega

end raster

/-! ### The plane cursor of Format A -/

section planes
variable {s : State} {n : Nat} (hin : planesInside n s = true) (hn : n ≤ 2048)
include hin hn

theorem planes_succ_j : (s.cur.j + 1).toNat = s.cur.j.toNat + 1 :=
  cursor_succ (by have := (planesInside_iff.mp hin).2.2; omega)

omit hn in
theorem planes_succ_y : (s.cur.y + 1).toNat = s.cur.y.toNat + 1 :=
  cursor_succ (by have := imgHeight_lt s; have := (planesInside_iff.mp hin).2.1; omega)

omit hn in
theorem planes_succ_p : (s.cur.p + 1).toNat = s.cur.p.toNat + 1 :=
  cursor_succ (by have := (planesInside_iff.mp hin).1; omega)

theorem advancePlanes_j : (advancePlanes n s).cur.j.toNat =
    if s.cur.j.toNat + 1 = n then 0 else s.cur.j.toNat + 1 := by
  unfold advancePlanes
  rw [planes_succ_j hin hn]
  split
  · split <;> simp
  · exact planes_succ_j hin hn

theorem advancePlanes_y : (advancePlanes n s).cur.y.toNat =
    if s.cur.j.toNat + 1 = n then (if s.cur.y.toNat + 1 = imgHeight s then 0 else s.cur.y.toNat + 1)
    else s.cur.y.toNat := by
  unfold advancePlanes
  rw [planes_succ_j hin hn, planes_succ_y hin]
  split
  · split
    · simp
    · exact planes_succ_y hin
  · rfl

theorem advancePlanes_p : (advancePlanes n s).cur.p.toNat =
    if s.cur.j.toNat + 1 = n ∧ s.cur.y.toNat + 1 = imgHeight s then s.cur.p.toNat + 1 else s.cur.p.toNat := by
  unfold advancePlanes
  rw [planes_succ_j hin hn, planes_succ_y hin]
  split
  · rename_i h
    split
    · rename_i h2
      simp only [finishIf_cur, h, h2, and_self, if_true]
      exact planes_succ_p hin
    · rename_i h2
      simp [h2]
  · rename_i h
    simp [h]

theorem advancePlanes_status : (advancePlanes n s).status =
    if s.cur.j.toNat + 1 = n ∧ s.cur.y.toNat + 1 = imgHeight s ∧ s.cur.p.toNat + 1 = 3
    then statusFinish s.status else s.status := by
  unfold advancePlanes
  rw [planes_succ_j hin hn, planes_succ_y hin, planes_succ_p hin]
  split
  · rename_i h
    split
    · rename_i h2
      simp [h, h2]
    · rename_i h2
      simp [h2]
  · rename_i h
    simp [h]

theorem planesPos_advance : planesPos n (advancePlanes n s) = planesPos n s + 1 := by
  unfold planesPos
  rw [advancePlanes_j hin hn, advancePlanes_y hin hn, advancePlanes_p hin hn, imgHeight_advancePlanes]
  by_cases h1 : s.cur.j.toNat + 1 = n
  · by_cases h2 : s.cur.y.toNat + 1 = imgHeight s
    · simp only [h1, h2, and_self, if_true]
      rw [← h2]
      generalize s.cur.j.toNat = j at *
      subst h1
      ring
    · simp only [h1, h2, and_false, if_true, if_false]
      generalize s.cur.j.toNat = j at *
      subst h1
      ring
  · simp only [h1, false_and, if_false]
    omega

omit hn in
theorem planesPos_lt : planesPos n s < 3 * imgHeight s * n := by
  obtain ⟨hp, hy, hj⟩ := planesInside_iff.mp hin
  unfold planesPos
  calc s.cur.p.toNat * imgHeight s * n + s.cur.y.toNat * n + s.cur.j.toNat
      < s.cur.p.toNat * imgHeight s * n + s.cur.y.toNat * n + n := by omega
    _ = s.cur.p.toNat * imgHeight s * n + (s.cur.y.toNat + 1) * n := by ring
    _ ≤ s.cur.p.toNat * imgHeight s * n + imgHeight s * n := Nat.add_le_add_left (Nat.mul_le_mul_right _ hy) _
    _ = (s.cur.p.toNat + 1) * (imgHeight s * n) := by ring
    _ ≤ 3 * (imgHeight s * n) := Nat.mul_le_mul_right _ hp
    _ = 3 * imgHeight s * n := by ring

omit hn in
/-- The last byte is the one whose successor position is 3 H n. -/
theorem planes_last_iff :
    (s.cur.j.toNat + 1 = n ∧ s.cur.y.toNat + 1 = imgHeight s ∧ s.cur.p.toNat + 1 = 3) ↔
      planesPos n s + 1 = 3 * imgHeight s * n := by
  obtain ⟨hp, hy, hj⟩ := planesInside_iff.mp hin
  unfold planesPos
  generalize s.cur.p.toNat = p at *
  generalize s.cur.y.toNat = y at *
  generalize s.cur.j.toNat = j at *
  generalize imgHeight s = H at *
  constructor
  · rintro ⟨h1, h2, h3⟩
    have : p = 2 := by omega
    subst this h1 h2
    ring
  · intro h
    have hrow : y * n + j + 1 ≤ H * n := by
      calc y * n + j + 1 ≤ y * n + n := by omega
        _ = (y + 1) * n := by ring
        _ ≤ H * n := Nat.mul_le_mul_right _ hy
    have hp2 : p = 2 := by
      by_contra hne
      have h1 : p * (H * n) ≤ 1 * (H * n) := Nat.mul_le_mul_right _ (by omega)
      have h2 : p * H * n = p * (H * n) := by ring
      have h3 : 3 * H * n = 3 * (H * n) := by ring
      have h4 : 0 < H * n := Nat.mul_pos (by omega) (by omega)
      omega
    subst hp2
    have h2 : 2 * H * n = 2 * (H * n) := by ring
    have h3 : 3 * H * n = 3 * (H * n) := by ring
    have hyH : y + 1 = H := by
      by_contra hne
      have h5 : (y + 2) * n ≤ H * n := Nat.mul_le_mul_right _ (by omega)
      have h6 : (y + 2) * n = y * n + n + n := by ring
      omega
    subst hyH
    have h7 : (y + 1) * n = y * n + n := by ring
    refine ⟨?_, rfl, rfl⟩
    omega

theorem advancePlanes_inside (h : (advancePlanes n s).status.busy = true) :
    planesInside n (advancePlanes n s) = true := by
  obtain ⟨hp, hy, hj⟩ := planesInside_iff.mp hin
  rw [advancePlanes_status hin hn] at h
  rw [planesInside_iff, advancePlanes_j hin hn, advancePlanes_y hin hn, advancePlanes_p hin hn,
    imgHeight_advancePlanes]
  by_cases h1 : s.cur.j.toNat + 1 = n
  · by_cases h2 : s.cur.y.toNat + 1 = imgHeight s
    · by_cases h3 : s.cur.p.toNat + 1 = 3
      · simp [h1, h2, h3, statusFinish] at h
      · simp only [h1, h2, and_self, if_true]
        omega
    · simp only [h1, h2, and_false, if_true, if_false]
      omega
  · simp only [h1, false_and, if_false]
    omega

end planes

/-! ### The group cursor of Format B -/

section groups
variable {s : State} (hin : groupsInside s = true)
include hin

theorem groups_succ_g : (s.cur.g + 1).toNat = s.cur.g.toNat + 1 :=
  cursor_succ (by
    have := imgWidth_lt s; have := (groupsInside_iff.mp hin).2; unfold groupsPerRow at this; omega)

theorem groups_succ_y : (s.cur.y + 1).toNat = s.cur.y.toNat + 1 :=
  cursor_succ (by have := imgHeight_lt s; have := (groupsInside_iff.mp hin).1; omega)

theorem advanceGroups_g : (advanceGroups s).cur.g.toNat =
    if s.cur.g.toNat + 1 = groupsPerRow s then 0 else s.cur.g.toNat + 1 := by
  unfold advanceGroups
  rw [groups_succ_g hin]
  split
  · simp
  · exact groups_succ_g hin

theorem advanceGroups_y : (advanceGroups s).cur.y.toNat =
    if s.cur.g.toNat + 1 = groupsPerRow s then s.cur.y.toNat + 1 else s.cur.y.toNat := by
  unfold advanceGroups
  rw [groups_succ_g hin]
  split
  · simp only [finishIf_cur]
    exact groups_succ_y hin
  · rfl

theorem advanceGroups_status : (advanceGroups s).status =
    if s.cur.g.toNat + 1 = groupsPerRow s ∧ s.cur.y.toNat + 1 = imgHeight s
    then statusFinish s.status else s.status := by
  unfold advanceGroups
  rw [groups_succ_g hin, groups_succ_y hin]
  split
  · rename_i h
    simp [h]
  · rename_i h
    simp [h]

theorem groupsPos_lt : groupsPos s < imgHeight s * groupsPerRow s := by
  obtain ⟨hy, hg⟩ := groupsInside_iff.mp hin
  unfold groupsPos
  calc s.cur.y.toNat * groupsPerRow s + s.cur.g.toNat < s.cur.y.toNat * groupsPerRow s + groupsPerRow s := by omega
    _ = (s.cur.y.toNat + 1) * groupsPerRow s := by ring
    _ ≤ imgHeight s * groupsPerRow s := Nat.mul_le_mul_right _ hy

omit hin in
@[simp] theorem groupsPerRow_advanceGroups (s : State) : groupsPerRow (advanceGroups s) = groupsPerRow s := by
  simp [groupsPerRow]

theorem groupsPos_advance : groupsPos (advanceGroups s) = groupsPos s + 1 := by
  unfold groupsPos
  rw [advanceGroups_g hin, advanceGroups_y hin, groupsPerRow_advanceGroups]
  split
  · rename_i h
    rw [← h]; ring
  · rfl

/-- The last group is the one whose successor position is H (W/4). -/
theorem groups_last_iff : (s.cur.g.toNat + 1 = groupsPerRow s ∧ s.cur.y.toNat + 1 = imgHeight s) ↔
    groupsPos s + 1 = imgHeight s * groupsPerRow s := by
  obtain ⟨hy, hg⟩ := groupsInside_iff.mp hin
  unfold groupsPos
  constructor
  · rintro ⟨h1, h2⟩
    rw [← h1, ← h2]; ring
  · intro h
    have hy1 : s.cur.y.toNat + 1 = imgHeight s := by
      by_contra hne
      have h3 : (s.cur.y.toNat + 2) * groupsPerRow s ≤ imgHeight s * groupsPerRow s :=
        Nat.mul_le_mul_right _ (by omega)
      have h5 : (s.cur.y.toNat + 2) * groupsPerRow s =
          s.cur.y.toNat * groupsPerRow s + groupsPerRow s + groupsPerRow s := by ring
      omega
    refine ⟨?_, hy1⟩
    have h6 : imgHeight s * groupsPerRow s = s.cur.y.toNat * groupsPerRow s + groupsPerRow s := by rw [← hy1]; ring
    omega

theorem advanceGroups_inside (h : (advanceGroups s).status.busy = true) : groupsInside (advanceGroups s) = true := by
  obtain ⟨hy, hg⟩ := groupsInside_iff.mp hin
  rw [advanceGroups_status hin] at h
  rw [groupsInside_iff, advanceGroups_g hin, advanceGroups_y hin, imgHeight_advanceGroups, groupsPerRow_advanceGroups]
  split at h
  · simp [statusFinish] at h
  · split <;> omega

end groups

/-! ### The row cursor of the assembly source -/

theorem lines_succ_y {s : State} (h : s.cur.y.toNat < imgHeight s) : (s.cur.y + 1).toNat = s.cur.y.toNat + 1 :=
  cursor_succ (by have := imgHeight_lt s; omega)

@[simp] theorem advanceLines_cur (s : State) : (advanceLines s).cur = { s.cur with y := s.cur.y + 1 } := by
  simp [advanceLines]

theorem advanceLines_status {s : State} (h : s.cur.y.toNat < imgHeight s) : (advanceLines s).status =
    if s.cur.y.toNat + 1 = imgHeight s then statusFinish s.status else s.status := by
  unfold advanceLines
  rw [lines_succ_y h]
  by_cases h2 : s.cur.y.toNat + 1 = imgHeight s <;> simp [h2]

end Sys2Proof.Laws
end

