-- ==== Sys2Proof/Laws/Ops.lean ====
section
/-! SUPPORT. One specification lemma per shared operation: everything it can answer, and what a read sees after a write. -/

namespace Sys2Proof.Laws

open Sys2Proof.Machine

/-! ### Shapes of a transition -/

theorem runCommand_busy {start one : State → Result} {s : State} (h : s.status.busy = true) :
    runCommand start one s = one s := by simp [runCommand, h]

theorem runCommand_idle {start one : State → Result} {s : State} (h : s.status.busy = false) :
    runCommand start one s = start s := by simp [runCommand, h]

/-- A CONVERT step answers exactly this next state, and only with the cursor inside the image. -/
theorem pixelStep_eq_next {px : State → State} {s t : State} :
    pixelStep px s = .next t ↔ rasterInside s = true ∧ t = advanceRaster (px s) := by
  unfold pixelStep
  split
  · rename_i h
    simp only [h, true_and, Host.Outcome.next.injEq]
    exact eq_comm
  · rename_i h
    simp [h]

/-- An ENCODE step answers exactly this next state, and only with room in ENC. -/
theorem emit_eq_next {cfg : Config} {bs : List Byte} {after : State → State} {s t : State} :
    emit cfg bs after s = .next t ↔
      s.encLen.toNat + bs.length ≤ cfg.encCap ∧ t = after (encAppendAll bs s) := by
  unfold emit
  split
  · rename_i h
    simp only [h, true_and, Host.Outcome.next.injEq]
    exact eq_comm
  · rename_i h
    simp [h]

/-- A CONVERT start answers exactly this next state under the tests of rule R56. -/
theorem startConvert_eq_next {cfg : Config} {alg : BitVec 3} {bd : BitVec 1} {t : BitVec 8} {da : BitVec 9} {s s' : State} :
    startConvert cfg alg bd t da s = .next s' ↔
      (imgWidth s ≠ 0 ∧ imgHeight s ≠ 0) ∧ ¬ (cfg.overRange = .refuse ∧ alg ≠ 0 ∧ da.toNat > 256) ∧
        s' = beginRaster (loadWork (latchConvert alg bd t da s)) := by
  unfold startConvert
  split
  · simp only [reduceCtorEq, false_iff]; tauto
  · split
    · simp only [reduceCtorEq, false_iff]; tauto
    · rename_i h1 h2
      constructor
      · intro h
        refine ⟨not_or.mp h1, h2, ?_⟩
        injection h with h
        exact h.symm
      · rintro ⟨-, -, rfl⟩
        rfl

/-- An ENCODE start answers exactly this next state under the tests of rule R56. -/
theorem startEncode_eq_next {op : BitVec 4} {bd tp : BitVec 1} {s s' : State} :
    startEncode op bd tp s = .next s' ↔
      (imgWidth s ≠ 0 ∧ imgHeight s ≠ 0) ∧ ¬ (op = 3 ∧ imgWidth s % 4 ≠ 0) ∧
        s' = beginEncode op (latchEncode op bd tp s) := by
  unfold startEncode
  split
  · simp only [reduceCtorEq, false_iff]; tauto
  · split
    · simp only [reduceCtorEq, false_iff]; tauto
    · rename_i h1 h2
      constructor
      · intro h
        refine ⟨not_or.mp h1, h2, ?_⟩
        injection h with h
        exact h.symm
      · rintro ⟨-, -, rfl⟩
        rfl

/-! ### Reads after writes -/

theorem outByte_writeOut (a b : Nat) (v : Byte) (s : State) :
    outByte (writeOut a v s) b = if b = a then v else outByte s b := by
  simp only [outByte, writeOut_out, writeOut_epoch, cellGet_put]
  split <;> rfl

theorem srcByte_writeSrc (a b : Nat) (v : Byte) (s : State) :
    srcByte (writeSrc a v s) b = if b = a then v else srcByte s b := by
  simp only [srcByte, writeSrc_src, writeSrc_epoch, cellGet_put]
  split <;> rfl

theorem workAt_writeWork (i j : Nat) (v : Rat) (s : State) :
    workAt (writeWork i v s) j = if j = i then v else workAt s j := by
  simp only [workAt, writeWork_work, writeWork_epoch, cellGet_put]
  split <;> rfl

theorem encByte_encAppend (b : Byte) (s : State) (a : Nat) :
    encByte (encAppend b s) a = if a = s.encLen.toNat then b else encByte s a := by
  simp only [encByte, encAppend_enc, encAppend_encGen, cellGet_put]
  split <;> rfl

/-- The four bytes of a pixel as any OUT address sees them. -/
theorem outByte_writePixel (r g b : Byte) (s : State) (a : Nat) :
    outByte (writePixel r g b s) a =
      if a = pixelAddr (imgWidth s) s.cur.x.toNat s.cur.y.toNat 0 then r
      else if a = pixelAddr (imgWidth s) s.cur.x.toNat s.cur.y.toNat 1 then g
      else if a = pixelAddr (imgWidth s) s.cur.x.toNat s.cur.y.toNat 2 then b
      else if a = pixelAddr (imgWidth s) s.cur.x.toNat s.cur.y.toNat 3 then 255
      else outByte s a := by
  have d : ∀ i j : Nat, i ≠ j → pixelAddr (imgWidth s) s.cur.x.toNat s.cur.y.toNat i ≠
      pixelAddr (imgWidth s) s.cur.x.toNat s.cur.y.toNat j := by
    intro i j h; unfold pixelAddr; omega
  simp only [writePixel, outByte_writeOut]
  by_cases h0 : a = pixelAddr (imgWidth s) s.cur.x.toNat s.cur.y.toNat 0
  · subst h0; simp [d]
  by_cases h1 : a = pixelAddr (imgWidth s) s.cur.x.toNat s.cur.y.toNat 1
  · subst h1; simp [d]
  by_cases h2 : a = pixelAddr (imgWidth s) s.cur.x.toNat s.cur.y.toNat 2
  · subst h2; simp [d]
  simp [h0, h1, h2]

/-- The elements right after an initialisation of WORK hold the SRC channels (R56, R86). -/
theorem workAt_loadWork {s : State} (h : s.par.alg = 1 ∨ s.par.alg = 2) {i : Nat}
    (hi : i < 3 * (imgWidth s * imgHeight s)) :
    workAt (loadWork s) i =
      byteRat (srcByte s (4 * (i % (imgWidth s * imgHeight s)) + i / (imgWidth s * imgHeight s))) := by
  simp only [workAt, loadWork_work, h, if_true, initialWork, cellGet_rangeMap, hi, loadWork_epoch]
  rfl

/-! ### Appending to ENC -/

theorem encAppend_encLen_toNat (b : Byte) (s : State) (h : s.encLen.toNat + 1 < 2 ^ 32) :
    (encAppend b s).encLen.toNat = s.encLen.toNat + 1 := by
  simp only [encAppend_encLen, BitVec.toNat_add]
  simp
  omega

theorem encAppendAll_encLen_toNat (bs : List Byte) (s : State) (h : s.encLen.toNat + bs.length < 2 ^ 32) :
    (encAppendAll bs s).encLen.toNat = s.encLen.toNat + bs.length := by
  induction bs generalizing s with
  | nil => rfl
  | cons b bs ih =>
    simp only [List.length_cons] at h
    have h1 := encAppend_encLen_toNat b s (by omega)
    rw [encAppendAll, ih _ (by omega), h1, List.length_cons]
    omega

/-- The appended bytes stand at the append address in order, and no other ENC byte changes. -/
theorem encByte_encAppendAll (bs : List Byte) (s : State) (h : s.encLen.toNat + bs.length < 2 ^ 32) (a : Nat) :
    encByte (encAppendAll bs s) a =
      if s.encLen.toNat ≤ a then (bs[a - s.encLen.toNat]?).getD (encByte s a) else encByte s a := by
  induction bs generalizing s with
  | nil => simp [encAppendAll]
  | cons b bs ih =>
    simp only [List.length_cons] at h
    have h1 := encAppend_encLen_toNat b s (by omega)
    rw [encAppendAll, ih _ (by omega), h1, encByte_encAppend]
    by_cases h2 : s.encLen.toNat = a
    · subst h2; simp
    · by_cases h3 : s.encLen.toNat ≤ a
      · have h4 : s.encLen.toNat + 1 ≤ a := by omega
        obtain ⟨k, hk⟩ := Nat.exists_eq_add_of_le h4
        subst hk
        have e1 : s.encLen.toNat + 1 + k - s.encLen.toNat = k + 1 := by omega
        have e2 : s.encLen.toNat + 1 + k - (s.encLen.toNat + 1) = k := by omega
        have e3 : ¬ s.encLen.toNat + 1 + k = s.encLen.toNat := by omega
        simp [e1, e2, e3, h3]
      · have h4 : ¬ s.encLen.toNat + 1 ≤ a := by omega
        simp [h3, h4, Ne.symm h2]

/-- ENC stays exactly filled up to ENC_LEN (R19). -/
theorem encAppendAll_filled (bs : List Byte) (s : State) (h : s.encLen.toNat + bs.length < 2 ^ 32)
    (hf : s.enc.map Prod.fst = List.range s.encLen.toNat) :
    (encAppendAll bs s).enc.map Prod.fst = List.range (encAppendAll bs s).encLen.toNat := by
  induction bs generalizing s with
  | nil => exact hf
  | cons b bs ih =>
    simp only [List.length_cons] at h
    have h1 := encAppend_encLen_toNat b s (by omega)
    refine ih _ (by omega) ?_
    rw [h1, encAppend_enc, cellPut_above, List.map_append, hf, List.range_succ]
    · rfl
    · intro p hp
      have : p.1 ∈ s.enc.map Prod.fst := List.mem_map_of_mem hp
      rw [hf] at this
      exact List.mem_range.mp this

/-- Appending keeps the canonical form of ENC. -/
theorem encAppendAll_wf (bs : List Byte) (s : State) (h : Memory.wf s.enc) : Memory.wf (encAppendAll bs s).enc := by
  induction bs generalizing s with
  | nil => exact h
  | cons b bs ih => exact ih _ (cellPut_rising _ _ h)

/-- A filled ENC is canonical. -/
theorem filled_wf {m : Memory} {n : Nat} (h : m.map Prod.fst = List.range n) : Memory.wf m := by
  have : (m.map Prod.fst).Pairwise (· < ·) := h ▸ List.pairwise_lt_range
  exact List.pairwise_map.mp this

/-! ### Addresses -/

/-- Two pixel bytes inside one image are one byte only if they are the same channel of the same pixel (R35). -/
theorem pixelAddr_inj {w x y c x' y' c' : Nat} (hx : x < w) (hx' : x' < w) (hc : c < 4) (hc' : c' < 4)
    (h : pixelAddr w x y c = pixelAddr w x' y' c') : x = x' ∧ y = y' ∧ c = c' := by
  unfold pixelAddr at h
  have e : y * w + x = y' * w + x' := by omega
  have hcc : c = c' := by omega
  have hy : y = y' := by
    have h1 : (y * w + x) / w = y := by
      rw [Nat.mul_comm, Nat.mul_add_div (by omega), Nat.div_eq_of_lt hx, Nat.add_zero]
    have h2 : (y' * w + x') / w = y' := by
      rw [Nat.mul_comm, Nat.mul_add_div (by omega), Nat.div_eq_of_lt hx', Nat.add_zero]
    rw [← h1, ← h2, e]
  subst hy
  omega

/-- Two WORK elements inside one image share an index only if they are the same element (R35). -/
theorem workIdx_inj {w h c x y c' x' y' : Nat} (hx : x < w) (hx' : x' < w) (hy : y < h) (hy' : y' < h)
    (e : workIdx w h c x y = workIdx w h c' x' y') : c = c' ∧ x = x' ∧ y = y' := by
  unfold workIdx at e
  have b : ∀ {x y : Nat}, x < w → y < h → y * w + x < w * h := by
    intro x y hx hy
    calc y * w + x < y * w + w := by omega
      _ = (y + 1) * w := by ring
      _ ≤ h * w := Nat.mul_le_mul_right _ hy
      _ = w * h := Nat.mul_comm _ _
  have key : ∀ {c x y : Nat}, x < w → y < h → (c * w * h + y * w + x) / (w * h) = c ∧
      (c * w * h + y * w + x) % (w * h) = y * w + x := by
    intro c x y hx hy
    have hb := b hx hy
    have e1 : c * w * h + y * w + x = (y * w + x) + (w * h) * c := by ring
    rw [e1]
    constructor
    · rw [Nat.add_mul_div_left _ _ (by omega), Nat.div_eq_of_lt hb]; omega
    · rw [Nat.add_mul_mod_self_left, Nat.mod_eq_of_lt hb]
  have k1 := key (c := c) hx hy
  have k2 := key (c := c') hx' hy'
  rw [e] at k1
  have hc : c = c' := k1.1.symm.trans k2.1
  have hp : y * w + x = y' * w + x' := k1.2.symm.trans k2.2
  have h3 := pixelAddr_inj (c := 0) (c' := 0) hx hx' (by omega) (by omega) (y := y) (y' := y') (by unfold pixelAddr; omega)
  exact ⟨hc, h3.1, h3.2.1⟩

/-- A WORK element inside the image, at the start of an FS or ATK command, is its SRC channel (R56). -/
theorem workChan_loadWork {s : State} (h : s.par.alg = 1 ∨ s.par.alg = 2) {c x y : Nat} (hc : c < 3)
    (hx : x < imgWidth s) (hy : y < imgHeight s) :
    workChan (loadWork s) c x y = byteRat (srcChan s x y c) := by
  have hb : y * imgWidth s + x < imgWidth s * imgHeight s := by
    calc y * imgWidth s + x < y * imgWidth s + imgWidth s := by omega
      _ = (y + 1) * imgWidth s := by ring
      _ ≤ imgHeight s * imgWidth s := Nat.mul_le_mul_right _ hy
      _ = imgWidth s * imgHeight s := Nat.mul_comm _ _
  have e : workIdx (imgWidth s) (imgHeight s) c x y = (y * imgWidth s + x) + (imgWidth s * imgHeight s) * c := by
    unfold workIdx; ring
  have hlt : workIdx (imgWidth s) (imgHeight s) c x y < 3 * (imgWidth s * imgHeight s) := by
    have : (imgWidth s * imgHeight s) * c ≤ (imgWidth s * imgHeight s) * 2 := Nat.mul_le_mul_left _ (by omega)
    omega
  unfold workChan
  rw [imgWidth_loadWork, imgHeight_loadWork, workAt_loadWork h hlt, e]
  rw [Nat.add_mul_mod_self_left, Nat.mod_eq_of_lt hb, Nat.add_mul_div_left _ _ (by omega), Nat.div_eq_of_lt hb]
  simp [srcChan, pixelAddr]

end Sys2Proof.Laws
end

