-- ==== Sys2Proof/Laws/StateDiffusion.lean ====
section
/-! SUPPORT. The fields that the error-diffusion operations leave alone. -/

namespace Sys2Proof.Laws

open Sys2Proof.Machine

/-! ### addError -/

@[simp] theorem addError_cmd (c x y : Nat) (e : Rat) (tg : Target) (s : State) : (addError c x y e tg s).cmd = s.cmd :=
  by unfold addError; split <;> rfl
@[simp] theorem addError_status (c x y : Nat) (e : Rat) (tg : Target) (s : State) : (addError c x y e tg s).status = s.status :=
  by unfold addError; split <;> rfl
@[simp] theorem addError_imgW (c x y : Nat) (e : Rat) (tg : Target) (s : State) : (addError c x y e tg s).imgW = s.imgW :=
  by unfold addError; split <;> rfl
@[simp] theorem addError_imgH (c x y : Nat) (e : Rat) (tg : Target) (s : State) : (addError c x y e tg s).imgH = s.imgH :=
  by unfold addError; split <;> rfl
@[simp] theorem addError_encLen (c x y : Nat) (e : Rat) (tg : Target) (s : State) : (addError c x y e tg s).encLen = s.encLen :=
  by unfold addError; split <;> rfl
@[simp] theorem addError_par (c x y : Nat) (e : Rat) (tg : Target) (s : State) : (addError c x y e tg s).par = s.par :=
  by unfold addError; split <;> rfl
@[simp] theorem addError_cur (c x y : Nat) (e : Rat) (tg : Target) (s : State) : (addError c x y e tg s).cur = s.cur :=
  by unfold addError; split <;> rfl
@[simp] theorem addError_src (c x y : Nat) (e : Rat) (tg : Target) (s : State) : (addError c x y e tg s).src = s.src :=
  by unfold addError; split <;> rfl
@[simp] theorem addError_out (c x y : Nat) (e : Rat) (tg : Target) (s : State) : (addError c x y e tg s).out = s.out :=
  by unfold addError; split <;> rfl
@[simp] theorem addError_enc (c x y : Nat) (e : Rat) (tg : Target) (s : State) : (addError c x y e tg s).enc = s.enc :=
  by unfold addError; split <;> rfl
@[simp] theorem addError_port (c x y : Nat) (e : Rat) (tg : Target) (s : State) : (addError c x y e tg s).port = s.port :=
  by unfold addError; split <;> rfl
@[simp] theorem addError_epoch (c x y : Nat) (e : Rat) (tg : Target) (s : State) : (addError c x y e tg s).epoch = s.epoch :=
  by unfold addError; split <;> rfl
@[simp] theorem addError_encGen (c x y : Nat) (e : Rat) (tg : Target) (s : State) : (addError c x y e tg s).encGen = s.encGen :=
  by unfold addError; split <;> rfl
@[simp] theorem imgWidth_addError (c x y : Nat) (e : Rat) (tg : Target) (s : State) : imgWidth (addError c x y e tg s) = imgWidth s :=
  by simp [imgWidth]
@[simp] theorem imgHeight_addError (c x y : Nat) (e : Rat) (tg : Target) (s : State) : imgHeight (addError c x y e tg s) = imgHeight s :=
  by simp [imgHeight]
@[simp] theorem srcByte_addError (c x y : Nat) (e : Rat) (tg : Target) (s : State) (a' : Nat) : srcByte (addError c x y e tg s) a' = srcByte s a' :=
  by simp [srcByte]
@[simp] theorem outByte_addError (c x y : Nat) (e : Rat) (tg : Target) (s : State) (a' : Nat) : outByte (addError c x y e tg s) a' = outByte s a' :=
  by simp [outByte]
@[simp] theorem encByte_addError (c x y : Nat) (e : Rat) (tg : Target) (s : State) (a' : Nat) : encByte (addError c x y e tg s) a' = encByte s a' :=
  by simp [encByte]
@[simp] theorem srcChan_addError (c x y : Nat) (e : Rat) (tg : Target) (s : State) (x' y' c' : Nat) : srcChan (addError c x y e tg s) x' y' c' = srcChan s x' y' c' :=
  by simp [srcChan]
@[simp] theorem outChan_addError (c x y : Nat) (e : Rat) (tg : Target) (s : State) (x' y' c' : Nat) : outChan (addError c x y e tg s) x' y' c' = outChan s x' y' c' :=
  by simp [outChan]

/-! ### diffuse -/

@[simp] theorem diffuse_cmd (c x y : Nat) (e : Rat) (tgs : List Target) (s : State) : (diffuse c x y e tgs s).cmd = s.cmd := by
  induction tgs generalizing s with
  | nil => rfl
  | cons tg tgs ih => exact (ih _).trans (by simp)
@[simp] theorem diffuse_status (c x y : Nat) (e : Rat) (tgs : List Target) (s : State) : (diffuse c x y e tgs s).status = s.status := by
  induction tgs generalizing s with
  | nil => rfl
  | cons tg tgs ih => exact (ih _).trans (by simp)
@[simp] theorem diffuse_imgW (c x y : Nat) (e : Rat) (tgs : List Target) (s : State) : (diffuse c x y e tgs s).imgW = s.imgW := by
  induction tgs generalizing s with
  | nil => rfl
  | cons tg tgs ih => exact (ih _).trans (by simp)
@[simp] theorem diffuse_imgH (c x y : Nat) (e : Rat) (tgs : List Target) (s : State) : (diffuse c x y e tgs s).imgH = s.imgH := by
  induction tgs generalizing s with
  | nil => rfl
  | cons tg tgs ih => exact (ih _).trans (by simp)
@[simp] theorem diffuse_encLen (c x y : Nat) (e : Rat) (tgs : List Target) (s : State) : (diffuse c x y e tgs s).encLen = s.encLen := by
  induction tgs generalizing s with
  | nil => rfl
  | cons tg tgs ih => exact (ih _).trans (by simp)
@[simp] theorem diffuse_par (c x y : Nat) (e : Rat) (tgs : List Target) (s : State) : (diffuse c x y e tgs s).par = s.par := by
  induction tgs generalizing s with
  | nil => rfl
  | cons tg tgs ih => exact (ih _).trans (by simp)
@[simp] theorem diffuse_cur (c x y : Nat) (e : Rat) (tgs : List Target) (s : State) : (diffuse c x y e tgs s).cur = s.cur := by
  induction tgs generalizing s with
  | nil => rfl
  | cons tg tgs ih => exact (ih _).trans (by simp)
@[simp] theorem diffuse_src (c x y : Nat) (e : Rat) (tgs : List Target) (s : State) : (diffuse c x y e tgs s).src = s.src := by
  induction tgs generalizing s with
  | nil => rfl
  | cons tg tgs ih => exact (ih _).trans (by simp)
@[simp] theorem diffuse_out (c x y : Nat) (e : Rat) (tgs : List Target) (s : State) : (diffuse c x y e tgs s).out = s.out := by
  induction tgs generalizing s with
  | nil => rfl
  | cons tg tgs ih => exact (ih _).trans (by simp)
@[simp] theorem diffuse_enc (c x y : Nat) (e : Rat) (tgs : List Target) (s : State) : (diffuse c x y e tgs s).enc = s.enc := by
  induction tgs generalizing s with
  | nil => rfl
  | cons tg tgs ih => exact (ih _).trans (by simp)
@[simp] theorem diffuse_port (c x y : Nat) (e : Rat) (tgs : List Target) (s : State) : (diffuse c x y e tgs s).port = s.port := by
  induction tgs generalizing s with
  | nil => rfl
  | cons tg tgs ih => exact (ih _).trans (by simp)
@[simp] theorem diffuse_epoch (c x y : Nat) (e : Rat) (tgs : List Target) (s : State) : (diffuse c x y e tgs s).epoch = s.epoch := by
  induction tgs generalizing s with
  | nil => rfl
  | cons tg tgs ih => exact (ih _).trans (by simp)
@[simp] theorem diffuse_encGen (c x y : Nat) (e : Rat) (tgs : List Target) (s : State) : (diffuse c x y e tgs s).encGen = s.encGen := by
  induction tgs generalizing s with
  | nil => rfl
  | cons tg tgs ih => exact (ih _).trans (by simp)
@[simp] theorem imgWidth_diffuse (c x y : Nat) (e : Rat) (tgs : List Target) (s : State) : imgWidth (diffuse c x y e tgs s) = imgWidth s :=
  by simp [imgWidth]
@[simp] theorem imgHeight_diffuse (c x y : Nat) (e : Rat) (tgs : List Target) (s : State) : imgHeight (diffuse c x y e tgs s) = imgHeight s :=
  by simp [imgHeight]
@[simp] theorem srcByte_diffuse (c x y : Nat) (e : Rat) (tgs : List Target) (s : State) (a' : Nat) : srcByte (diffuse c x y e tgs s) a' = srcByte s a' :=
  by simp [srcByte]
@[simp] theorem outByte_diffuse (c x y : Nat) (e : Rat) (tgs : List Target) (s : State) (a' : Nat) : outByte (diffuse c x y e tgs s) a' = outByte s a' :=
  by simp [outByte]
@[simp] theorem encByte_diffuse (c x y : Nat) (e : Rat) (tgs : List Target) (s : State) (a' : Nat) : encByte (diffuse c x y e tgs s) a' = encByte s a' :=
  by simp [encByte]
@[simp] theorem srcChan_diffuse (c x y : Nat) (e : Rat) (tgs : List Target) (s : State) (x' y' c' : Nat) : srcChan (diffuse c x y e tgs s) x' y' c' = srcChan s x' y' c' :=
  by simp [srcChan]
@[simp] theorem outChan_diffuse (c x y : Nat) (e : Rat) (tgs : List Target) (s : State) (x' y' c' : Nat) : outChan (diffuse c x y e tgs s) x' y' c' = outChan s x' y' c' :=
  by simp [outChan]

/-! ### edChannel -/

@[simp] theorem edChannel_cmd (cfg : Config) (k : Kernel) (bd : BitVec 1) (c : Nat) (s : State) : (edChannel cfg k bd c s).cmd = s.cmd :=
  by unfold edChannel; simp
@[simp] theorem edChannel_status (cfg : Config) (k : Kernel) (bd : BitVec 1) (c : Nat) (s : State) : (edChannel cfg k bd c s).status = s.status :=
  by unfold edChannel; simp
@[simp] theorem edChannel_imgW (cfg : Config) (k : Kernel) (bd : BitVec 1) (c : Nat) (s : State) : (edChannel cfg k bd c s).imgW = s.imgW :=
  by unfold edChannel; simp
@[simp] theorem edChannel_imgH (cfg : Config) (k : Kernel) (bd : BitVec 1) (c : Nat) (s : State) : (edChannel cfg k bd c s).imgH = s.imgH :=
  by unfold edChannel; simp
@[simp] theorem edChannel_encLen (cfg : Config) (k : Kernel) (bd : BitVec 1) (c : Nat) (s : State) : (edChannel cfg k bd c s).encLen = s.encLen :=
  by unfold edChannel; simp
@[simp] theorem edChannel_par (cfg : Config) (k : Kernel) (bd : BitVec 1) (c : Nat) (s : State) : (edChannel cfg k bd c s).par = s.par :=
  by unfold edChannel; simp
@[simp] theorem edChannel_cur (cfg : Config) (k : Kernel) (bd : BitVec 1) (c : Nat) (s : State) : (edChannel cfg k bd c s).cur = s.cur :=
  by unfold edChannel; simp
@[simp] theorem edChannel_src (cfg : Config) (k : Kernel) (bd : BitVec 1) (c : Nat) (s : State) : (edChannel cfg k bd c s).src = s.src :=
  by unfold edChannel; simp
@[simp] theorem edChannel_enc (cfg : Config) (k : Kernel) (bd : BitVec 1) (c : Nat) (s : State) : (edChannel cfg k bd c s).enc = s.enc :=
  by unfold edChannel; simp
@[simp] theorem edChannel_port (cfg : Config) (k : Kernel) (bd : BitVec 1) (c : Nat) (s : State) : (edChannel cfg k bd c s).port = s.port :=
  by unfold edChannel; simp
@[simp] theorem edChannel_epoch (cfg : Config) (k : Kernel) (bd : BitVec 1) (c : Nat) (s : State) : (edChannel cfg k bd c s).epoch = s.epoch :=
  by unfold edChannel; simp
@[simp] theorem edChannel_encGen (cfg : Config) (k : Kernel) (bd : BitVec 1) (c : Nat) (s : State) : (edChannel cfg k bd c s).encGen = s.encGen :=
  by unfold edChannel; simp
@[simp] theorem imgWidth_edChannel (cfg : Config) (k : Kernel) (bd : BitVec 1) (c : Nat) (s : State) : imgWidth (edChannel cfg k bd c s) = imgWidth s :=
  by simp [imgWidth]
@[simp] theorem imgHeight_edChannel (cfg : Config) (k : Kernel) (bd : BitVec 1) (c : Nat) (s : State) : imgHeight (edChannel cfg k bd c s) = imgHeight s :=
  by simp [imgHeight]
@[simp] theorem srcByte_edChannel (cfg : Config) (k : Kernel) (bd : BitVec 1) (c : Nat) (s : State) (a' : Nat) : srcByte (edChannel cfg k bd c s) a' = srcByte s a' :=
  by simp [srcByte]
@[simp] theorem encByte_edChannel (cfg : Config) (k : Kernel) (bd : BitVec 1) (c : Nat) (s : State) (a' : Nat) : encByte (edChannel cfg k bd c s) a' = encByte s a' :=
  by simp [encByte]
@[simp] theorem srcChan_edChannel (cfg : Config) (k : Kernel) (bd : BitVec 1) (c : Nat) (s : State) (x' y' c' : Nat) : srcChan (edChannel cfg k bd c s) x' y' c' = srcChan s x' y' c' :=
  by simp [srcChan]

/-! ### edPixel -/

@[simp] theorem edPixel_cmd (cfg : Config) (k : Kernel) (bd : BitVec 1) (s : State) : (edPixel cfg k bd s).cmd = s.cmd :=
  by unfold edPixel; simp
@[simp] theorem edPixel_status (cfg : Config) (k : Kernel) (bd : BitVec 1) (s : State) : (edPixel cfg k bd s).status = s.status :=
  by unfold edPixel; simp
@[simp] theorem edPixel_imgW (cfg : Config) (k : Kernel) (bd : BitVec 1) (s : State) : (edPixel cfg k bd s).imgW = s.imgW :=
  by unfold edPixel; simp
@[simp] theorem edPixel_imgH (cfg : Config) (k : Kernel) (bd : BitVec 1) (s : State) : (edPixel cfg k bd s).imgH = s.imgH :=
  by unfold edPixel; simp
@[simp] theorem edPixel_encLen (cfg : Config) (k : Kernel) (bd : BitVec 1) (s : State) : (edPixel cfg k bd s).encLen = s.encLen :=
  by unfold edPixel; simp
@[simp] theorem edPixel_par (cfg : Config) (k : Kernel) (bd : BitVec 1) (s : State) : (edPixel cfg k bd s).par = s.par :=
  by unfold edPixel; simp
@[simp] theorem edPixel_cur (cfg : Config) (k : Kernel) (bd : BitVec 1) (s : State) : (edPixel cfg k bd s).cur = s.cur :=
  by unfold edPixel; simp
@[simp] theorem edPixel_src (cfg : Config) (k : Kernel) (bd : BitVec 1) (s : State) : (edPixel cfg k bd s).src = s.src :=
  by unfold edPixel; simp
@[simp] theorem edPixel_enc (cfg : Config) (k : Kernel) (bd : BitVec 1) (s : State) : (edPixel cfg k bd s).enc = s.enc :=
  by unfold edPixel; simp
@[simp] theorem edPixel_port (cfg : Config) (k : Kernel) (bd : BitVec 1) (s : State) : (edPixel cfg k bd s).port = s.port :=
  by unfold edPixel; simp
@[simp] theorem edPixel_epoch (cfg : Config) (k : Kernel) (bd : BitVec 1) (s : State) : (edPixel cfg k bd s).epoch = s.epoch :=
  by unfold edPixel; simp
@[simp] theorem edPixel_encGen (cfg : Config) (k : Kernel) (bd : BitVec 1) (s : State) : (edPixel cfg k bd s).encGen = s.encGen :=
  by unfold edPixel; simp
@[simp] theorem imgWidth_edPixel (cfg : Config) (k : Kernel) (bd : BitVec 1) (s : State) : imgWidth (edPixel cfg k bd s) = imgWidth s :=
  by simp [imgWidth]
@[simp] theorem imgHeight_edPixel (cfg : Config) (k : Kernel) (bd : BitVec 1) (s : State) : imgHeight (edPixel cfg k bd s) = imgHeight s :=
  by simp [imgHeight]
@[simp] theorem srcByte_edPixel (cfg : Config) (k : Kernel) (bd : BitVec 1) (s : State) (a' : Nat) : srcByte (edPixel cfg k bd s) a' = srcByte s a' :=
  by simp [srcByte]
@[simp] theorem encByte_edPixel (cfg : Config) (k : Kernel) (bd : BitVec 1) (s : State) (a' : Nat) : encByte (edPixel cfg k bd s) a' = encByte s a' :=
  by simp [encByte]
@[simp] theorem srcChan_edPixel (cfg : Config) (k : Kernel) (bd : BitVec 1) (s : State) (x' y' c' : Nat) : srcChan (edPixel cfg k bd s) x' y' c' = srcChan s x' y' c' :=
  by simp [srcChan]

end Sys2Proof.Laws
end

