-- ==== Sys2Proof/Laws/Diffusion.lean ====
section
/-! SUPPORT. What an error-diffusion step does to OUT and WORK, said once (41_error_diffusion_engine.md R85, R94, R98). -/

namespace Sys2Proof.Laws

open Sys2Proof.Machine

/-- One contribution, as any element inside the image sees it. -/
theorem workChan_addError {c x y : Nat} (e : Rat) (tg : Target) (s : State) {c' x' y' : Nat}
    (hx : x' < imgWidth s) (hy : y' < imgHeight s) :
    workChan (addError c x y e tg s) c' x' y' = workChan s c' x' y' +
      (if c' = c ∧ (x' : Int) = x + tg.dx ∧ (y' : Int) = y + tg.dy then e * tg.wt else 0) := by
  unfold addError neighbour
  split
  · rename_i a b heq
    split at heq
    · rename_i hin
      injection heq with heq
      injection heq with ha hb
      have hax : a < imgWidth s := by omega
      have hby : b < imgHeight s := by omega
      unfold workChan
      rw [imgWidth_writeWork, imgHeight_writeWork, workAt_writeWork]
      by_cases h : c' = c ∧ (x' : Int) = x + tg.dx ∧ (y' : Int) = y + tg.dy
      · obtain ⟨rfl, h1, h2⟩ := h
        have e1 : a = x' := by omega
        have e2 : b = y' := by omega
        subst e1 e2
        simp [h1, h2]
      · rw [if_neg h, add_zero, if_neg]
        intro heq2
        obtain ⟨h1, h2, h3⟩ := workIdx_inj hx hax hy hby heq2
        apply h
        refine ⟨h1, ?_, ?_⟩ <;> omega
    · cases heq
  · rename_i heq
    split at heq
    · cases heq
    · rename_i hout
      rw [if_neg, add_zero]
      rintro ⟨-, h1, h2⟩
      apply hout
      omega

/-- The contributions of one channel: e times the kernel's weight, in that channel's plane alone. -/
theorem workChan_diffuse {c x y : Nat} (e : Rat) (k : Kernel) (s : State) {c' x' y' : Nat}
    (hx : x' < imgWidth s) (hy : y' < imgHeight s) :
    workChan (diffuse c x y e (kernelTargets k) s) c' x' y' =
      workChan s c' x' y' + (if c' = c then e * weightAt k x y x' y' else 0) := by
  cases k
  · simp only [kernelTargets, diffuse]
    rw [workChan_addError _ _ _ (by simpa using hx) (by simpa using hy),
      workChan_addError _ _ _ (by simpa using hx) (by simpa using hy),
      workChan_addError _ _ _ (by simpa using hx) (by simpa using hy),
      workChan_addError _ _ _ hx hy]
    by_cases hc : c' = c
    · simp only [hc, true_and, if_true, weightAt]
      split_ifs <;> first | omega | ring
    · simp [hc]
  · simp only [kernelTargets, diffuse]
    rw [workChan_addError _ _ _ (by simpa using hx) (by simpa using hy),
      workChan_addError _ _ _ (by simpa using hx) (by simpa using hy),
      workChan_addError _ _ _ (by simpa using hx) (by simpa using hy),
      workChan_addError _ _ _ (by simpa using hx) (by simpa using hy),
      workChan_addError _ _ _ (by simpa using hx) (by simpa using hy),
      workChan_addError _ _ _ hx hy]
    by_cases hc : c' = c
    · simp only [hc, true_and, if_true, weightAt]
      split_ifs <;> first | omega | ring
    · simp [hc]

/-- One channel of the step, as any WORK element inside the image sees it. -/
theorem workChan_edChannel (cfg : Config) (k : Kernel) (bd : BitVec 1) (c : Nat) (s : State) {c' x' y' : Nat}
    (hx : x' < imgWidth s) (hy : y' < imgHeight s) :
    workChan (edChannel cfg k bd c s) c' x' y' = workChan s c' x' y' +
      (if c' = c then edError cfg k bd s c * weightAt k s.cur.x.toNat s.cur.y.toNat x' y' else 0) := by
  unfold edChannel
  rw [workChan_diffuse _ _ _ (by simpa using hx) (by simpa using hy)]
  simp

theorem outByte_edChannel (cfg : Config) (k : Kernel) (bd : BitVec 1) (c : Nat) (s : State) (a : Nat) :
    outByte (edChannel cfg k bd c s) a =
      if a = pixelAddr (imgWidth s) s.cur.x.toNat s.cur.y.toNat c then edLevel cfg bd s c else outByte s a := by
  unfold edChannel
  rw [outByte_diffuse, outByte_writeOut]

/-- A channel's level does not depend on the other channels' work (R94). -/
theorem edLevel_edChannel (cfg : Config) (k : Kernel) (bd bd' : BitVec 1) {c c' : Nat} (s : State) (h : c' ≠ c)
    (hin : rasterInside s = true) : edLevel cfg bd' (edChannel cfg k bd c s) c' = edLevel cfg bd' s c' := by
  simp only [rasterInside, Bool.and_eq_true, decide_eq_true_eq] at hin
  unfold edLevel edValue
  rw [edChannel_cur, workChan_edChannel _ _ _ _ _ hin.1 hin.2]
  simp [h]

theorem edError_edChannel (cfg : Config) (k k' : Kernel) (bd bd' : BitVec 1) {c c' : Nat} (s : State) (h : c' ≠ c)
    (hin : rasterInside s = true) : edError cfg k' bd' (edChannel cfg k bd c s) c' = edError cfg k' bd' s c' := by
  unfold edError
  rw [edLevel_edChannel cfg k bd bd' s h hin]
  simp only [rasterInside, Bool.and_eq_true, decide_eq_true_eq] at hin
  unfold edValue
  rw [edChannel_cur, workChan_edChannel _ _ _ _ _ hin.1 hin.2]
  simp [h]

@[simp] theorem rasterInside_edChannel (cfg : Config) (k : Kernel) (bd : BitVec 1) (c : Nat) (s : State) :
    rasterInside (edChannel cfg k bd c s) = rasterInside s := by simp [rasterInside]

/-- The whole step, as any WORK element inside the image sees it: each plane gets its own error times the kernel's weight. -/
theorem workChan_edPixel (cfg : Config) (k : Kernel) (bd : BitVec 1) (s : State) (hin : rasterInside s = true)
    {c x y : Nat} (hc : c < 3) (hx : x < imgWidth s) (hy : y < imgHeight s) :
    workChan (edPixel cfg k bd s) c x y =
      workChan s c x y + edError cfg k bd s c * weightAt k s.cur.x.toNat s.cur.y.toNat x y := by
  unfold edPixel
  rw [workChan_writeOut, workChan_edChannel _ _ _ _ _ (by simpa using hx) (by simpa using hy),
    workChan_edChannel _ _ _ _ _ (by simpa using hx) (by simpa using hy), workChan_edChannel _ _ _ _ _ hx hy]
  rw [edError_edChannel _ _ _ _ _ _ (by decide) hin, edError_edChannel _ _ _ _ _ _ (by decide) (by simpa using hin),
    edError_edChannel _ _ _ _ _ _ (by decide) hin]
  simp only [edChannel_cur]
  have : c = 0 ∨ c = 1 ∨ c = 2 := by omega
  rcases this with rfl | rfl | rfl <;> simp

/-- The whole step, as any OUT byte sees it. -/
theorem outByte_edPixel (cfg : Config) (k : Kernel) (bd : BitVec 1) (s : State) (hin : rasterInside s = true) (a : Nat) :
    outByte (edPixel cfg k bd s) a =
      if a = pixelAddr (imgWidth s) s.cur.x.toNat s.cur.y.toNat 0 then edLevel cfg bd s 0
      else if a = pixelAddr (imgWidth s) s.cur.x.toNat s.cur.y.toNat 1 then edLevel cfg bd s 1
      else if a = pixelAddr (imgWidth s) s.cur.x.toNat s.cur.y.toNat 2 then edLevel cfg bd s 2
      else if a = pixelAddr (imgWidth s) s.cur.x.toNat s.cur.y.toNat 3 then 255
      else outByte s a := by
  have d : ∀ i j : Nat, i ≠ j → pixelAddr (imgWidth s) s.cur.x.toNat s.cur.y.toNat i ≠
      pixelAddr (imgWidth s) s.cur.x.toNat s.cur.y.toNat j := by
    intro i j h; unfold pixelAddr; omega
  unfold edPixel
  rw [outByte_writeOut, outByte_edChannel, outByte_edChannel, outByte_edChannel]
  rw [edLevel_edChannel _ _ _ _ _ (by decide) (by simpa using hin), edLevel_edChannel _ _ _ _ _ (by decide) hin,
    edLevel_edChannel _ _ _ _ _ (by decide) hin]
  simp only [edChannel_cur, imgWidth_edChannel]
  by_cases h0 : a = pixelAddr (imgWidth s) s.cur.x.toNat s.cur.y.toNat 0
  · subst h0; simp [d]
  by_cases h1 : a = pixelAddr (imgWidth s) s.cur.x.toNat s.cur.y.toNat 1
  · subst h1; simp [d]
  by_cases h2 : a = pixelAddr (imgWidth s) s.cur.x.toNat s.cur.y.toNat 2
  · subst h2; simp [d]
  simp [h0, h1, h2]

/-- An element of WORK inside the image has an index below 3 W H (R35). -/
theorem workIdx_lt {w h c x y : Nat} (hc : c < 3) (hx : x < w) (hy : y < h) : workIdx w h c x y < 3 * w * h := by
  unfold workIdx
  calc c * w * h + y * w + x < c * w * h + y * w + w := by omega
    _ = c * w * h + (y + 1) * w := by ring
    _ ≤ c * w * h + h * w := Nat.add_le_add_left (Nat.mul_le_mul_right _ hy) _
    _ = (c + 1) * (w * h) := by ring
    _ ≤ 3 * (w * h) := Nat.mul_le_mul_right _ hc
    _ = 3 * w * h := by ring

theorem neighbour_inside {w h x y : Nat} {dx dy : Int} {x' y' : Nat} (e : neighbour w h x y dx dy = some (x', y')) :
    x' < w ∧ y' < h := by
  unfold neighbour at e
  split at e
  · cases e; omega
  · cases e

/-- No contribution reaches an index at or above 3 W H. -/
theorem workAt_diffuse_beyond {c : Nat} (hc : c < 3) (x y : Nat) (e : Rat) (tgs : List Target) (s : State) {n : Nat}
    (hn : 3 * imgWidth s * imgHeight s ≤ n) : workAt (diffuse c x y e tgs s) n = workAt s n := by
  induction tgs generalizing s with
  | nil => rfl
  | cons tg tgs ih =>
    rw [diffuse, ih _ (by simpa using hn)]
    unfold addError
    split
    · rename_i x' y' he
      have hin := neighbour_inside he
      have hlt := workIdx_lt hc hin.1 hin.2
      rw [workAt_writeWork, if_neg (by omega)]
    · rfl

theorem workAt_edPixel_beyond (cfg : Config) (k : Kernel) (bd : BitVec 1) (s : State) {n : Nat}
    (hn : 3 * imgWidth s * imgHeight s ≤ n) : workAt (edPixel cfg k bd s) n = workAt s n := by
  have hwrite : ∀ (a : Nat) (v : Byte) (s : State), workAt (writeOut a v s) n = workAt s n := by
    intros; simp [workAt]
  have step : ∀ (c : Nat) (s : State), c < 3 → 3 * imgWidth s * imgHeight s ≤ n →
      workAt (edChannel cfg k bd c s) n = workAt s n := by
    intro c s hc hn
    unfold edChannel
    rw [workAt_diffuse_beyond hc _ _ _ _ _ (by simpa using hn), hwrite]
  unfold edPixel
  rw [hwrite, step 2 _ (by omega) (by simpa using hn), step 1 _ (by omega) (by simpa using hn), step 0 _ (by omega) hn]

/-- The WORK list stays canonical. -/
theorem diffuse_wf (c x y : Nat) (e : Rat) (tgs : List Target) (s : State) (h : WorkSpace.wf s.work) :
    WorkSpace.wf (diffuse c x y e tgs s).work := by
  induction tgs generalizing s with
  | nil => exact h
  | cons tg tgs ih =>
    refine ih _ ?_
    unfold addError
    split
    · exact cellPut_rising _ _ h
    · exact h

theorem edPixel_work_wf (cfg : Config) (k : Kernel) (bd : BitVec 1) (s : State) (h : WorkSpace.wf s.work) :
    WorkSpace.wf (edPixel cfg k bd s).work := by
  have step : ∀ (c : Nat) (s : State), WorkSpace.wf s.work → WorkSpace.wf (edChannel cfg k bd c s).work := by
    intro c s h
    exact diffuse_wf _ _ _ _ _ _ h
  exact step 2 _ (step 1 _ (step 0 _ h))

theorem edPixel_out_wf (cfg : Config) (k : Kernel) (bd : BitVec 1) (s : State) (h : Memory.wf s.out) :
    Memory.wf (edPixel cfg k bd s).out := by
  have step : ∀ (c : Nat) (s : State), Memory.wf s.out → Memory.wf (edChannel cfg k bd c s).out := by
    intro c s h
    unfold edChannel
    rw [diffuse_out]
    exact cellPut_rising _ _ h
  exact cellPut_rising _ _ (step 2 _ (step 1 _ (step 0 _ h)))

theorem writePixel_out_wf (r g b : Byte) (s : State) (h : Memory.wf s.out) : Memory.wf (writePixel r g b s).out :=
  cellPut_rising _ _ (cellPut_rising _ _ (cellPut_rising _ _ (cellPut_rising _ _ h)))

end Sys2Proof.Laws
end

