-- ==== Sys2Proof/Laws/Encoding.lean ====
section
/-! SUPPORT. The fields of a laid-out word read back (30_encoding.md R51, R52), and a word as its fields laid out. -/

namespace Sys2Proof.Laws

/-! ### Format C -/

@[simp] theorem fieldOpc_formatC (alg : BitVec 3) (bd : BitVec 1) (t : BitVec 8) (da : BitVec 9) :
    fieldOpc (formatC alg bd t da) = 1 := by
  unfold fieldOpc formatC
  apply BitVec.eq_of_getLsbD_eq
  intro i hi
  simp only [BitVec.getLsbD_extractLsb', BitVec.getLsbD_append]
  interval_cases i <;> simp

@[simp] theorem fieldAlg_formatC (alg : BitVec 3) (bd : BitVec 1) (t : BitVec 8) (da : BitVec 9) :
    fieldAlg (formatC alg bd t da) = alg := by
  unfold fieldAlg formatC
  apply BitVec.eq_of_getLsbD_eq
  intro i hi
  simp only [BitVec.getLsbD_extractLsb', BitVec.getLsbD_append]
  interval_cases i <;> simp

@[simp] theorem fieldBd_formatC (alg : BitVec 3) (bd : BitVec 1) (t : BitVec 8) (da : BitVec 9) :
    fieldBd (formatC alg bd t da) = bd := by
  unfold fieldBd formatC
  apply BitVec.eq_of_getLsbD_eq
  intro i hi
  simp only [BitVec.getLsbD_extractLsb', BitVec.getLsbD_append]
  interval_cases i
  simp

@[simp] theorem fieldT_formatC (alg : BitVec 3) (bd : BitVec 1) (t : BitVec 8) (da : BitVec 9) :
    fieldT (formatC alg bd t da) = t := by
  unfold fieldT formatC
  apply BitVec.eq_of_getLsbD_eq
  intro i hi
  simp only [BitVec.getLsbD_extractLsb', BitVec.getLsbD_append]
  interval_cases i <;> simp

@[simp] theorem fieldZeroC_formatC (alg : BitVec 3) (bd : BitVec 1) (t : BitVec 8) (da : BitVec 9) :
    fieldZeroC (formatC alg bd t da) = 0 := by
  unfold fieldZeroC formatC
  apply BitVec.eq_of_getLsbD_eq
  intro i hi
  simp only [BitVec.getLsbD_extractLsb', BitVec.getLsbD_append]
  interval_cases i <;> simp

@[simp] theorem fieldDa_formatC (alg : BitVec 3) (bd : BitVec 1) (t : BitVec 8) (da : BitVec 9) :
    fieldDa (formatC alg bd t da) = da := by
  unfold fieldDa formatC
  apply BitVec.eq_of_getLsbD_eq
  intro i hi
  simp only [BitVec.getLsbD_extractLsb', BitVec.getLsbD_append]
  interval_cases i <;> simp

/-- A word with OPC 1 and a clear zero field is its own fields laid out. -/
theorem formatC_fields (w : Word) (hOpc : fieldOpc w = 1) (hZero : fieldZeroC w = 0) :
    formatC (fieldAlg w) (fieldBd w) (fieldT w) (fieldDa w) = w := by
  have e : w = fieldOpc w ++ fieldAlg w ++ fieldBd w ++ fieldT w ++ fieldZeroC w ++ fieldDa w := by
    unfold fieldOpc fieldAlg fieldBd fieldT fieldZeroC fieldDa
    apply BitVec.eq_of_getLsbD_eq
    intro i hi
    simp only [BitVec.getLsbD_append, BitVec.getLsbD_extractLsb']
    interval_cases i <;> simp
  rw [hOpc, hZero] at e
  exact e.symm

/-! ### Format E -/

@[simp] theorem fieldOpc_formatE (opc : BitVec 4) (bd tp : BitVec 1) :
    fieldOpc (formatE opc bd tp) = opc := by
  unfold fieldOpc formatE
  apply BitVec.eq_of_getLsbD_eq
  intro i hi
  simp only [BitVec.getLsbD_extractLsb', BitVec.getLsbD_append]
  interval_cases i <;> simp

@[simp] theorem fieldAlg_formatE (opc : BitVec 4) (bd tp : BitVec 1) :
    fieldAlg (formatE opc bd tp) = 0 := by
  unfold fieldAlg formatE
  apply BitVec.eq_of_getLsbD_eq
  intro i hi
  simp only [BitVec.getLsbD_extractLsb', BitVec.getLsbD_append]
  interval_cases i <;> simp

@[simp] theorem fieldBd_formatE (opc : BitVec 4) (bd tp : BitVec 1) :
    fieldBd (formatE opc bd tp) = bd := by
  unfold fieldBd formatE
  apply BitVec.eq_of_getLsbD_eq
  intro i hi
  simp only [BitVec.getLsbD_extractLsb', BitVec.getLsbD_append]
  interval_cases i
  simp

@[simp] theorem fieldZeroE_formatE (opc : BitVec 4) (bd tp : BitVec 1) :
    fieldZeroE (formatE opc bd tp) = 0 := by
  unfold fieldZeroE formatE
  apply BitVec.eq_of_getLsbD_eq
  intro i hi
  simp only [BitVec.getLsbD_extractLsb', BitVec.getLsbD_append]
  interval_cases i <;> simp

@[simp] theorem fieldTp_formatE (opc : BitVec 4) (bd tp : BitVec 1) :
    fieldTp (formatE opc bd tp) = tp := by
  unfold fieldTp formatE
  apply BitVec.eq_of_getLsbD_eq
  intro i hi
  simp only [BitVec.getLsbD_extractLsb', BitVec.getLsbD_append]
  interval_cases i
  simp

/-- A word with both zero fields of Format E clear is its own fields laid out. -/
theorem formatE_fields (w : Word) (hZero : formatEZero w = true) :
    formatE (fieldOpc w) (fieldBd w) (fieldTp w) = w := by
  have hAlg : fieldAlg w = 0 := by simp [formatEZero] at hZero; exact hZero.1
  have hLow : fieldZeroE w = 0 := by simp [formatEZero] at hZero; exact hZero.2
  have e : w = fieldOpc w ++ fieldAlg w ++ fieldBd w ++ fieldZeroE w ++ fieldTp w := by
    unfold fieldOpc fieldAlg fieldBd fieldZeroE fieldTp
    apply BitVec.eq_of_getLsbD_eq
    intro i hi
    simp only [BitVec.getLsbD_append, BitVec.getLsbD_extractLsb']
    interval_cases i <;> simp
  rw [hAlg, hLow] at e
  exact e.symm

end Sys2Proof.Laws
end

