-- ==== Sys2Proof/Laws/Numbers.lean ====
section
/-! SUPPORT. The arithmetic of 00_scope.md R8 in the library's own words: clamping as minimum and maximum, flooring a quotient of
numbers, and the range of a channel byte. -/

namespace Sys2Proof.Laws

open Sys2Proof.Machine

theorem clampR_eq_max_min (v : Rat) {lo hi : Rat} (h : lo ≤ hi) : clampR v lo hi = max lo (min hi v) := by
  unfold clampR
  split
  · rename_i h1
    rw [max_eq_left ((min_le_right _ _).trans h1.le)]
  · rename_i h1
    split
    · rename_i h2
      rw [min_eq_left h2.le, max_eq_right h]
    · rename_i h2
      rw [min_eq_right (not_lt.mp h2), max_eq_right (not_lt.mp h1)]

theorem le_clampR (v : Rat) {lo hi : Rat} (h : lo ≤ hi) : lo ≤ clampR v lo hi := by
  rw [clampR_eq_max_min v h]
  exact le_max_left _ _

theorem clampR_le (v : Rat) {lo hi : Rat} (h : lo ≤ hi) : clampR v lo hi ≤ hi := by
  rw [clampR_eq_max_min v h]
  exact max_le h (min_le_left _ _)

/-- The floor of a quotient of natural numbers is the integer quotient. -/
theorem floor_natDiv (a b : Nat) : Rat.floor ((a : Rat) / (b : Rat)) = ((a / b : Nat) : Int) := by
  change ⌊((a : Int) : Rat) / (b : Rat)⌋ = _
  rw [Rat.floor_intCast_div_natCast]
  rfl

theorem byteRat_nonneg (b : Byte) : 0 ≤ byteRat b := by
  unfold byteRat
  positivity

theorem byteRat_le (b : Byte) : byteRat b ≤ 255 := by
  unfold byteRat
  have := b.isLt
  norm_cast
  omega

/-- A byte is not changed by clamping to the byte range. -/
theorem clampR_byteRat (b : Byte) : clampR (byteRat b) 0 255 = byteRat b := by
  rw [clampR_eq_max_min _ (by norm_num), min_eq_right (byteRat_le b), max_eq_right (byteRat_nonneg b)]

end Sys2Proof.Laws
end

