-- ==== Sys2Proof/Laws/PerInstr.lean ====
section
/-! SUPPORT. Per command: its word has the match bits of its row of 30_encoding.md rule R53 under the row's mask. -/

namespace Sys2Proof.Laws.RowMatch

/-- The match column of rule R53 for a command. -/
def rowBits : Instr → Word
  | .thr1 _ _ => 0x10000000
  | .thr2 _ _ => 0x11000000
  | .fs1 _ _ => 0x12000000
  | .fs2 _ _ => 0x13000000
  | .atk1 _ _ => 0x14000000
  | .atk2 _ _ => 0x15000000
  | .ord2_1 _ _ => 0x16000000
  | .ord2_2 _ _ => 0x17000000
  | .ord4_1 _ _ => 0x18000000
  | .ord4_2 _ _ => 0x19000000
  | .ord8_1 _ _ => 0x1A000000
  | .ord8_2 _ _ => 0x1B000000
  | .enca1 => 0x20000000
  | .enca2 => 0x21000000
  | .encb1p => 0x30000000
  | .encb2p => 0x30000001
  | .encasm1p => 0x40000000
  | .encasm2p => 0x40000001

/-- The mask column of rule R53 for a command. -/
def rowMask : Instr → Word
  | .thr1 _ _ => 0xFF00FE00
  | .thr2 _ _ => 0xFF00FE00
  | .fs1 _ _ => 0xFF00FE00
  | .fs2 _ _ => 0xFF00FE00
  | .atk1 _ _ => 0xFF00FE00
  | .atk2 _ _ => 0xFF00FE00
  | .ord2_1 _ _ => 0xFF00FE00
  | .ord2_2 _ _ => 0xFF00FE00
  | .ord4_1 _ _ => 0xFF00FE00
  | .ord4_2 _ _ => 0xFF00FE00
  | .ord8_1 _ _ => 0xFF00FE00
  | .ord8_2 _ _ => 0xFF00FE00
  | .enca1 => 0xFFFFFFFF
  | .enca2 => 0xFFFFFFFF
  | .encb1p => 0xFFFFFFFF
  | .encb2p => 0xFFFFFFFF
  | .encasm1p => 0xFFFFFFFF
  | .encasm2p => 0xFFFFFFFF

/-- The encoded word matches the command's own row. -/
def Statement (i : Instr) : Prop := encode i &&& rowMask i = rowBits i

/-- The fixed bits of Format C: OPC, ALG, BD and the zero field, whatever the two operands are. -/
theorem formatC_masked (alg : BitVec 3) (bd : BitVec 1) (t : BitVec 8) (da : BitVec 9) :
    formatC alg bd t da &&& 0xFF00FE00 = formatC alg bd 0 0 := by
  unfold formatC
  apply BitVec.eq_of_getLsbD_eq
  intro i hi
  simp only [BitVec.getLsbD_and, BitVec.getLsbD_append]
  interval_cases i <;> simp

theorem thr1 (t : BitVec 8) (da : BitVec 9) : Statement (.thr1 t da) := formatC_masked _ _ _ _

theorem thr2 (t : BitVec 8) (da : BitVec 9) : Statement (.thr2 t da) := formatC_masked _ _ _ _

theorem fs1 (t : BitVec 8) (da : BitVec 9) : Statement (.fs1 t da) := formatC_masked _ _ _ _

theorem fs2 (t : BitVec 8) (da : BitVec 9) : Statement (.fs2 t da) := formatC_masked _ _ _ _

theorem atk1 (t : BitVec 8) (da : BitVec 9) : Statement (.atk1 t da) := formatC_masked _ _ _ _

theorem atk2 (t : BitVec 8) (da : BitVec 9) : Statement (.atk2 t da) := formatC_masked _ _ _ _

theorem ord2_1 (t : BitVec 8) (da : BitVec 9) : Statement (.ord2_1 t da) := formatC_masked _ _ _ _

theorem ord2_2 (t : BitVec 8) (da : BitVec 9) : Statement (.ord2_2 t da) := formatC_masked _ _ _ _

theorem ord4_1 (t : BitVec 8) (da : BitVec 9) : Statement (.ord4_1 t da) := formatC_masked _ _ _ _

theorem ord4_2 (t : BitVec 8) (da : BitVec 9) : Statement (.ord4_2 t da) := formatC_masked _ _ _ _

theorem ord8_1 (t : BitVec 8) (da : BitVec 9) : Statement (.ord8_1 t da) := formatC_masked _ _ _ _

theorem ord8_2 (t : BitVec 8) (da : BitVec 9) : Statement (.ord8_2 t da) := formatC_masked _ _ _ _

theorem enca1 : Statement .enca1 := by
  unfold Statement
  decide

theorem enca2 : Statement .enca2 := by
  unfold Statement
  decide

theorem encb1p : Statement .encb1p := by
  unfold Statement
  decide

theorem encb2p : Statement .encb2p := by
  unfold Statement
  decide

theorem encasm1p : Statement .encasm1p := by
  unfold Statement
  decide

theorem encasm2p : Statement .encasm2p := by
  unfold Statement
  decide

end Sys2Proof.Laws.RowMatch
end

