-- ==== Sys2Proof/Laws/Text.lean ====
section
/-! SUPPORT. The text of ENCASM: the decimal digits, the joined tokens, and the lengths of a token and of a row line
(44_nibble_palette_encoder.md R135 to R137). -/

namespace Sys2Proof.Laws

open Sys2Proof.Machine

/-- The digits of a number as `Nat.digits` gives them, in front of what follows. -/
theorem decDigits_eq (fuel n : Nat) (h : n < fuel) (acc : List Byte) :
    decDigits fuel n acc = (if n = 0 then [0x30] else
      (Nat.digits 10 n).reverse.map (fun d => BitVec.ofNat 8 (0x30 + d))) ++ acc := by
  induction fuel generalizing n acc with
  | zero => omega
  | succ f ih =>
    unfold decDigits
    split
    · rename_i h10
      interval_cases n <;> simp
    · rename_i h10
      have h1 : n / 10 ≠ 0 := by omega
      have h2 : n ≠ 0 := by omega
      rw [ih _ (by omega)]
      simp only [h1, h2, if_false]
      rw [Nat.digits_def' (by omega) (by omega : 0 < n)]
      simp

theorem decText_eq (n : Nat) : decText n =
    if n = 0 then [0x30] else (Nat.digits 10 n).reverse.map (fun d => BitVec.ofNat 8 (0x30 + d)) := by
  unfold decText
  rw [decDigits_eq _ _ (by omega), List.append_nil]

/-- A dimension has at most four digits. -/
theorem decText_length_le {n : Nat} (h : n < 4096) : (decText n).length ≤ 4 := by
  rw [decText_eq]
  split
  · simp
  · rw [List.length_map, List.length_reverse]
    exact Nat.digits_length_le_iff (by omega) n |>.mpr (by omega)

/-- Tokens with single commas between them. -/
theorem joinTokens_eq (l : List Byte) : joinTokens l = List.intercalate [0x2C] (l.map tokenText) := by
  induction l with
  | nil => rfl
  | cons b bs ih =>
    cases bs with
    | nil => simp [joinTokens, List.intercalate]
    | cons c cs =>
      simp only [joinTokens, ih]
      simp [List.intercalate]

/-- The tokens of a row, group by group. -/
theorem rowTokens_eq (cfg : Config) (twoPlan : Bool) (s : State) (y n : Nat) : rowTokens cfg twoPlan s y n =
    (List.range n).flatMap (fun g =>
      if twoPlan then [token1 cfg s y g, token2 cfg s y g] else [token2 cfg s y g]) := by
  induction n with
  | zero => rfl
  | succ n ih =>
    rw [rowTokens, ih, List.range_succ, List.flatMap_append]
    simp

theorem tokenText_length (b : Byte) : (tokenText b).length = 9 := by simp [tokenText]

theorem joinTokens_length (l : List Byte) : (joinTokens l).length = 10 * l.length - 1 := by
  induction l with
  | nil => rfl
  | cons b bs ih =>
    cases bs with
    | nil => simp [joinTokens, tokenText_length]
    | cons c cs =>
      simp only [joinTokens, List.length_append, List.length_cons, ih, tokenText_length] at *
      omega

theorem rowTokens_length (cfg : Config) (twoPlan : Bool) (s : State) (y n : Nat) :
    (rowTokens cfg twoPlan s y n).length = n * (if twoPlan then 2 else 1) := by
  induction n with
  | zero => simp [rowTokens]
  | succ n ih =>
    rw [rowTokens, List.length_append, ih]
    cases twoPlan <;> simp
    omega

/-- A row line of at least one group has 10 n + 6 bytes for n tokens (R136). -/
theorem rowLine_length (cfg : Config) (twoPlan : Bool) (s : State) (y : Nat) (h : 4 ≤ imgWidth s) :
    (rowLine cfg twoPlan s y).length = 10 * (groupsPerRow s * (if twoPlan then 2 else 1)) + 6 := by
  unfold rowLine
  simp only [List.length_append, joinTokens_length, rowTokens_length, groupsPerRow, List.length_cons, List.length_nil]
  cases twoPlan <;> simp <;> omega

theorem headerText_length (s : State) :
    (headerText s).length = 21 + (decText (imgHeight s)).length + (decText (imgWidth s)).length := by
  simp only [headerText, heightText, widthText, List.length_append, List.length_cons, List.length_nil]
  omega

end Sys2Proof.Laws
end

