-- ==== Sys2Proof/WellFormed.lean ====
section
/-! DEFINITION. Which commands have their parameters inside the ranges the spec calls legal (60_exceptions.md R147). Every field
fits its width by its type, so the one check is the range of ditherAmount. -/

namespace Sys2Proof

/-- The ditherAmount field is in 0..256, that is d is in [0,1] (R54, R147). -/
def daInRange (da : BitVec 9) : Bool := decide (da.toNat ≤ 256)

/-- The parameters are inside QLC's documented ranges. THR.1 and THR.2 ignore DAMOUNT and are legal with any value of it (R54);
FS, ATK and ORD need DAMOUNT at most 256 (R147); an ENCODE command has no parameter. -/
def WellFormed : Instr → Bool
  | .thr1 _ _ => true
  | .thr2 _ _ => true
  | .fs1 _ da => daInRange da
  | .fs2 _ da => daInRange da
  | .atk1 _ da => daInRange da
  | .atk2 _ da => daInRange da
  | .ord2_1 _ da => daInRange da
  | .ord2_2 _ da => daInRange da
  | .ord4_1 _ da => daInRange da
  | .ord4_2 _ da => daInRange da
  | .ord8_1 _ da => daInRange da
  | .ord8_2 _ da => daInRange da
  | .enca1 => true
  | .enca2 => true
  | .encb1p => true
  | .encb2p => true
  | .encasm1p => true
  | .encasm2p => true

end Sys2Proof
end

