-- ==== Sys2Proof/Tests/Slice0.lean ====
section
/-! SUPPORT. Small tests of the model against spec/95_test_vectors.md, a smoke test of WellFormed, and for every statement with
hypotheses a concrete state and operands that meet them. -/

namespace Sys2Proof.Tests

open Sys2Proof.Machine Sys2Proof.Claims

set_option Elab.async false

/-! ### States for the tests -/

/-- Bytes at the addresses 0, 1, ... -/
def bytesAt (l : List Nat) : Memory := (List.range l.length).zip (l.map (BitVec.ofNat 8))

/-- An idle machine with an image. -/
def idle (w h : Nat) (src out : List Nat) : State :=
  { State.reset with imgW := BitVec.ofNat 12 w, imgH := BitVec.ofNat 12 h, src := bytesAt src, out := bytesAt out }

/-- Grey pixels, with an alpha byte of 7. -/
def grey (l : List Nat) : List Nat := l.flatMap (fun v => [v, v, v, 7])

/-- A machine that executes a command, at a raster position. -/
def busyAt (i : Instr) (x y : Nat) (s : State) : State :=
  let par := match convertFields i, encodeFields i with
    | some (alg, bd, t, da), _ => (⟨1, alg, bd, t, da, 0⟩ : Params)
    | none, some (op, bd, tp) => ⟨op, 0, bd, 0, 0, tp⟩
    | none, none => s.par
  { s with status := statusStart, par := par, cmd := latchedWord par,
           cur := { s.cur with x := BitVec.ofNat 13 x, y := BitVec.ofNat 13 y } }

/-- An ENCA position. -/
def atPlane (p y j : Nat) (s : State) : State :=
  { s with cur := { s.cur with p := BitVec.ofNat 13 p, y := BitVec.ofNat 13 y, j := BitVec.ofNat 13 j } }

/-- ENC with the given bytes appended so far. -/
def withEnc (l : List Nat) (s : State) : State := { s with enc := bytesAt l, encLen := BitVec.ofNat 32 l.length }

/-- The host's move as the next turn. -/
def hostTurn (m : HostMove) (s : State) : State := { s with port := ⟨[.host m], 0⟩ }

/-- The three planes of WORK, each with the same elements. -/
def greyWork (l : List Rat) : WorkSpace :=
  (List.range (3 * l.length)).map (fun i => (i, (l[i % l.length]?).getD 0))

/-- The next state of an answer. -/
def nextOf : Result → Option State
  | .next t => some t
  | .fault _ => none
  | .refused _ => none

theorem next_of_isSome (r : Result) (h : (nextOf r).isSome = true) : ∃ t, r = .next t := by
  cases r with
  | next t => exact ⟨t, rfl⟩
  | fault _ => simp [nextOf] at h
  | refused _ => simp [nextOf] at h

/-- A test of the next state. -/
def after (r : Result) (p : State → Bool) : Bool := (nextOf r).any p

/-- The four bytes of an OUT pixel. -/
def outPixel (s : State) (x y : Nat) : List Nat := (List.range 4).map (fun c => (outChan s x y c).toNat)

/-- The bytes ENC lists. -/
def encBytes (s : State) : List Nat := s.enc.map (fun p => p.2.toNat)

/-! ### WellFormed: each check refuses an ill-formed command (R147: DAMOUNT over 256) -/

theorem test_wellFormed_refuses_fs1 : WellFormed (.fs1 0 257) = false ∧ WellFormed (.fs1 0 256) = true := by decide

theorem test_wellFormed_refuses_fs2 : WellFormed (.fs2 0 257) = false ∧ WellFormed (.fs2 0 256) = true := by decide

theorem test_wellFormed_refuses_atk1 : WellFormed (.atk1 0 257) = false ∧ WellFormed (.atk1 0 256) = true := by decide

theorem test_wellFormed_refuses_atk2 : WellFormed (.atk2 0 257) = false ∧ WellFormed (.atk2 0 256) = true := by decide

theorem test_wellFormed_refuses_ord2_1 : WellFormed (.ord2_1 0 257) = false ∧ WellFormed (.ord2_1 0 256) = true := by decide

theorem test_wellFormed_refuses_ord2_2 : WellFormed (.ord2_2 0 257) = false ∧ WellFormed (.ord2_2 0 256) = true := by decide

theorem test_wellFormed_refuses_ord4_1 : WellFormed (.ord4_1 0 257) = false ∧ WellFormed (.ord4_1 0 256) = true := by decide

theorem test_wellFormed_refuses_ord4_2 : WellFormed (.ord4_2 0 257) = false ∧ WellFormed (.ord4_2 0 256) = true := by decide

theorem test_wellFormed_refuses_ord8_1 : WellFormed (.ord8_1 0 257) = false ∧ WellFormed (.ord8_1 0 256) = true := by decide

theorem test_wellFormed_refuses_ord8_2 : WellFormed (.ord8_2 0 257) = false ∧ WellFormed (.ord8_2 0 256) = true := by decide

theorem test_wellFormed_thr_any_amount : WellFormed (.thr1 0 511) = true ∧ WellFormed (.thr2 0 511) = true := by decide

/-! ### Decoding: words written out bit by bit from rules R51 to R53 (OPC ALG BD THRESHOLD zero DAMOUNT, or OPC zero BD zero TP) -/

theorem test_decode_thr1 : decode 0b0001_000_0_01101111_0000000_010010001 = .ok (.thr1 111 145) := rfl

theorem test_decode_thr2 : decode 0b0001_000_1_10010100_0000000_010101110 = .ok (.thr2 148 174) := rfl

theorem test_decode_fs1 : decode 0b0001_001_0_10111001_0000000_011001011 = .ok (.fs1 185 203) := rfl

theorem test_decode_fs2 : decode 0b0001_001_1_11011110_0000000_011101000 = .ok (.fs2 222 232) := rfl

theorem test_decode_atk1 : decode 0b0001_010_0_00000011_0000000_000000100 = .ok (.atk1 3 4) := rfl

theorem test_decode_atk2 : decode 0b0001_010_1_00101000_0000000_000100001 = .ok (.atk2 40 33) := rfl

theorem test_decode_ord2_1 : decode 0b0001_011_0_01001101_0000000_000111110 = .ok (.ord2_1 77 62) := rfl

theorem test_decode_ord2_2 : decode 0b0001_011_1_01110010_0000000_001011011 = .ok (.ord2_2 114 91) := rfl

theorem test_decode_ord4_1 : decode 0b0001_100_0_10010111_0000000_001111000 = .ok (.ord4_1 151 120) := rfl

theorem test_decode_ord4_2 : decode 0b0001_100_1_10111100_0000000_010010101 = .ok (.ord4_2 188 149) := rfl

theorem test_decode_ord8_1 : decode 0b0001_101_0_11100001_0000000_010110010 = .ok (.ord8_1 225 178) := rfl

theorem test_decode_ord8_2 : decode 0b0001_101_1_00000110_0000000_011001111 = .ok (.ord8_2 6 207) := rfl

theorem test_decode_enca1 : decode 0b0010_000_0_00000000000000000000000_0 = .ok .enca1 := rfl

theorem test_decode_enca2 : decode 0b0010_000_1_00000000000000000000000_0 = .ok .enca2 := rfl

theorem test_decode_encb1p : decode 0b0011_000_0_00000000000000000000000_0 = .ok .encb1p := rfl

theorem test_decode_encb2p : decode 0b0011_000_0_00000000000000000000000_1 = .ok .encb2p := rfl

theorem test_decode_encasm1p : decode 0b0100_000_0_00000000000000000000000_0 = .ok .encasm1p := rfl

theorem test_decode_encasm2p : decode 0b0100_000_0_00000000000000000000000_1 = .ok .encasm2p := rfl

/-- The reserved words of V-ENC-2. -/
theorem test_reserved_words : ([0x00000000, 0x50000000, 0xFFFFFFFF, 0x1C000000, 0x1E800100, 0x10000200, 0x10808000, 0x20000001, 0x22000000,
      0x31000000, 0x41000001, 0x30000002] : List Word).all (fun w => (decode w).toOption.isNone) = true := by decide

theorem test_table_word : decodeTableWord 32 0x13800100 = some (.fs2 128 256) := by decide

/-! ### The quantizer, the modifier and the text, as functions -/

/-- V-Q-1. -/
theorem test_q1_rationals : q1 (127 + 249 / 250) 128 = 0 ∧ q1 (575 / 4) 128 = 255 ∧ q1 (-5) 0 = 0 := by decide +kernel

/-- V-Q-2. -/
theorem test_cutoffs : cutoffs hwConfig 129 = ⟨129 / 2, 129, 192⟩ ∧ cutoffs hwConfig 255 = ⟨127, 255, 255⟩ ∧
    cutoffs hwConfig 254 = ⟨127, 254, 509 / 2⟩ := by decide +kernel

/-- V-Q-6. -/
theorem test_cutoff_floor : q2 hwConfig 64 129 = 0 ∧ q2 { hwConfig with cutoffDiv := .floor } 64 129 = 85 ∧ q2 hwConfig 191 128 = 170 ∧
    q2 { hwConfig with cutoffDiv := .floor } 191 128 = 255 := by decide +kernel

/-- V-ED-9. -/
theorem test_readout :
    readout hwConfig (-385 / 16) = 0 ∧ readout { hwConfig with readout := .raw } (-385 / 16) = -385 / 16 := by decide +kernel

/-- V-OD-1, V-OD-7, V-OD-8. -/
theorem test_modifier :
    bayerMod 32 8 85 200 = 33 ∧ bayerMod 63 8 255 256 = 251 ∧ bayerMod 63 8 85 256 = 83 ∧ bayerMod 3 2 255 100 = 74 := by decide +kernel

/-- R137. -/
theorem test_decText : decText 0 = ascii "0" ∧ decText 10 = ascii "10" ∧ decText 4095 = ascii "4095" := by decide +kernel

/-- V-AS-1, under either setting of `PAL_HIGH_INCLUSIVE`. -/
theorem test_row_line_two_planes : ∀ b : Bool, rowLine { hwConfig with palHighInclusive := b } true
    (idle 4 1 [] [255, 255, 255, 0, 0, 0, 0, 0, 255, 255, 255, 0, 0, 0, 0, 0]) 0 =
      ascii "\tdc.b\t%10001000,%11001100\n" := by decide +kernel

/-- V-AS-3. -/
theorem test_row_line_levels : rowLine { hwConfig with palHighInclusive := false } true
    (idle 4 1 [] [0, 85, 170, 1, 85, 170, 255, 1, 170, 255, 0, 1, 255, 0, 85, 1]) 0 = ascii "\tdc.b\t%00101000,%01011010\n" ∧
    rowLine { hwConfig with palHighInclusive := true } false
    (idle 4 1 [] [0, 85, 170, 1, 85, 170, 255, 1, 170, 255, 0, 1, 255, 0, 85, 1]) 0 = ascii "\tdc.b\t%01111011\n" := by decide +kernel

/-! ### One step of each command -/

/-- V-Q-4: the one pixel of a 1 by 1 image, and the finish. -/
theorem test_thr1_step : after (exec (.thr1 128 0) (busyAt (.thr1 128 0) 0 0 (idle 1 1 [200, 128, 127, 9] [])))
    (fun t => outPixel t 0 0 == [255, 255, 0, 255] && t.status == ⟨false, true, false, false⟩) = true := by decide +kernel

/-- V-Q-5. -/
theorem test_thr2_step : after (exec (.thr2 128 0) (busyAt (.thr2 128 0) 1 0 (idle 2 1 [63, 64, 191, 0, 192, 127, 128, 77] [])))
    (fun t => outPixel t 1 0 == [255, 85, 170, 255]) = true := by decide +kernel

/-- V-ED-1, first visit. -/
theorem test_fs1_step : after (exec (.fs1 128 256) (busyAt (.fs1 128 256) 0 0 { idle 2 1 (grey [100, 100]) [] with work := greyWork [100, 100] }))
    (fun t => outPixel t 0 0 == [0, 0, 0, 255] && workChan t 2 1 0 == 575 / 4 && t.cur.x == 1) = true := by decide +kernel

/-- V-ED-3, first visit: e = -55. -/
theorem test_fs2_step : after (exec (.fs2 128 256) (busyAt (.fs2 128 256) 0 0 { idle 3 2 [] [] with work := greyWork [200, 60, 130, 90, 250, 10] }))
    (fun t => outPixel t 0 0 == [255, 255, 255, 255] && workChan t 0 1 0 == 575 / 16 &&
      workChan t 1 0 1 == 90 - 275 / 16 && workChan t 1 1 1 == 250 - 55 / 16) = true := by decide +kernel

/-- V-ED-5, first visit: e = -16. -/
theorem test_atk1_step : after (exec (.atk1 128 256) (busyAt (.atk1 128 256) 0 0 { idle 4 3 [] [] with work := greyWork (List.replicate 12 128) }))
    (fun t => outPixel t 0 0 == [255, 255, 255, 255] && [workChan t 0 1 0, workChan t 0 2 0, workChan t 0 3 0, workChan t 0 0 1,
      workChan t 0 1 1, workChan t 0 0 2] == [112, 112, 128, 112, 112, 112]) = true := by decide +kernel

/-- V-ED-7, visit (1,1): e = floor(-46.5 / 8) = -6. -/
theorem test_atk2_step : after (exec (.atk2 128 192) (busyAt (.atk2 128 192) 1 1 { idle 3 3 [] [] with work := greyWork [0, 0, 0, 0, 193, 104, 0, 0, 0] }))
    (fun t => outPixel t 1 1 == [255, 255, 255, 255] && [workChan t 0 2 1, workChan t 0 0 2, workChan t 0 1 2, workChan t 0 2 2] ==
      [98, -6, -6, -6]) = true := by decide +kernel

/-- V-OD-2 at (1, 0). -/
theorem test_ord2_1_step : after (exec (.ord2_1 128 256) (busyAt (.ord2_1 128 256) 1 0 (idle 4 2 (grey (List.replicate 8 100)) [])))
    (fun t => outPixel t 1 0 == [255, 255, 255, 255]) = true := by decide +kernel

/-- V-OD-3 at (1, 1). -/
theorem test_ord2_2_step : after (exec (.ord2_2 128 256) (busyAt (.ord2_2 128 256) 1 1 (idle 2 2 (grey (List.replicate 4 100)) [])))
    (fun t => outPixel t 1 1 == [85, 85, 85, 255] && t.status.done) = true := by decide +kernel

/-- V-OD-4 at (1, 1). -/
theorem test_ord4_1_step : after (exec (.ord4_1 128 256) (busyAt (.ord4_1 128 256) 1 1 (idle 4 4 (grey (List.replicate 16 64)) [])))
    (fun t => outPixel t 1 1 == [0, 0, 0, 255]) = true := by decide +kernel

/-- V-OD-5 at (1, 0). -/
theorem test_ord4_2_step : after (exec (.ord4_2 128 256) (busyAt (.ord4_2 128 256) 1 0 (idle 4 4 (grey [0, 60, 120, 180]) [])))
    (fun t => outPixel t 1 0 == [85, 85, 85, 255]) = true := by decide +kernel

/-- V-OD-6 at x = 1, y = 3; the position with x and y exchanged is 0 there. -/
theorem test_ord8_1_step : after (exec (.ord8_1 128 256) (busyAt (.ord8_1 128 256) 1 3 (idle 8 8 (grey (List.replicate 26 32)) [])))
    (fun t => outPixel t 1 3 == [255, 255, 255, 255]) = true := by decide +kernel

/-- V-OD-7 at (1, 0). -/
theorem test_ord8_2_step : after (exec (.ord8_2 128 200) (busyAt (.ord8_2 128 200) 1 0 (idle 8 2 (grey [100, 100]) [])))
    (fun t => outPixel t 1 0 == [170, 170, 170, 255]) = true := by decide +kernel

/-- V-BP-2: the second byte of row 0 of the red plane, six padding bits 0. -/
theorem test_enca1_step : after (exec .enca1 (atPlane 0 0 1 (busyAt .enca1 0 0 (withEnc [0x92]
    { idle 10 2 [] [] with out := [(32, 0), (33, 255), (34, 255), (36, 255), (37, 0), (38, 0)] }))))
    (fun t => encBytes t == [0x92, 0x40] && t.cur.j == 0 && t.cur.y == 1) = true := by decide +kernel

/-- V-BP-3, the first byte. -/
theorem test_enca2_step : after (exec .enca2 (atPlane 0 0 0 (busyAt .enca2 0 0
    (idle 5 1 [] [0, 85, 170, 1, 85, 170, 255, 1, 170, 255, 0, 1, 255, 0, 85, 1, 255, 255, 255, 1]))))
    (fun t => encBytes t == [0x1B] && t.cur.j == 1) = true := by decide +kernel

/-- V-BP-4. -/
theorem test_encb1p_step : after (exec .encb1p (busyAt .encb1p 0 0 (idle 4 1 [] [0, 85, 170, 1, 85, 170, 255, 1, 170, 255, 0, 1, 255, 0, 85, 1])))
    (fun t => encBytes t == [0x5A] && t.status.done) = true := by decide +kernel

/-- V-BP-4. -/
theorem test_encb2p_step : after (exec .encb2p (busyAt .encb2p 0 0 (idle 4 1 [] [0, 85, 170, 1, 85, 170, 255, 1, 170, 255, 0, 1, 255, 0, 85, 1])))
    (fun t => encBytes t == [0x28, 0x5A] && t.encLen == 2) = true := by decide +kernel

/-- V-SRC-7. -/
theorem test_encb2p_green : after (exec .encb2p (busyAt .encb2p 0 0 (idle 4 1 [] [0, 255, 0, 1, 0, 255, 0, 1, 0, 255, 0, 1, 0, 255, 0, 1])))
    (fun t => encBytes t == [0xAA, 0x00]) = true := by decide +kernel

/-- V-SRC-8. -/
theorem test_encasm1p_diagnostic : after (exec .encasm1p (busyAt .encasm1p 0 0 (idle 3 2 [] [])))
    (fun t => encBytes t == (ascii "; Height: 2\n; Width: 3\n; Width is not %4; exiting...\n").map BitVec.toNat &&
      statusWord t.status == 0x6 && t.encLen == 53) = true := by decide +kernel

/-- V-AS-1, step 0. -/
theorem test_encasm2p_header : after (exec .encasm2p (busyAt .encasm2p 0 0 (idle 4 1 [] [])))
    (fun t => encBytes t == (ascii "; Height: 1\n; Width: 4\n").map BitVec.toNat && t.status.busy && t.cur.hdr == 1) = true := by decide +kernel

/-! ### The host side (program P5) -/

theorem test_reserved_status : after (step (hostTurn (.writeReg 0 0x1C800100) (idle 0 0 [] [])))
    (fun t => statusWord t.status == 0xA && t.cmd == 0x1C800100) = true := by decide +kernel

theorem test_width_low_bits :
    after (step (hostTurn (.writeReg 2 0x00001004) (idle 0 0 [] []))) (fun t => readReg t 2 == 4) = true := by decide +kernel

theorem test_busy_write_ignored :
    after (step (hostTurn (.writeReg 2 8) (busyAt .encb2p 0 0 (idle 4 1 [] [])))) (fun t => readReg t 2 == 4) = true := by decide +kernel

theorem test_placed_command_starts :
    after (step (State.reset.withFetchWord 32 0x12800100)) (fun t => t.status.busy && t.par.alg == 1 && t.cmd == 0x12800100) = true := by decide +kernel

/-! ### Witnesses: for every statement with hypotheses, a state and operands that meet them -/

/-- A 4 by 1 image, with level bytes in OUT. -/
def pic : State :=
  idle 4 1 [200, 30, 30, 0, 30, 200, 30, 7, 30, 30, 200, 255, 128, 127, 128, 9]
    [0, 85, 170, 1, 85, 170, 255, 1, 170, 255, 0, 1, 255, 0, 85, 1]

/-- The state right after a command's start. -/
def startedOn (s : State) (i : Instr) : State := (nextOf (exec i (storeCmd (encode i) s))).getD s

/-- The state right after a command's start on the 4 by 1 image. -/
def started (i : Instr) : State := startedOn pic i

theorem wit_EncodeOfDecode : decode 0x1B8000C8 = .ok (.ord8_2 128 200) ∧ decode 0x40000001 = .ok .encasm2p := ⟨rfl, rfl⟩

theorem wit_TableDecidesDecoding :
    (⟨0x10000000, 0xFF00FE00, fun i => match i with | .thr1 _ _ => true | _ => false⟩ : Row) ∈ table :=
  List.mem_append_left _ (List.mem_cons_self ..)

/-- Each case of the list of rule R57. -/
theorem wit_ReservedWordsOnlyFlag : listedReserved 0 ∧ listedReserved 0x50000000 ∧ listedReserved 0x1C000000 ∧
    listedReserved 0x10000200 ∧ listedReserved 0x22000000 ∧ listedReserved 0x30000002 ∧ listedReserved 0x20000001 ∧
    listedReserved 0x31000000 ∧ pic.status.busy = false ∧
    (hostTurn (.writeReg 0 0x1C000000) pic).port.agenda = [.host (.writeReg 0 0x1C000000)] := by
  refine ⟨?_, ?_, ?_, ?_, ?_, ?_, ?_, ?_, rfl, rfl⟩ <;> (unfold listedReserved; decide)

theorem wit_QuantizersMonotone : ((63 : Rat) ≤ 64) ∧ (0 : BitVec 1) ≠ 1 := by decide +kernel

theorem wit_CutoffValues : hwConfig.cutoffDiv = .exact ∧ { hwConfig with cutoffDiv := .floor }.cutoffDiv = .floor :=
  ⟨rfl, rfl⟩

/-- With and without WORK. -/
theorem wit_ConvertStart : convertFields (.fs1 128 256) = some (1, 0, 128, 256) ∧
    convertFields (.ord8_2 1 511) = some (5, 1, 1, 511) ∧ pic.status.busy = false ∧ imgWidth pic ≠ 0 ∧ imgHeight pic ≠ 0 := by
  decide

/-- Each of the three cursors. -/
theorem wit_EncodeStart : encodeFields .enca2 = some (2, 1, 0) ∧ encodeFields .encb1p = some (3, 0, 0) ∧
    encodeFields .encasm2p = some (4, 0, 1) ∧ pic.status.busy = false ∧ imgWidth pic ≠ 0 ∧ imgHeight pic ≠ 0 ∧
    imgWidth pic % 4 = 0 := by decide

theorem wit_ZeroDimensionRefused : (idle 0 1 [] []).status.busy = false ∧ imgWidth (idle 0 1 [] []) = 0 ∧
    imgHeight (idle 1 0 [] []) = 0 := by decide

theorem wit_FormatBWidthRefused : isFormatB .encb1p = true ∧ isFormatB .encb2p = true ∧ (idle 6 1 [] []).status.busy = false ∧
    imgWidth (idle 6 1 [] []) ≠ 0 ∧ imgHeight (idle 6 1 [] []) ≠ 0 ∧ imgWidth (idle 6 1 [] []) % 4 ≠ 0 := by decide

theorem wit_OverRangeTreatments : { hwConfig with overRange := .refuse }.overRange = .refuse ∧ imgWidth pic ≠ 0 ∧
    imgHeight pic ≠ 0 ∧ (1 : BitVec 3) ≠ 0 ∧ 256 < (257 : BitVec 9).toNat ∧ (256 : BitVec 9).toNat ≤ 256 := by decide

/-- The first pixel and the last one. -/
theorem wit_ThresholdStep : (busyAt (.thr2 128 0) 0 0 pic).status.busy = true ∧
    (busyAt (.thr2 128 0) 0 0 pic).cur.x.toNat < imgWidth (busyAt (.thr2 128 0) 0 0 pic) ∧
    (busyAt (.thr2 128 0) 3 0 pic).cur.x.toNat + 1 = imgWidth (busyAt (.thr2 128 0) 3 0 pic) ∧
    (busyAt (.thr2 128 0) 3 0 pic).cur.y.toNat + 1 = imgHeight (busyAt (.thr2 128 0) 3 0 pic) := by decide

theorem wit_FloydSteinbergStep : (busyAt (.fs1 128 256) 1 0 pic).status.busy = true ∧
    (busyAt (.fs1 128 256) 1 0 pic).cur.x.toNat < imgWidth (busyAt (.fs1 128 256) 1 0 pic) ∧
    (busyAt (.fs1 128 256) 1 0 pic).cur.y.toNat < imgHeight (busyAt (.fs1 128 256) 1 0 pic) := by decide

theorem wit_AtkinsonStep : (busyAt (.atk2 128 256) 3 0 pic).status.busy = true ∧
    (busyAt (.atk2 128 256) 3 0 pic).cur.x.toNat < imgWidth (busyAt (.atk2 128 256) 3 0 pic) ∧
    (busyAt (.atk2 128 256) 3 0 pic).cur.y.toNat < imgHeight (busyAt (.atk2 128 256) 3 0 pic) := by decide

/-- Each matrix size. -/
theorem wit_OrderedStep : ordSize (.ord2_1 128 256) = some 2 ∧ ordSize (.ord4_2 128 256) = some 4 ∧
    ordSize (.ord8_1 128 256) = some 8 ∧ convertFields (.ord4_2 128 256) = some (4, 1, 128, 256) ∧
    (busyAt (.ord4_2 128 256) 3 0 pic).status.busy = true ∧
    (busyAt (.ord4_2 128 256) 3 0 pic).cur.x.toNat < imgWidth (busyAt (.ord4_2 128 256) 3 0 pic) ∧
    (busyAt (.ord4_2 128 256) 3 0 pic).cur.y.toNat < imgHeight (busyAt (.ord4_2 128 256) 3 0 pic) := by decide

/-- The largest entry and amount of each clause. -/
theorem wit_ModifierIntegerForm : 0 < 2 ∧ 3 < 2 ^ 2 ∧ 63 < 64 ∧ (256 : BitVec 9).toNat ≤ 256 := by decide

/-- Another SRC that differs in an alpha byte alone, at the start of an FS command and in a THR step. -/
theorem wit_AlphaWrittenNeverRead :
    (∃ t, exec (.fs1 128 256) pic = .next t) ∧ (∃ t, exec (.thr1 128 0) (busyAt (.thr1 128 0) 1 0 pic) = .next t) ∧
    (busyAt (.thr1 128 0) 1 0 pic).status.busy = true ∧ isConvert (.fs1 128 256) = true ∧ isConvert (.thr1 128 0) = true ∧
    ∀ a, a % 4 ≠ 3 → srcByte { pic with src := cellPut pic.src 3 99 } a = srcByte pic a := by
  refine ⟨next_of_isSome _ (by decide +kernel), next_of_isSome _ (by decide +kernel), rfl, rfl, rfl, ?_⟩
  intro a ha
  have h : a ≠ 3 := by omega
  simp [srcByte, Laws.cellGet_put, h]

theorem wit_ConvertWritesLevels : convertFields (.thr1 128 0) = some (0, 0, 128, 0) ∧
    convertFields (.ord2_2 128 256) = some (3, 1, 128, 256) ∧
    (∃ t, exec (.thr1 128 0) (busyAt (.thr1 128 0) 1 0 pic) = .next t) ∧
    ∃ t, exec (.ord2_2 128 256) (busyAt (.ord2_2 128 256) 1 0 pic) = .next t :=
  ⟨rfl, rfl, next_of_isSome _ (by decide +kernel), next_of_isSome _ (by decide +kernel)⟩

/-- WORK right after the start of an error-diffusion command is the source. -/
theorem started_work (alg : BitVec 3) (bd : BitVec 1) (t : BitVec 8) (da : BitVec 9) (h : alg = 1 ∨ alg = 2) {c x y : Nat}
    (hc : c < 3) (hx : x < imgWidth pic) (hy : y < imgHeight pic) :
    workChan (beginRaster (loadWork (latchConvert alg bd t da pic))) c x y = byteRat (srcChan pic x y c) :=
  Laws.workChan_loadWork (s := latchConvert alg bd t da pic) h hc hx hy

/-- Both starts from one state, and the related pair with both steps. -/
theorem wit_ZeroAmountDiffusion :
    (∃ s' t', exec (.fs1 128 0) pic = .next s' ∧ exec (.thr1 128 7) pic = .next t' ∧ PlainThreshold s' t' ∧
      s'.status.busy = true ∧ (∃ s'', exec (.fs1 128 0) s' = .next s'') ∧ ∃ t'', exec (.thr1 128 7) t' = .next t'') := by
  refine ⟨beginRaster (loadWork (latchConvert 1 0 128 0 pic)), beginRaster (loadWork (latchConvert 0 0 128 7 pic)), rfl, rfl,
    ⟨rfl, rfl, fun _ => rfl, fun _ => rfl, rfl, rfl, rfl, rfl, rfl, ?_⟩, rfl, next_of_isSome _ (by decide +kernel),
    next_of_isSome _ (by decide +kernel)⟩
  intro c x y hc hx hy
  exact started_work 1 0 128 0 (.inl rfl) hc hx hy

theorem wit_ZeroAmountOrdered : ordSize (.ord4_2 128 0) = some 4 ∧ convertFields (.ord4_2 128 0) = some (4, 1, 128, 0) ∧
    convertFields (.thr2 9 9) = some (0, 1, 9, 9) ∧ (busyAt (.ord4_2 128 0) 1 0 pic).status.busy = true ∧
    (busyAt (.ord4_2 128 0) 1 0 pic).par.da = 0 := by decide

/-- Two positions with one place in the matrix. -/
theorem wit_OrderedPeriodic :
    let s := busyAt (.ord2_1 128 256) 0 0 (idle 4 1 (grey [100, 100, 100, 100]) [])
    let t := busyAt (.ord2_1 128 256) 2 0 (idle 4 1 (grey [100, 100, 100, 100]) [])
    s.cur.x.toNat % 2 = t.cur.x.toNat % 2 ∧ s.cur.y.toNat % 2 = t.cur.y.toNat % 2 ∧ s.par = t.par ∧ s.status.busy = true ∧
    t.status.busy = true ∧ (∀ c, c < 3 → srcChan s 0 0 c = srcChan t 2 0 c) ∧
    (∃ s', exec (.ord2_1 128 256) s = .next s') ∧ ∃ t', exec (.ord2_1 128 256) t = .next t' :=
  ⟨rfl, rfl, rfl, rfl, rfl, by decide, next_of_isSome _ (by decide +kernel), next_of_isSome _ (by decide +kernel)⟩

/-- A two-pixel error-diffusion state with a WORK of one's own. -/
def twoPixels (work : List Rat) : State :=
  busyAt (.fs1 128 256) 0 0 { idle 2 1 [] [] with work := (List.range 6).map (fun i => (i, (work[i]?).getD 0)) }

/-- The red planes agree, the other planes do not. -/
theorem wit_ChannelsIndependent : SamePlane 0 (twoPixels [100, 90, 1, 2, 3, 4]) (twoPixels [100, 90, 5, 6, 7, 8]) ∧
    (twoPixels [100, 90, 1, 2, 3, 4]).status.busy = true ∧
    (∃ t, exec (.fs1 128 256) (twoPixels [100, 90, 1, 2, 3, 4]) = .next t) ∧
    ∃ t, exec (.fs1 128 256) (twoPixels [100, 90, 5, 6, 7, 8]) = .next t := by
  refine ⟨⟨rfl, rfl, rfl, rfl, rfl, rfl, ?_⟩, rfl, next_of_isSome _ (by decide +kernel), next_of_isSome _ (by decide +kernel)⟩
  have h : ∀ x, x < 2 → ∀ y, y < 1 →
      workChan (twoPixels [100, 90, 5, 6, 7, 8]) 0 x y = workChan (twoPixels [100, 90, 1, 2, 3, 4]) 0 x y := by decide +kernel
  exact fun x y hx hy => h x hx y hy

/-- Two machines that differ in OUT and ENC, at the start and in a step, for a command with WORK. -/
theorem wit_ConversionDeterministic :
    let other := { pic with out := [], enc := bytesAt [1], encLen := 1 }
    isConvert (.fs2 128 256) = true ∧ pic.status.busy = false ∧ other.status.busy = false ∧ SameSrc pic other ∧
    ∃ s t, exec (.fs2 128 256) pic = .next s ∧ exec (.fs2 128 256) other = .next t ∧ SameConversion (.fs2 128 256) s t ∧
      s.status.busy = true ∧ (∃ s', exec (.fs2 128 256) s = .next s') ∧ ∃ t', exec (.fs2 128 256) t = .next t' := by
  refine ⟨rfl, rfl, rfl, fun _ => rfl, _, _, rfl, rfl,
    ⟨rfl, rfl, fun _ => rfl, rfl, rfl, rfl, rfl, rfl, fun _ _ _ _ _ _ _ => rfl, ?_⟩, rfl,
    next_of_isSome _ (by decide +kernel), next_of_isSome _ (by decide +kernel)⟩
  intro c x y _ _ _ h
  exact absurd h (by simp [visited, rasterPos])

/-- Right after a start nothing has arrived, so WORK is within the bounds. -/
theorem started_within (k : Kernel) (lo hi : Rat) (alg : BitVec 3) (h : alg = 1 ∨ alg = 2) :
    WorkWithin k lo hi (beginRaster (loadWork (latchConvert alg 0 128 256 pic))) := by
  intro c x y hc hx hy
  have hz : arrivedWeight k (beginRaster (loadWork (latchConvert alg 0 128 256 pic))) x y = 0 := by
    simp [arrivedWeight, rasterPos]
  rw [hz, started_work alg 0 128 256 h hc (by simpa using hx) (by simpa using hy)]
  simp [srcChan, srcByte]

theorem wit_WorkStaysWithin :
    let s := beginRaster (loadWork (latchConvert 1 0 128 256 pic))
    let a := beginRaster (loadWork (latchConvert 2 0 128 256 pic))
    exec (.fs1 128 256) pic = .next s ∧ exec (.atk1 128 256) pic = .next a ∧ WorkWithin .fs (-255) 255 s ∧
    WorkWithin .atk (-32) 31 a ∧ s.status.busy = true ∧ s.par.da.toNat ≤ 256 ∧ a.par.da.toNat ≤ 256 ∧
    (∃ t, exec (.fs1 128 256) s = .next t) ∧ ∃ t, exec (.atk1 128 256) a = .next t :=
  ⟨rfl, rfl, started_within _ _ _ _ (.inl rfl), started_within _ _ _ _ (.inr rfl), rfl, by decide, by decide,
    next_of_isSome _ (by decide +kernel), next_of_isSome _ (by decide +kernel)⟩

theorem wit_WorkRange : 3 < imgWidth (beginRaster (loadWork (latchConvert 1 0 128 256 pic))) ∧
    WorkWithin .fs (-255) 255 (beginRaster (loadWork (latchConvert 1 0 128 256 pic))) ∧
    WorkWithin .atk (-32) 31 (beginRaster (loadWork (latchConvert 2 0 128 256 pic))) :=
  ⟨by decide, started_within _ _ _ _ (.inl rfl), started_within _ _ _ _ (.inr rfl)⟩

/-- The last byte of the last plane, with padding positions. -/
theorem wit_EncaOneBitStep :
    let s := atPlane 2 0 0 (busyAt .enca1 0 0 (withEnc [0, 0] pic))
    s.status.busy = true ∧ s.cur.p.toNat < 3 ∧ s.cur.y.toNat < imgHeight s ∧ s.cur.j.toNat < (imgWidth s + 7) / 8 ∧
    s.encLen.toNat + 1 ≤ hwConfig.encCap := by decide

theorem pic_levels : ∀ x, x < 4 → ∀ y, y < 1 → ∀ c, c < 3 → isLevel (outChan pic x y c) = true := by decide

theorem wit_EncaTwoBitStep :
    let s := atPlane 2 0 0 (busyAt .enca2 0 0 pic)
    s.status.busy = true ∧ s.cur.p.toNat < 3 ∧ s.cur.y.toNat < imgHeight s ∧ s.cur.j.toNat < (imgWidth s + 3) / 4 ∧
    s.encLen.toNat + 1 ≤ hwConfig.encCap ∧ ∀ i, i < 4 → isLevel (outChan s (4 * s.cur.j.toNat + i) 0 2) = true := by decide

theorem wit_NonLevelRefused :
    let s := atPlane 0 0 0 (busyAt .enca2 0 0 (idle 4 1 [] [0, 0, 0, 0, 100, 0, 0, 0]))
    s.status.busy = true ∧ s.cur.p.toNat < 3 ∧ s.cur.y.toNat < imgHeight s ∧ s.cur.j.toNat < (imgWidth s + 3) / 4 ∧
    4 * s.cur.j.toNat + 1 < imgWidth s ∧ isLevel (outChan s 1 0 0) = false := by decide

theorem wit_FormatBStep :
    let s := busyAt .encb2p 0 0 pic
    isFormatB .encb1p = true ∧ isFormatB .encb2p = true ∧ s.status.busy = true ∧ s.cur.y.toNat < imgHeight s ∧
    s.cur.g.toNat < imgWidth s / 4 ∧ s.encLen.toNat + 2 ≤ hwConfig.encCap := by decide

theorem wit_PaletteClassifier : { hwConfig with palHighInclusive := false }.palHighInclusive = false ∧
    { hwConfig with palHighInclusive := true }.palHighInclusive = true ∧ isLevel 85 = true := by decide

theorem wit_TokenBits : hwConfig.pal = palRom ∧ 3 < 4 := ⟨rfl, by decide⟩

/-- Levels under the exclusive setting. -/
theorem wit_TokensAreFormatB : ∀ k, k < 4 → ∀ c, c < 3 →
    paletteHigh { hwConfig with palHighInclusive := false } (outChan pic (4 * 0 + k) 0 c) =
      decide (127 < (outChan pic (4 * 0 + k) 0 c).toNat) := by decide

theorem wit_HeaderStep :
    let s := busyAt .encasm1p 0 0 pic
    s.status.busy = true ∧ s.cur.hdr = 0 ∧ imgWidth s % 4 = 0 ∧ s.encLen.toNat + (headerLines s).length ≤ hwConfig.encCap := by
  decide +kernel

theorem wit_DiagnosticStep :
    let s := busyAt .encasm1p 0 0 (idle 3 2 [] [])
    s.status.busy = true ∧ s.cur.hdr = 0 ∧ imgWidth s % 4 ≠ 0 ∧
    s.encLen.toNat + (headerLines s ++ diagnosticLine).length ≤ hwConfig.encCap := by decide +kernel

/-- A row of an ENCASM command, by the length law where `PAL_HIGH_INCLUSIVE` has no value. -/
theorem wit_RowLineStep :
    let s := { busyAt .encasm2p 0 0 pic with cur := { pic.cur with hdr := 1 } }
    s.status.busy = true ∧ s.cur.hdr = 1 ∧ s.cur.y.toNat < imgHeight s ∧ 4 ≤ imgWidth s ∧
    s.encLen.toNat + (rowLineText true s).length ≤ hwConfig.encCap := by
  refine ⟨rfl, rfl, by decide, by decide, ?_⟩
  have h : rowTokenBytes true { busyAt .encasm2p 0 0 pic with cur := { pic.cur with hdr := 1 } } =
    [token1 hwConfig { busyAt .encasm2p 0 0 pic with cur := { pic.cur with hdr := 1 } } 0 0,
      token2 hwConfig { busyAt .encasm2p 0 0 pic with cur := { pic.cur with hdr := 1 } } 0 0] := rfl
  simp only [rowLineText, h]
  simp [List.intercalate, tokenText, ascii]
  decide

theorem wit_EncodingReadsOutAlone :
    let s := started .enca1
    let t := { s with src := [], par := { s.par with t := 5 } }
    isConvert .enca1 = false ∧ s.status.busy = true ∧ t.status.busy = true ∧ SameOut s t ∧ t.cur = s.cur ∧
    ∃ s', exec .enca1 s = .next s' :=
  ⟨rfl, rfl, rfl, fun _ => rfl, rfl, next_of_isSome _ (by decide +kernel)⟩

/-- A start and a step, of a CONVERT with WORK, of one without, and of an ENCODE. -/
theorem wit_EngineLeavesAlone : (∃ t, exec (.fs1 128 256) pic = .next t) ∧
    (∃ t, exec (.ord2_1 128 256) (started (.ord2_1 128 256)) = .next t) ∧ (∃ t, exec .encb2p (started .encb2p) = .next t) ∧
    (started (.ord2_1 128 256)).status.busy = true ∧ ordSize (.ord2_1 128 256) = some 2 ∧ isConvert .encb2p = false :=
  ⟨next_of_isSome _ (by decide +kernel), next_of_isSome _ (by decide +kernel), next_of_isSome _ (by decide +kernel), rfl, rfl, rfl⟩

theorem wit_CanonicalFormKept : Memory.wf pic.src ∧ Memory.wf pic.out ∧ Memory.wf pic.enc ∧ WorkSpace.wf pic.work ∧
    ∃ t, step (hostTurn (.writeBuf .src 15 9) pic) = .next t :=
  ⟨by decide, by decide, by decide, by decide +kernel, next_of_isSome _ (by decide +kernel)⟩

theorem wit_WrittenCommandRuns : pic.status.busy = false ∧ decode 0x10800000 = .ok (.thr1 128 0) ∧
    (hostTurn (.writeReg 0 0x10800000) pic).port.agenda = [.host (.writeReg 0 0x10800000)] := ⟨rfl, rfl, rfl⟩

theorem wit_LatchedCommandRuns : (started .enca1).port.agenda = [] ∧ (started .enca1).status.busy = true ∧
    running (started .enca1) = .ok .enca1 ∧ pic.status.busy = false := ⟨rfl, rfl, rfl, rfl⟩

theorem wit_BusyIgnoresWrites : (hostTurn (.writeReg 0 5) (started .enca1)).status.busy = true ∧
    (hostTurn (.writeReg 3 5) (started .enca1)).port.agenda = [.host (.writeReg 3 5)] := ⟨rfl, rfl⟩

/-- The last number with a register and the first without. -/
theorem wit_RegisterReads : (hostTurn (.readReg 4) pic).port.agenda = [.host (.readReg 4)] ∧
    (hostTurn (.readReg 5) pic).port.agenda = [.host (.readReg 5)] := ⟨rfl, rfl⟩

theorem wit_DimensionRegisters : (hostTurn (.writeReg 2 0x1FFF) pic).port.agenda = [.host (.writeReg 2 0x1FFF)] ∧
    (hostTurn (.writeReg 3 0x1000) pic).port.agenda = [.host (.writeReg 3 0x1000)] := ⟨rfl, rfl⟩

theorem wit_ReadOnlyRegisters : (hostTurn (.writeReg 1 7) pic).port.agenda = [.host (.writeReg 1 7)] ∧
    (hostTurn (.writeReg 4 7) pic).port.agenda = [.host (.writeReg 4 7)] ∧ 4 ≤ 4 := ⟨rfl, rfl, le_refl _⟩

/-- The last byte inside each size in use. -/
theorem wit_HostBufferAccess : (withEnc [1, 2] pic).status.busy = false ∧
    15 < 4 * imgWidth (withEnc [1, 2] pic) * imgHeight (withEnc [1, 2] pic) ∧ 1 < (withEnc [1, 2] pic).encLen.toNat ∧
    (hostTurn (.readBuf .enc 1) (withEnc [1, 2] pic)).port.agenda = [.host (.readBuf .enc 1)] := by decide

/-- The first byte beyond each size in use, and a busy machine. -/
theorem wit_ForbiddenHostAccess : 4 * imgWidth (withEnc [1, 2] pic) * imgHeight (withEnc [1, 2] pic) ≤ 16 ∧
    (withEnc [1, 2] pic).encLen.toNat ≤ 2 ∧ imgWidth pic ≠ 0 ∧ imgHeight pic ≠ 0 ∧ (started .enca1).status.busy = true ∧
    (hostTurn (.writeBuf .out 16 0) pic).port.agenda = [.host (.writeBuf .out 16 0)] := by decide

theorem wit_ResetAtAnyTime : (hostTurn .reset (started .enca1)).port.agenda = [.host .reset] ∧
    (hostTurn .reset (started .enca1)).status.busy = true := ⟨rfl, rfl⟩

/-- The invariant in the state after a start, from the facts a command has. -/
theorem started_inv (s : State) (i : Instr) (hs : statusWord s.status ∈ [0x0#32, 0x1#32, 0x2#32, 0x6#32, 0xA#32])
    (h1 : Memory.wf s.src) (h2 : Memory.wf s.out) (h3 : WorkSpace.wf s.work) (h4 : s.enc.map Prod.fst = List.range s.encLen.toNat)
    (h5 : s.encLen.toNat ≤ hwConfig.encCap) (h6 : running s = .ok i) (h7 : s.cmd = latchedWord s.par) (h8 : 0 < imgWidth s)
    (h9 : 0 < imgHeight s) (h10 : cursorInside i s = true) (h11 : s.encLen.toNat = encodeProgress i s)
    (h12 : imgWidth s % 4 = 0 ∨ isFormatB i = false) : Inv s :=
  ⟨hs, h1, h2, h3, h4, h5, fun _ => ⟨i, h6, h7, h8, h9, h10, fun _ => h11, fun h => h12.resolve_right (by simp [h])⟩⟩

theorem inv_started_thr2 : Inv (started (.thr2 128 0)) :=
  started_inv _ (.thr2 128 0) (by decide) (by decide) (by decide) (by decide +kernel) rfl (by decide) rfl (by decide) (by decide)
    (by decide) (by decide) rfl (.inl (by decide))

theorem inv_started_enca2 : Inv (started .enca2) :=
  started_inv _ .enca2 (by decide) (by decide) (by decide) (by decide +kernel) rfl (by decide) rfl (by decide) (by decide)
    (by decide) (by decide) rfl (.inl (by decide))

theorem inv_started_encb2p : Inv (started .encb2p) :=
  started_inv _ .encb2p (by decide) (by decide) (by decide) (by decide +kernel) rfl (by decide) rfl (by decide) (by decide)
    (by decide) (by decide) rfl (.inl (by decide))

theorem inv_started_encasm2p : Inv (startedOn (idle 3 2 [] []) .encasm2p) :=
  started_inv _ .encasm2p (by decide) (by decide) (by decide) (by decide +kernel) rfl (by decide) rfl (by decide) (by decide)
    (by decide) (by decide) rfl (.inr rfl)

/-- A step of the engine, and a reset in the middle of a command. -/
theorem wit_InvariantKept : Inv (started (.thr2 128 0)) ∧ (∃ t, step (started (.thr2 128 0)) = .next t) ∧
    Inv (started .encb2p) ∧ ∃ t, step (started .encb2p) = .next t :=
  ⟨inv_started_thr2, next_of_isSome _ (by decide +kernel), inv_started_encb2p, next_of_isSome _ (by decide +kernel)⟩

theorem wit_NoFaultUnderInvariant : Inv (started .enca2) ∧ (started .enca2).status.busy = true := ⟨inv_started_enca2, rfl⟩

theorem levels_started_enca2 : levelsOnly (started .enca2) :=
  fun x y c hx hy hc => pic_levels x hx y hy c hc

theorem wit_StepAlwaysEnabled : Inv (started .enca2) ∧ (started .enca2).status.busy = true ∧
    running (started .enca2) = .ok .enca2 ∧ levelsOnly (started .enca2) :=
  ⟨inv_started_enca2, rfl, rfl, levels_started_enca2⟩

/-- A start, a step that is not the last and one that is. -/
theorem wit_StepCount : (∃ t, exec .encasm1p pic = .next t) ∧ pic.status.busy = false ∧ Inv (started (.thr2 128 0)) ∧
    running (started (.thr2 128 0)) = .ok (.thr2 128 0) ∧
    after (exec (.thr2 128 0) (started (.thr2 128 0))) (fun t => t.status.busy) = true ∧ Inv (started .encb2p) ∧
    running (started .encb2p) = .ok .encb2p ∧ after (exec .encb2p (started .encb2p)) (fun t => !t.status.busy) = true :=
  ⟨next_of_isSome _ (by decide +kernel), rfl, inv_started_thr2, rfl, by decide +kernel, inv_started_encb2p, rfl, by decide +kernel⟩

theorem wit_CommandFinishes : Inv (started .enca2) ∧ (started .enca2).status.busy = true ∧
    running (started .enca2) = .ok .enca2 ∧ levelsOnly (started .enca2) ∧ (started .enca2).port.agenda = [] :=
  ⟨inv_started_enca2, rfl, rfl, levels_started_enca2, rfl⟩

/-- A Format B command that finishes with its one group, and an ENCASM that finishes with the diagnostic line. -/
theorem wit_FinishedLength : Inv (started .encb2p) ∧ running (started .encb2p) = .ok .encb2p ∧ isConvert .encb2p = false ∧
    after (exec .encb2p (started .encb2p)) (fun t => !t.status.busy) = true ∧
    Inv (startedOn (idle 3 2 [] []) .encasm2p) ∧ running (startedOn (idle 3 2 [] []) .encasm2p) = .ok .encasm2p ∧
    after (exec .encasm2p (startedOn (idle 3 2 [] []) .encasm2p)) (fun t => !t.status.busy) = true :=
  ⟨inv_started_encb2p, rfl, rfl, by decide +kernel, inv_started_encasm2p, rfl, by decide +kernel⟩

end Sys2Proof.Tests
end

section
/-! PROOFS. The one transition of a command, inverted once: a start or a step of the two shapes CONVERT and ENCODE
(30_encoding.md R56, R60; 10_state.md R23). Every claim about commands is a case analysis of `Transition`. -/

namespace Sys2Proof.Proofs

open Sys2Proof.Machine Sys2Proof.Claims Sys2Proof.Laws

/-! ### The pixel of a CONVERT step -/

/-- What a step of a CONVERT command does before the cursor advances; an ENCODE command has no pixel. -/
def convertPixel : Instr → State → State
  | .thr1 _ _ => thrPixel hwConfig 0
  | .thr2 _ _ => thrPixel hwConfig 1
  | .fs1 _ _ => edPixel hwConfig .fs 0
  | .fs2 _ _ => edPixel hwConfig .fs 1
  | .atk1 _ _ => edPixel hwConfig .atk 0
  | .atk2 _ _ => edPixel hwConfig .atk 1
  | .ord2_1 _ _ => ordPixel hwConfig .n2 0
  | .ord2_2 _ _ => ordPixel hwConfig .n2 1
  | .ord4_1 _ _ => ordPixel hwConfig .n4 0
  | .ord4_2 _ _ => ordPixel hwConfig .n4 1
  | .ord8_1 _ _ => ordPixel hwConfig .n8 0
  | .ord8_2 _ _ => ordPixel hwConfig .n8 1
  | .enca1 | .enca2 | .encb1p | .encb2p | .encasm1p | .encasm2p => id

/-- A CONVERT command is its start and its pixel step. -/
theorem exec_convert {i : Instr} {alg : BitVec 3} {bd : BitVec 1} {ti : BitVec 8} {da : BitVec 9} (s : State)
    (hf : convertFields i = some (alg, bd, ti, da)) :
    exec i s = runCommand (startConvert hwConfig alg bd ti da) (pixelStep (convertPixel i)) s := by
  cases i <;> cases hf <;> rfl

/-- A state is its fields: what lets the field lemmas of an operation be read as one equation of states. -/
theorem state_eta (t : State) : t = ⟨t.cmd, t.status, t.imgW, t.imgH, t.encLen, t.par, t.cur, t.src, t.out, t.enc, t.work,
    t.port, t.epoch, t.encGen⟩ := rfl

/-- The pixel changes nothing but OUT and WORK. -/
theorem convertPixel_eq (i : Instr) (s : State) :
    convertPixel i s = { s with out := (convertPixel i s).out, work := (convertPixel i s).work } := by
  cases i
  case fs1 | fs2 | atk1 | atk2 => exact (state_eta _).trans (by simp [convertPixel])
  all_goals rfl

@[simp] theorem convertPixel_cmd (i : Instr) (s : State) : (convertPixel i s).cmd = s.cmd := by rw [convertPixel_eq]
@[simp] theorem convertPixel_status (i : Instr) (s : State) : (convertPixel i s).status = s.status := by
  rw [convertPixel_eq]
@[simp] theorem convertPixel_imgW (i : Instr) (s : State) : (convertPixel i s).imgW = s.imgW := by rw [convertPixel_eq]
@[simp] theorem convertPixel_imgH (i : Instr) (s : State) : (convertPixel i s).imgH = s.imgH := by rw [convertPixel_eq]
@[simp] theorem convertPixel_encLen (i : Instr) (s : State) : (convertPixel i s).encLen = s.encLen := by
  rw [convertPixel_eq]
@[simp] theorem convertPixel_par (i : Instr) (s : State) : (convertPixel i s).par = s.par := by rw [convertPixel_eq]
@[simp] theorem convertPixel_cur (i : Instr) (s : State) : (convertPixel i s).cur = s.cur := by rw [convertPixel_eq]
@[simp] theorem convertPixel_src (i : Instr) (s : State) : (convertPixel i s).src = s.src := by rw [convertPixel_eq]
@[simp] theorem convertPixel_enc (i : Instr) (s : State) : (convertPixel i s).enc = s.enc := by rw [convertPixel_eq]
@[simp] theorem convertPixel_port (i : Instr) (s : State) : (convertPixel i s).port = s.port := by rw [convertPixel_eq]
@[simp] theorem convertPixel_epoch (i : Instr) (s : State) : (convertPixel i s).epoch = s.epoch := by
  rw [convertPixel_eq]
@[simp] theorem convertPixel_encGen (i : Instr) (s : State) : (convertPixel i s).encGen = s.encGen := by
  rw [convertPixel_eq]
@[simp] theorem imgWidth_convertPixel (i : Instr) (s : State) : imgWidth (convertPixel i s) = imgWidth s := by
  simp [imgWidth]
@[simp] theorem imgHeight_convertPixel (i : Instr) (s : State) : imgHeight (convertPixel i s) = imgHeight s := by
  simp [imgHeight]
@[simp] theorem rasterInside_convertPixel (i : Instr) (s : State) :
    rasterInside (convertPixel i s) = rasterInside s := by simp [rasterInside]
@[simp] theorem rasterPos_convertPixel (i : Instr) (s : State) : rasterPos (convertPixel i s) = rasterPos s := by
  simp [rasterPos]

/-- Only error diffusion writes WORK (R20, R174). -/
theorem convertPixel_work {i : Instr} (s : State) (h : isDiffusion i = false) : (convertPixel i s).work = s.work := by
  cases i
  case fs1 | fs2 | atk1 | atk2 => cases h
  all_goals rfl

theorem convertPixel_out_wf (i : Instr) {s : State} (h : Memory.wf s.out) : Memory.wf (convertPixel i s).out := by
  cases i
  case fs1 | fs2 | atk1 | atk2 => exact edPixel_out_wf _ _ _ _ h
  case enca1 | enca2 | encb1p | encb2p | encasm1p | encasm2p => exact h
  all_goals exact writePixel_out_wf _ _ _ _ h

theorem convertPixel_work_wf (i : Instr) {s : State} (h : WorkSpace.wf s.work) :
    WorkSpace.wf (convertPixel i s).work := by
  cases i
  case fs1 | fs2 | atk1 | atk2 => exact edPixel_work_wf _ _ _ _ h
  all_goals exact h

/-! ### The step of an ENCODE command -/

/-- The step of an ENCODE command; a CONVERT command has none and leaves the state. -/
def encodeStep : Instr → State → Result
  | .enca1 => encaStep1 hwConfig
  | .enca2 => encaStep2 hwConfig
  | .encb1p => encbStep hwConfig false
  | .encb2p => encbStep hwConfig true
  | .encasm1p => encasmStep hwConfig false
  | .encasm2p => encasmStep hwConfig true
  | .thr1 _ _ | .thr2 _ _ | .fs1 _ _ | .fs2 _ _ | .atk1 _ _ | .atk2 _ _ => .next
  | .ord2_1 _ _ | .ord2_2 _ _ | .ord4_1 _ _ | .ord4_2 _ _ | .ord8_1 _ _ | .ord8_2 _ _ => .next

/-- An ENCODE command is its start and its step. -/
theorem exec_encode {i : Instr} {op : BitVec 4} {bd tp : BitVec 1} (s : State)
    (hf : encodeFields i = some (op, bd, tp)) : exec i s = runCommand (startEncode op bd tp) (encodeStep i) s := by
  cases i <;> cases hf <;> rfl

/-- What an ENCODE step can do in a state: the bytes it appends, and how the cursor and the flags move after them (R116 to R140). -/
inductive EncodeMove (s : State) : Instr → List Byte → (State → State) → Prop
  | planes {i : Instr} {n : Nat} (hi : i = .enca1 ∧ n = 8 ∨ i = .enca2 ∧ n = 4)
      (hin : planesInside (encaStride n s) s = true) (b : Byte) :
      EncodeMove s i [b] (advancePlanes (encaStride n s))
  | groups {i : Instr} {two : Bool} (hi : i = .encb1p ∧ two = false ∨ i = .encb2p ∧ two = true)
      (hin : groupsInside s = true) : EncodeMove s i (encbBytes two s) advanceGroups
  | header {i : Instr} (hi : i = .encasm1p ∨ i = .encasm2p) (hhdr : s.cur.hdr = 0) (hw : imgWidth s % 4 = 0) :
      EncodeMove s i (headerText s) beginLines
  | diagnostic {i : Instr} (hi : i = .encasm1p ∨ i = .encasm2p) (hhdr : s.cur.hdr = 0) (hw : imgWidth s % 4 ≠ 0) :
      EncodeMove s i (headerText s ++ diagnosticText) finishDiag
  | line {i : Instr} {two : Bool} (hi : i = .encasm1p ∧ two = false ∨ i = .encasm2p ∧ two = true)
      (hhdr : s.cur.hdr = 1) (hy : s.cur.y.toNat < imgHeight s) :
      EncodeMove s i (rowLine hwConfig two s s.cur.y.toNat) advanceLines

/-- An answer that appends within the capacity what `EncodeMove` allows and then moves on. -/
def Emits (i : Instr) (s t : State) : Prop :=
  ∃ bs after, EncodeMove s i bs after ∧ s.encLen.toNat + bs.length ≤ hwConfig.encCap ∧ t = after (encAppendAll bs s)

theorem emits_of_emit {i : Instr} {s t : State} {bs : List Byte} {after : State → State} (hm : EncodeMove s i bs after)
    (h : emit hwConfig bs after s = .next t) : Emits i s t :=
  ⟨bs, after, hm, emit_eq_next.mp h⟩

theorem encaStep1_emits {s t : State} (h : encaStep1 hwConfig s = .next t) : Emits .enca1 s t := by
  unfold encaStep1 at h
  split at h
  · rename_i hin
    exact emits_of_emit (.planes (.inl ⟨rfl, rfl⟩) hin _) h
  · cases h

theorem encaStep2_emits {s t : State} (h : encaStep2 hwConfig s = .next t) : Emits .enca2 s t := by
  unfold encaStep2 at h
  split at h
  · rename_i hin
    split at h
    · exact emits_of_emit (.planes (.inr ⟨rfl, rfl⟩) hin _) h
    · cases h
  · cases h

theorem encbStep_emits {i : Instr} {two : Bool} (hi : i = .encb1p ∧ two = false ∨ i = .encb2p ∧ two = true)
    {s t : State} (h : encbStep hwConfig two s = .next t) : Emits i s t := by
  unfold encbStep at h
  split at h
  · rename_i hin
    exact emits_of_emit (.groups hi hin) h
  · cases h

theorem encasmStep_emits {i : Instr} {two : Bool} (hi : i = .encasm1p ∧ two = false ∨ i = .encasm2p ∧ two = true)
    {s t : State} (h : encasmStep hwConfig two s = .next t) : Emits i s t := by
  have hi' : i = .encasm1p ∨ i = .encasm2p := hi.imp And.left And.left
  unfold encasmStep at h
  split at h
  · rename_i hhdr
    unfold headerStep at h
    split at h
    · rename_i hw
      exact emits_of_emit (.header hi' hhdr hw) h
    · rename_i hw
      exact emits_of_emit (.diagnostic hi' hhdr hw) h
  · split at h
    · rename_i hhdr
      unfold lineStep at h
      split at h
      · rename_i hy
        exact emits_of_emit (.line hi hhdr hy) h
      · cases h
    · cases h

theorem encodeStep_emits {i : Instr} (hc : isConvert i = false) {s t : State} (h : encodeStep i s = .next t) :
    Emits i s t := by
  cases i
  case enca1 => exact encaStep1_emits h
  case enca2 => exact encaStep2_emits h
  case encb1p => exact encbStep_emits (.inl ⟨rfl, rfl⟩) h
  case encb2p => exact encbStep_emits (.inr ⟨rfl, rfl⟩) h
  case encasm1p => exact encasmStep_emits (.inl ⟨rfl, rfl⟩) h
  case encasm2p => exact encasmStep_emits (.inr ⟨rfl, rfl⟩) h
  all_goals cases hc

/-- Appending and moving on changes ENC, ENC_LEN, the cursor and the flags alone (R126). -/
theorem encodeMove_eq {i : Instr} {s : State} {bs : List Byte} {after : State → State} (hm : EncodeMove s i bs after) :
    after (encAppendAll bs s) = { s with
      encLen := (encAppendAll bs s).encLen, enc := (encAppendAll bs s).enc,
      cur := (after (encAppendAll bs s)).cur, status := (after (encAppendAll bs s)).status } :=
  (state_eta _).trans (by cases hm <;> simp)

/-! ### Every transition -/

/-- The transitions a command has: its start while BUSY = 0, a step while BUSY = 1. -/
inductive Transition (i : Instr) (s : State) : State → Prop
  | convertStart {alg : BitVec 3} {bd : BitVec 1} {ti : BitVec 8} {da : BitVec 9}
      (hf : convertFields i = some (alg, bd, ti, da)) (hb : s.status.busy = false) (hw : imgWidth s ≠ 0)
      (hh : imgHeight s ≠ 0) : Transition i s (beginRaster (loadWork (latchConvert alg bd ti da s)))
  | convertStep (hc : isConvert i = true) (hb : s.status.busy = true) (hin : rasterInside s = true) :
      Transition i s (advanceRaster (convertPixel i s))
  | encodeStart {op : BitVec 4} {bd tp : BitVec 1} (hf : encodeFields i = some (op, bd, tp))
      (hb : s.status.busy = false) (hw : imgWidth s ≠ 0) (hh : imgHeight s ≠ 0)
      (hm : op = 3 → imgWidth s % 4 = 0) : Transition i s (beginEncode op (latchEncode op bd tp s))
  | encodeStep (hc : isConvert i = false) (hb : s.status.busy = true) {bs : List Byte} {after : State → State}
      (hm : EncodeMove s i bs after) (hcap : s.encLen.toNat + bs.length ≤ hwConfig.encCap) :
      Transition i s (after (encAppendAll bs s))

theorem exists_convertFields {i : Instr} (hc : isConvert i = true) :
    ∃ alg bd ti da, convertFields i = some (alg, bd, ti, da) := by
  cases i
  case enca1 | enca2 | encb1p | encb2p | encasm1p | encasm2p => cases hc
  all_goals exact ⟨_, _, _, _, rfl⟩

theorem exists_encodeFields {i : Instr} (hc : isConvert i = false) :
    ∃ op bd tp, encodeFields i = some (op, bd, tp) := by
  cases i
  case enca1 | enca2 | encb1p | encb2p | encasm1p | encasm2p => exact ⟨_, _, _, rfl⟩
  all_goals cases hc

theorem exec_transition {i : Instr} {s t : State} (h : exec i s = .next t) : Transition i s t := by
  cases hc : isConvert i with
  | true =>
    obtain ⟨alg, bd, ti, da, hf⟩ := exists_convertFields hc
    rw [exec_convert s hf] at h
    cases hb : s.status.busy with
    | true =>
      rw [runCommand_busy hb] at h
      obtain ⟨hin, rfl⟩ := pixelStep_eq_next.mp h
      exact .convertStep hc hb hin
    | false =>
      rw [runCommand_idle hb] at h
      obtain ⟨⟨hw, hh⟩, -, rfl⟩ := startConvert_eq_next.mp h
      exact .convertStart hf hb hw hh
  | false =>
    obtain ⟨op, bd, tp, hf⟩ := exists_encodeFields hc
    rw [exec_encode s hf] at h
    cases hb : s.status.busy with
    | true =>
      rw [runCommand_busy hb] at h
      obtain ⟨bs, after, hm, hcap, rfl⟩ := encodeStep_emits hc h
      exact .encodeStep hc hb hm hcap
    | false =>
      rw [runCommand_idle hb] at h
      obtain ⟨⟨hw, hh⟩, hm, rfl⟩ := startEncode_eq_next.mp h
      exact .encodeStart hf hb hw hh (by tauto)

end Sys2Proof.Proofs
end

section
/-! PROOFS. What a CONVERT step writes, and what no transition of a command changes. -/

namespace Sys2Proof.Proofs

open Sys2Proof.Machine Sys2Proof.Claims Sys2Proof.Laws

/-! ### The levels a CONVERT step writes (R18, R55, R75) -/

/-- A ColorLevel of a bit depth: 0 or 255 at one bit per channel, one of the four levels at two (R55). -/
def LevelOf (bd : BitVec 1) (v : Byte) : Prop := isLevel v = true ∧ (bd = 0 → v = 0 ∨ v = 255)

theorem q1_zero_or_full (v t : Rat) : q1 v t = 0 ∨ q1 v t = 255 := by
  unfold q1
  split
  · exact .inr rfl
  · exact .inl rfl

theorem levelOf_of_zero_or_full {bd : BitVec 1} {v : Byte} (h : v = 0 ∨ v = 255) : LevelOf bd v := by
  refine ⟨?_, fun _ => h⟩
  obtain rfl | rfl := h <;> decide

theorem isLevel_q2c (v : Rat) (c : Cutoffs) : isLevel (q2c v c) = true := by
  unfold q2c
  split_ifs <;> decide

theorem levelOf_quant (cfg : Config) (v : Rat) (t : BitVec 8) (bd : BitVec 1) : LevelOf bd (quant cfg v t bd) := by
  unfold quant
  split
  · exact levelOf_of_zero_or_full (q1_zero_or_full _ _)
  · rename_i hbd
    exact ⟨isLevel_q2c _ _, fun h => absurd h hbd⟩

theorem levelOf_ordLevel (cfg : Config) (bd : BitVec 1) (t : BitVec 8) (m : Int) (v : Rat) :
    LevelOf bd (ordLevel cfg bd t m v) := by
  unfold ordLevel
  split
  · exact levelOf_of_zero_or_full (q1_zero_or_full _ _)
  · rename_i hbd
    exact ⟨isLevel_q2c _ _, fun h => absurd h hbd⟩

/-- The R, G and B bytes a pixel write leaves at the cursor are the three it was given. -/
theorem outChan_writePixel {P : Byte → Prop} {r g b : Byte} (hr : P r) (hg : P g) (hb : P b) (s : State) {c : Nat}
    (hc : c < 3) : P (outChan (writePixel r g b s) s.cur.x.toNat s.cur.y.toNat c) := by
  unfold outChan
  rw [outByte_writePixel, imgWidth_writePixel]
  obtain rfl | rfl | rfl : c = 0 ∨ c = 1 ∨ c = 2 := by omega
  · simpa [pixelAddr] using hr
  · simpa [pixelAddr] using hg
  · simpa [pixelAddr] using hb

/-- The R, G and B bytes of an error-diffusion step are the channels' levels. -/
theorem outChan_edPixel (cfg : Config) (k : Kernel) (bd : BitVec 1) {s : State} (hin : rasterInside s = true) {c : Nat}
    (hc : c < 3) : outChan (edPixel cfg k bd s) s.cur.x.toNat s.cur.y.toNat c = edLevel cfg bd s c := by
  unfold outChan
  rw [outByte_edPixel _ _ _ _ hin, imgWidth_edPixel]
  obtain rfl | rfl | rfl : c = 0 ∨ c = 1 ∨ c = 2 := by omega
  all_goals simp [pixelAddr]

theorem levelOf_thrPixel (cfg : Config) (bd : BitVec 1) (s : State) {c : Nat} (hc : c < 3) :
    LevelOf bd (outChan (thrPixel cfg bd s) s.cur.x.toNat s.cur.y.toNat c) :=
  outChan_writePixel (levelOf_quant ..) (levelOf_quant ..) (levelOf_quant ..) s hc

theorem levelOf_ordPixel (cfg : Config) (n : MatrixSize) (bd : BitVec 1) (s : State) {c : Nat} (hc : c < 3) :
    LevelOf bd (outChan (ordPixel cfg n bd s) s.cur.x.toNat s.cur.y.toNat c) :=
  outChan_writePixel (levelOf_ordLevel ..) (levelOf_ordLevel ..) (levelOf_ordLevel ..) s hc

theorem levelOf_edPixel (cfg : Config) (k : Kernel) (bd : BitVec 1) {s : State} (hin : rasterInside s = true) {c : Nat}
    (hc : c < 3) : LevelOf bd (outChan (edPixel cfg k bd s) s.cur.x.toNat s.cur.y.toNat c) := by
  rw [outChan_edPixel _ _ _ hin hc]
  exact levelOf_quant ..

theorem levelOf_convertPixel {i : Instr} {alg : BitVec 3} {bd : BitVec 1} {ti : BitVec 8} {da : BitVec 9} {s : State}
    (hf : convertFields i = some (alg, bd, ti, da)) (hin : rasterInside s = true) {c : Nat} (hc : c < 3) :
    LevelOf bd (outChan (convertPixel i s) s.cur.x.toNat s.cur.y.toNat c) := by
  cases i <;> cases hf
  case thr1 | thr2 => exact levelOf_thrPixel _ _ _ hc
  case fs1 | fs2 | atk1 | atk2 => exact levelOf_edPixel _ _ _ hin hc
  all_goals exact levelOf_ordPixel _ _ _ _ hc

/-- Settles O20: a step of a CONVERT command is its pixel and the cursor's advance, and every pixel writes levels. -/
theorem convertWritesLevels : Obligations.ConvertWritesLevels := by
  unfold Obligations.ConvertWritesLevels
  intro i alg bd ti da s t c hf hb h hc
  rw [exec_convert s hf, runCommand_busy hb] at h
  obtain ⟨hin, rfl⟩ := pixelStep_eq_next.mp h
  rw [outChan_advanceRaster]
  exact levelOf_convertPixel hf hin hc

/-! ### What no transition changes -/

/-- What every transition of every command leaves as it was, field by field (R10, R30, R167). -/
theorem transition_keeps {i : Instr} {s t : State} (h : Transition i s t) :
    t.cmd = s.cmd ∧ t.imgW = s.imgW ∧ t.imgH = s.imgH ∧ t.src = s.src ∧ t.port = s.port ∧ t.epoch = s.epoch := by
  cases h with
  | convertStart => simp
  | convertStep => simp
  | encodeStart => simp
  | encodeStep _ _ hm => rw [encodeMove_eq hm]; simp

/-- The fields that only a start may write (R10). -/
theorem transition_par {i : Instr} {s t : State} (hb : s.status.busy = true) (h : Transition i s t) :
    t.par = s.par := by
  cases h with
  | convertStart _ hidle => simp [hb] at hidle
  | convertStep => simp
  | encodeStart _ hidle => simp [hb] at hidle
  | encodeStep _ _ hm => rw [encodeMove_eq hm]

theorem isConvert_of_convertFields {i : Instr} {f : BitVec 3 × BitVec 1 × BitVec 8 × BitVec 9}
    (hf : convertFields i = some f) : isConvert i = true := by
  cases i <;> cases hf <;> rfl

theorem isConvert_of_encodeFields {i : Instr} {f : BitVec 4 × BitVec 1 × BitVec 1} (hf : encodeFields i = some f) :
    isConvert i = false := by
  cases i <;> cases hf <;> rfl

/-- A CONVERT leaves ENC, and what its unwritten bytes read as (R17). -/
theorem transition_enc {i : Instr} {s t : State} (hc : isConvert i = true) (h : Transition i s t) :
    t.encLen = s.encLen ∧ t.enc = s.enc ∧ t.encGen = s.encGen := by
  cases h with
  | convertStart => simp
  | convertStep => simp
  | encodeStart hf => simp [isConvert_of_encodeFields hf] at hc
  | encodeStep hc' => simp [hc'] at hc

/-- An ENCODE leaves OUT and WORK (R126). -/
theorem transition_out_work {i : Instr} {s t : State} (hc : isConvert i = false) (h : Transition i s t) :
    t.out = s.out ∧ t.work = s.work := by
  cases h with
  | convertStart hf => simp [isConvert_of_convertFields hf] at hc
  | convertStep hc' => simp [hc'] at hc
  | encodeStart => simp
  | encodeStep _ _ hm => rw [encodeMove_eq hm]; simp

/-- The commands whose start fills WORK are the error-diffusion commands (R56). -/
theorem alg_of_isDiffusion_false {i : Instr} {alg : BitVec 3} {bd : BitVec 1} {ti : BitVec 8} {da : BitVec 9}
    (hf : convertFields i = some (alg, bd, ti, da)) (hd : isDiffusion i = false) : ¬ (alg = 1 ∨ alg = 2) := by
  cases i <;> cases hf
  case fs1 | fs2 | atk1 | atk2 => cases hd
  all_goals decide

/-- A command without error diffusion leaves WORK (R174). -/
theorem transition_work {i : Instr} {s t : State} (hd : isDiffusion i = false) (h : Transition i s t) :
    t.work = s.work := by
  cases h with
  | convertStart hf =>
    rw [beginRaster_work, loadWork_work]
    exact if_neg (alg_of_isDiffusion_false hf hd)
  | convertStep => simp [convertPixel_work s hd]
  | encodeStart => simp
  | encodeStep _ _ hm => rw [encodeMove_eq hm]

theorem isDiffusion_of_ordSize {i : Instr} {n : Nat} (h : ordSize i = some n) : isDiffusion i = false := by
  cases i <;> cases h <;> rfl

/-- Settles O40, by the fields each kind of transition leaves alone. -/
theorem engineLeavesAlone : Obligations.EngineLeavesAlone := by
  unfold Obligations.EngineLeavesAlone
  intro i s t h
  have htr := exec_transition h
  obtain ⟨hcmd, himgW, himgH, hsrc, hport, hepoch⟩ := transition_keeps htr
  have hwork : t.work = s.work → SameWork s t := fun e n => by simp [workAt, e, hepoch]
  refine ⟨fun a => by simp [srcByte, hsrc, hepoch], ⟨hcmd, himgW, himgH, hport, hepoch⟩,
    fun hb => transition_par hb htr, fun hc => ?_, fun hc => ?_, fun hi => hwork (transition_work ?_ htr)⟩
  · obtain ⟨hlen, henc, hgen⟩ := transition_enc hc htr
    exact ⟨hlen, fun a => by simp [encByte, henc, hgen]⟩
  · obtain ⟨hout, hw⟩ := transition_out_work hc htr
    exact ⟨fun a => by simp [outByte, hout, hepoch], hwork hw⟩
  · obtain ⟨n, hn⟩ | ⟨ti, da, rfl | rfl⟩ := hi
    · exact isDiffusion_of_ordSize hn
    · rfl
    · rfl

end Sys2Proof.Proofs
end

section
/-! PROOFS. One step of the machine: whose turn it is, and what the host reads and writes (10_state.md R11 to R15; 60_exceptions.md
R155; 70_reset_and_hazards.md R160). -/

namespace Sys2Proof.Proofs

open Sys2Proof.Machine Sys2Proof.Claims Sys2Proof.Laws

/-- The result of a turn: the answer, or the transition of the command it runs. -/
def resultOf : Issue → Result
  | .run i s => exec i s
  | .answer r => r

theorem step_eq (s : State) : step s = resultOf (issue s) := by
  unfold step
  cases issue s <;> rfl

/-! ### The turn that is due -/

theorem step_of_engine {s : State} {ts : List Turn} (h : s.port.agenda = .engine :: ts) :
    step s = resultOf (issueEngine (withAgenda ts s)) := by
  rw [step_eq, issue, h]

theorem step_of_empty {s : State} (h : s.port.agenda = []) : step s = resultOf (issueEngine s) := by
  rw [step_eq, issue, h]

theorem step_of_host {s : State} {m : HostMove} {ts : List Turn} (h : s.port.agenda = .host m :: ts) :
    step s = resultOf (issueHost m (withAgenda ts s)) := by
  rw [step_eq, issue, h]

theorem resultOf_issueEngine_idle {s : State} (hb : s.status.busy = false) :
    resultOf (issueEngine s) = .next s := by
  simp [issueEngine, hb, resultOf]

theorem resultOf_issueEngine_busy {s : State} {i : Instr} (hb : s.status.busy = true) (hr : running s = .ok i) :
    resultOf (issueEngine s) = exec i s := by
  unfold running at hr
  simp [issueEngine, hb, hr, resultOf]

theorem resultOf_issueCmd_busy {s : State} (w : Word) (hb : s.status.busy = true) :
    resultOf (issueCmd w s) = .next s := by
  simp [issueCmd, hb, resultOf]

theorem resultOf_issueCmd_ok {s : State} {w : Word} {i : Instr} (hb : s.status.busy = false) (hd : decode w = .ok i) :
    resultOf (issueCmd w s) = exec i (storeCmd w s) := by
  simp [issueCmd, hb, hd, resultOf]

theorem resultOf_issueCmd_reserved {s : State} {w : Word} {e : Reserved} (hb : s.status.busy = false)
    (hd : decode w = .error e) : resultOf (issueCmd w s) = .next (acceptReserved w s) := by
  simp [issueCmd, hb, hd, resultOf]

theorem issueHost_writeCmd (w : Word) (s : State) : issueHost (.writeReg 0 w) s = issueCmd w s := rfl

theorem resultOf_writePlain {n : Nat} (v : Word) (s : State) (hn : n ≠ 0) :
    resultOf (issueHost (.writeReg n v) s) = .next (writePlainReg n v s) := by
  simp [issueHost, hn, resultOf]

/-- Settles O42: the CMD write is the host's turn, and an idle engine accepts the word. -/
theorem writtenCommandRuns : Obligations.WrittenCommandRuns := by
  unfold Obligations.WrittenCommandRuns
  intro s w i ts hb ha hd
  rw [step_of_host ha, issueHost_writeCmd, resultOf_issueCmd_ok (by simpa using hb) hd]
  rfl

/-- The engine's turn, named in the agenda or due because the agenda is empty. -/
theorem step_of_turn {s : State} {ts : List Turn} (ha : s.port.agenda = .engine :: ts ∨ s.port.agenda = [] ∧ ts = []) :
    step s = resultOf (issueEngine { s with port := ⟨ts, s.port.rdata⟩ }) := by
  obtain ha | ⟨ha, rfl⟩ := ha
  · exact step_of_engine ha
  · rw [step_of_empty ha, ← ha]

/-- Settles O43: the engine's turn runs the latched command while BUSY = 1 and changes nothing otherwise. -/
theorem latchedCommandRuns : Obligations.LatchedCommandRuns := by
  unfold Obligations.LatchedCommandRuns
  intro s i ts ha
  rw [step_of_turn ha]
  exact ⟨fun hb hr => resultOf_issueEngine_busy hb hr, fun hb => resultOf_issueEngine_idle hb⟩

/-! ### Registers -/

/-- STATUS bit by bit: four flags, and 0 above them (R12). -/
theorem getLsbD_statusWord (st : Status) (k : Nat) : (statusWord st).getLsbD k =
    ((k == 0 && st.busy) || (k == 1 && st.done) || (k == 2 && st.diag) || (k == 3 && st.ill)) := by
  simp only [statusWord, BitVec.getLsbD_append, BitVec.getLsbD_ofBool]
  match k with
  | 0 | 1 | 2 | 3 => simp
  | j + 4 => simp

theorem readReg_imgW (s : State) : (readReg s 2).toNat = imgWidth s := by
  have := imgWidth_lt s
  simp only [readReg, BitVec.toNat_setWidth, imgWidth] at *
  omega

theorem readReg_imgH (s : State) : (readReg s 3).toNat = imgHeight s := by
  have := imgHeight_lt s
  simp only [readReg, BitVec.toNat_setWidth, imgHeight] at *
  omega

theorem readReg_unused {n : Nat} (s : State) (h : 5 ≤ n) : readReg s n = 0 := by
  obtain ⟨k, rfl⟩ := Nat.exists_eq_add_of_le' h
  rfl

/-- Settles O45: a register read returns `readReg` and leaves everything else. -/
theorem registerReads : Obligations.RegisterReads := by
  unfold Obligations.RegisterReads
  intro s n ts ha
  refine ⟨readReg s n, by rw [step_of_host ha]; rfl, ?_, ?_, ?_, ?_, ?_, readReg_unused s⟩
  · rintro rfl; rfl
  · rintro rfl; exact getLsbD_statusWord s.status
  · rintro rfl; exact readReg_imgW s
  · rintro rfl; exact readReg_imgH s
  · rintro rfl; rfl

theorem toNat_low12 (v : Word) : (v.extractLsb' 0 12).toNat = v.toNat % 4096 := by
  simp [BitVec.extractLsb'_toNat]

theorem writePlainReg_imgW (v : Word) (s : State) :
    writePlainReg 2 v s = { s with imgW := if s.status.busy then s.imgW else v.extractLsb' 0 12 } := by
  unfold writePlainReg
  cases s.status.busy <;> rfl

theorem writePlainReg_imgH (v : Word) (s : State) :
    writePlainReg 3 v s = { s with imgH := if s.status.busy then s.imgH else v.extractLsb' 0 12 } := by
  unfold writePlainReg
  cases s.status.busy <;> rfl

/-- While BUSY = 1 every register write is ignored (R13, R14). -/
theorem writePlainReg_busy {s : State} (n : Nat) (v : Word) (hb : s.status.busy = true) : writePlainReg n v s = s := by
  unfold writePlainReg
  split <;> simp [hb]

/-- STATUS, ENC_LEN and the unused numbers ignore writes (R12, R15). -/
theorem writePlainReg_ignored {n : Nat} (v : Word) (s : State) (h2 : n ≠ 2) (h3 : n ≠ 3) : writePlainReg n v s = s := by
  unfold writePlainReg
  split
  · exact absurd rfl h2
  · exact absurd rfl h3
  · rfl

/-- Settles O46: a dimension write is a plain register write, of the low 12 bits. -/
theorem dimensionRegisters : Obligations.DimensionRegisters := by
  unfold Obligations.DimensionRegisters
  refine ⟨rfl, rfl, fun s => ⟨?_, ?_⟩, fun s n v ts ha => ⟨?_, ?_⟩⟩
  · rw [readReg_imgW]; exact imgWidth_lt s
  · rw [readReg_imgH]; exact imgHeight_lt s
  · rintro rfl
    refine ⟨_, toNat_low12 v, ?_⟩
    rw [step_of_host ha, resultOf_writePlain _ _ (by decide), writePlainReg_imgW]
    rfl
  · rintro rfl
    refine ⟨_, toNat_low12 v, ?_⟩
    rw [step_of_host ha, resultOf_writePlain _ _ (by decide), writePlainReg_imgH]
    rfl

/-- Settles O47: a write to any other number leaves the state but for the turn taken. -/
theorem readOnlyRegisters : Obligations.ReadOnlyRegisters := by
  unfold Obligations.ReadOnlyRegisters
  intro s n v ts hn ha
  rw [step_of_host ha, resultOf_writePlain _ _ (by omega), writePlainReg_ignored _ _ (by omega) (by omega)]
  rfl

/-! ### Reset -/

/-- Settles O50: the reset state's fields read off. -/
theorem resetValues : Obligations.ResetValues := by
  unfold Obligations.ResetValues
  decide

/-- Settles O51: reset is one host move, and the idle engine it leaves takes no step. -/
theorem resetAtAnyTime : Obligations.ResetAtAnyTime := by
  unfold Obligations.ResetAtAnyTime
  intro s ts ha
  refine ⟨resetEvent (withAgenda ts s), by rw [step_of_host ha]; rfl, rfl, ?_, rfl, rfl, rfl, rfl, rfl, rfl, rfl, rfl,
    fun hts => ?_⟩
  · rw [resetEvent_status]
    decide
  · rw [step_of_empty (by simpa using hts), resultOf_issueEngine_idle rfl]

end Sys2Proof.Proofs
end

section
/-! PROOFS. Counting the steps of a command (30_encoding.md R60): the cursor's range, position and progress at the start, and what
one step does to them, said once for all commands by `StepEffect`. -/

namespace Sys2Proof.Proofs

open Sys2Proof.Machine Sys2Proof.Claims Sys2Proof.Laws

/-! ### The counting functions of a CONVERT command -/

theorem cursorInside_convert {i : Instr} (hc : isConvert i = true) (s : State) : cursorInside i s = rasterInside s := by
  cases i <;> cases hc <;> rfl

theorem stepsTaken_convert {i : Instr} (hc : isConvert i = true) (s : State) : stepsTaken i s = rasterPos s := by
  cases i <;> cases hc <;> rfl

theorem commandSteps_convert {i : Instr} (hc : isConvert i = true) (s : State) :
    commandSteps i s = imgWidth s * imgHeight s := by
  cases i <;> cases hc <;> rfl

theorem finalLength_convert {i : Instr} (hc : isConvert i = true) (s : State) : finalLength i s = s.encLen.toNat := by
  cases i <;> cases hc <;> rfl

/-- The steps of a command depend on the dimensions alone (R60, R167). -/
theorem commandSteps_congr (i : Instr) {s t : State} (hw : t.imgW = s.imgW) (hh : t.imgH = s.imgH) :
    commandSteps i t = commandSteps i s := by
  have hw' : imgWidth t = imgWidth s := congrArg BitVec.toNat hw
  have hh' : imgHeight t = imgHeight s := congrArg BitVec.toNat hh
  cases i <;> simp only [commandSteps, hw', hh']

/-! ### The range, and the position in it -/

theorem encaStride_le {n : Nat} (hn : 4 ≤ n) (s : State) : encaStride n s ≤ 2048 := by
  have := imgWidth_lt s
  calc (imgWidth s + (n - 1)) / n ≤ (2 * n + 2044 * n) / n := Nat.div_le_div_right (by omega)
    _ = 2046 := by rw [← Nat.add_mul, Nat.mul_div_cancel _ (by omega)]
    _ ≤ 2048 := by omega

theorem linesInside_iff {s : State} : linesInside s = true ↔
    s.cur.hdr = 0 ∨ (s.cur.hdr = 1 ∧ s.cur.y.toNat < imgHeight s ∧ imgWidth s % 4 = 0) := by
  simp [linesInside, and_assoc]

/-- A cursor in range has not reached the command's last step (R16, R60). -/
theorem stepsTaken_lt {i : Instr} {s : State} (hin : cursorInside i s = true) : stepsTaken i s < commandSteps i s := by
  have hlines : linesInside s = true → (if s.cur.hdr = 0 then 0 else 1 + s.cur.y.toNat) <
      if imgWidth s % 4 ≠ 0 then 1 else 1 + imgHeight s := by
    intro h
    obtain h0 | ⟨h1, hy, hw⟩ := linesInside_iff.mp h
    · rw [if_pos h0]
      split <;> omega
    · rw [if_neg (by simp [h1]), if_neg (by simp [hw])]
      omega
  cases i
  case enca1 | enca2 => exact planesPos_lt hin
  case encb1p | encb2p => exact groupsPos_lt hin
  case encasm1p | encasm2p => exact hlines hin
  all_goals exact rasterPos_lt hin

/-! ### The start -/

theorem encaStride_pos {n : Nat} (hn : 0 < n) {s : State} (hw : imgWidth s ≠ 0) : 0 < encaStride n s :=
  Nat.div_pos (by omega) hn

theorem encodeStart_counts {i : Instr} {op : BitVec 4} {bd tp : BitVec 1} {s t : State}
    (hf : encodeFields i = some (op, bd, tp)) (hw : imgWidth s ≠ 0) (hh : imgHeight s ≠ 0)
    (hm : op = 3 → imgWidth s % 4 = 0) (ht : t = beginEncode op (latchEncode op bd tp s)) :
    cursorInside i t = true ∧ stepsTaken i t = 0 ∧ (isConvert i = false → t.encLen.toNat = encodeProgress i t) := by
  have hheight : 0 < imgHeight s := Nat.pos_of_ne_zero hh
  subst ht
  cases i <;> cases hf
  case enca1 | enca2 =>
    simp [cursorInside, stepsTaken, encodeProgress, planesInside, planesPos, startCursor, encaStride_pos, hw, hheight]
  case encb1p | encb2p =>
    have hgroups : 0 < imgWidth s / 4 := by have := hm rfl; omega
    simp [cursorInside, stepsTaken, encodeProgress, groupsInside, groupsPos, startCursor, groupsPerRow, hheight, hgroups]
  all_goals simp [cursorInside, stepsTaken, encodeProgress, linesInside, startCursor]

/-- A start puts the cursor in range, with no step taken and nothing appended (R16, R56). -/
theorem start_counts {i : Instr} {s t : State} (hb : s.status.busy = false) (h : Transition i s t) :
    cursorInside i t = true ∧ stepsTaken i t = 0 ∧ (isConvert i = false → t.encLen.toNat = encodeProgress i t) := by
  cases h with
  | convertStart hf _ hw hh =>
    have hc := isConvert_of_convertFields hf
    rw [cursorInside_convert hc, stepsTaken_convert hc, rasterInside_iff]
    refine ⟨?_, ?_, fun he => by simp [hc] at he⟩
    · simp; omega
    · simp [rasterPos]
  | convertStep _ hbusy => simp [hb] at hbusy
  | encodeStart hf _ hw hh hm => exact encodeStart_counts hf hw hh hm rfl
  | encodeStep _ hbusy => simp [hb] at hbusy

/-! ### One step -/

/-- What one step does to a running command: at its last step it finishes with the output complete, at any other it goes on with
one more step taken (R16, R35, R60). -/
structure StepEffect (i : Instr) (s t : State) : Prop where
  last : stepsTaken i s + 1 = commandSteps i s →
    t.status.busy = false ∧ t.status.done = true ∧ t.status.ill = s.status.ill ∧ t.encLen.toNat = finalLength i s
  more : stepsTaken i s + 1 ≠ commandSteps i s →
    t.status = s.status ∧ cursorInside i t = true ∧ stepsTaken i t = stepsTaken i s + 1 ∧
      (isConvert i = false → t.encLen.toNat = encodeProgress i t)

/-- The usual case: the flags finish exactly at the last step, and otherwise the cursor goes on in range. -/
theorem stepEffect_of_counted {i : Instr} {s t : State}
    (hstatus : t.status = if stepsTaken i s + 1 = commandSteps i s then statusFinish s.status else s.status)
    (hlast : stepsTaken i s + 1 = commandSteps i s → t.encLen.toNat = finalLength i s)
    (hmore : t.status = s.status → cursorInside i t = true ∧ stepsTaken i t = stepsTaken i s + 1 ∧
      (isConvert i = false → t.encLen.toNat = encodeProgress i t)) : StepEffect i s t where
  last h := by
    rw [if_pos h] at hstatus
    simp only [hstatus, statusFinish, true_and]
    exact hlast h
  more h := by
    rw [if_neg h] at hstatus
    exact ⟨hstatus, hmore hstatus⟩

theorem stepEffect_convert {i : Instr} (hc : isConvert i = true) {s : State} (hb : s.status.busy = true)
    (hin : rasterInside s = true) : StepEffect i s (advanceRaster (convertPixel i s)) := by
  have hin' : rasterInside (convertPixel i s) = true := by simpa using hin
  refine stepEffect_of_counted ?_ (fun _ => ?_) (fun hst => ⟨?_, ?_, fun he => by simp [hc] at he⟩)
  · rw [advanceRaster_status hin', stepsTaken_convert hc, commandSteps_convert hc]
    simp only [convertPixel_cur, convertPixel_status, imgWidth_convertPixel, imgHeight_convertPixel,
      raster_last_iff hin]
  · simp [finalLength_convert hc]
  · rw [cursorInside_convert hc]
    exact advanceRaster_inside hin' (by rw [hst, hb])
  · rw [stepsTaken_convert hc, stepsTaken_convert hc, rasterPos_advance hin', rasterPos_convertPixel]

/-! What appending leaves of an ENCODE step's range and position. -/

@[simp] theorem planesInside_encAppendAll (n : Nat) (bs : List Byte) (s : State) :
    planesInside n (encAppendAll bs s) = planesInside n s := by simp [planesInside]
@[simp] theorem planesPos_encAppendAll (n : Nat) (bs : List Byte) (s : State) :
    planesPos n (encAppendAll bs s) = planesPos n s := by simp [planesPos]
@[simp] theorem groupsPerRow_encAppendAll (bs : List Byte) (s : State) :
    groupsPerRow (encAppendAll bs s) = groupsPerRow s := by simp [groupsPerRow]
@[simp] theorem groupsInside_encAppendAll (bs : List Byte) (s : State) :
    groupsInside (encAppendAll bs s) = groupsInside s := by simp [groupsInside]
@[simp] theorem groupsPos_encAppendAll (bs : List Byte) (s : State) :
    groupsPos (encAppendAll bs s) = groupsPos s := by simp [groupsPos]
@[simp] theorem encaStride_advancePlanes (n m : Nat) (s : State) : encaStride n (advancePlanes m s) = encaStride n s := by
  simp [encaStride]
@[simp] theorem encaStride_encAppendAll (n : Nat) (bs : List Byte) (s : State) :
    encaStride n (encAppendAll bs s) = encaStride n s := by simp [encaStride]

theorem encLen_encAppendAll {bs : List Byte} {s : State} (hcap : s.encLen.toNat + bs.length ≤ hwConfig.encCap) :
    (encAppendAll bs s).encLen.toNat = s.encLen.toNat + bs.length :=
  encAppendAll_encLen_toNat bs s (lt_of_le_of_lt hcap (by decide))

theorem stepEffect_planes {i : Instr} {n : Nat} (hi : i = .enca1 ∧ n = 8 ∨ i = .enca2 ∧ n = 4) {s : State}
    (hb : s.status.busy = true) (hin : planesInside (encaStride n s) s = true) {b : Byte}
    (hlen : (encAppendAll [b] s).encLen.toNat = encodeProgress i s + 1) :
    StepEffect i s (advancePlanes (encaStride n s) (encAppendAll [b] s)) := by
  have hn := encaStride_le (n := n) (by omega) s
  have hin' : planesInside (encaStride n s) (encAppendAll [b] s) = true := by simpa using hin
  have hcursor : ∀ u, cursorInside i u = planesInside (encaStride n u) u := by
    obtain ⟨rfl, rfl⟩ | ⟨rfl, rfl⟩ := hi <;> intro u <;> rfl
  have htaken : ∀ u, stepsTaken i u = planesPos (encaStride n u) u := by
    obtain ⟨rfl, rfl⟩ | ⟨rfl, rfl⟩ := hi <;> intro u <;> rfl
  have hprogress : ∀ u, encodeProgress i u = planesPos (encaStride n u) u := by
    obtain ⟨rfl, rfl⟩ | ⟨rfl, rfl⟩ := hi <;> intro u <;> rfl
  have hsteps : commandSteps i s = 3 * imgHeight s * encaStride n s := by
    obtain ⟨rfl, rfl⟩ | ⟨rfl, rfl⟩ := hi <;> rfl
  have hfinal : finalLength i s = 3 * imgHeight s * encaStride n s := by
    obtain ⟨rfl, rfl⟩ | ⟨rfl, rfl⟩ := hi <;> rfl
  rw [hprogress] at hlen
  refine stepEffect_of_counted ?_ (fun hlast => ?_) (fun hst => ⟨?_, ?_, fun _ => ?_⟩)
  · rw [advancePlanes_status hin' hn, htaken, hsteps]
    simp only [encAppendAll_cur, encAppendAll_status, imgHeight_encAppendAll, planes_last_iff hin]
  · rw [htaken, hsteps] at hlast
    rw [advancePlanes_encLen, hlen, hfinal, hlast]
  · rw [hcursor, encaStride_advancePlanes, encaStride_encAppendAll]
    exact advancePlanes_inside hin' hn (by rw [hst, hb])
  · rw [htaken, htaken, encaStride_advancePlanes, encaStride_encAppendAll, planesPos_advance hin' hn,
      planesPos_encAppendAll]
  · rw [hprogress, encaStride_advancePlanes, encaStride_encAppendAll, planesPos_advance hin' hn,
      planesPos_encAppendAll, advancePlanes_encLen, hlen]

/-- The planes of an ENCB command, as bytes of a group (R121). -/
def planesOf (two : Bool) : Nat := if two then 2 else 1

theorem encbBytes_length (two : Bool) (s : State) : (encbBytes two s).length = planesOf two := by
  cases two <;> rfl

theorem stepEffect_groups {i : Instr} {two : Bool} (hi : i = .encb1p ∧ two = false ∨ i = .encb2p ∧ two = true)
    {s : State} (hb : s.status.busy = true) (hin : groupsInside s = true) {bs : List Byte}
    (hlen : (encAppendAll bs s).encLen.toNat = encodeProgress i s + planesOf two) :
    StepEffect i s (advanceGroups (encAppendAll bs s)) := by
  have hin' : groupsInside (encAppendAll bs s) = true := by simpa using hin
  have hcursor : ∀ u, cursorInside i u = groupsInside u := by
    obtain ⟨rfl, rfl⟩ | ⟨rfl, rfl⟩ := hi <;> intro u <;> rfl
  have htaken : ∀ u, stepsTaken i u = groupsPos u := by
    obtain ⟨rfl, rfl⟩ | ⟨rfl, rfl⟩ := hi <;> intro u <;> rfl
  have hprogress : ∀ u, encodeProgress i u = groupsPos u * planesOf two := by
    obtain ⟨rfl, rfl⟩ | ⟨rfl, rfl⟩ := hi <;> intro u <;> simp [encodeProgress, planesOf]
  have hsteps : commandSteps i s = imgHeight s * groupsPerRow s := by
    obtain ⟨rfl, rfl⟩ | ⟨rfl, rfl⟩ := hi <;> rfl
  have hfinal : finalLength i s = imgHeight s * groupsPerRow s * planesOf two := by
    obtain ⟨rfl, rfl⟩ | ⟨rfl, rfl⟩ := hi <;> simp [finalLength, groupsPerRow, planesOf]
  have hnext : (encAppendAll bs s).encLen.toNat = (groupsPos s + 1) * planesOf two := by
    rw [hlen, hprogress]
    ring
  refine stepEffect_of_counted ?_ (fun hlast => ?_) (fun hst => ⟨?_, ?_, fun _ => ?_⟩)
  · rw [advanceGroups_status hin', htaken, hsteps]
    simp only [encAppendAll_cur, encAppendAll_status, imgHeight_encAppendAll, groupsPerRow_encAppendAll,
      groups_last_iff hin]
  · rw [htaken, hsteps] at hlast
    rw [advanceGroups_encLen, hnext, hlast, hfinal]
  · rw [hcursor]
    exact advanceGroups_inside hin' (by rw [hst, hb])
  · rw [htaken, htaken, groupsPos_advance hin', groupsPos_encAppendAll]
  · rw [hprogress, groupsPos_advance hin', groupsPos_encAppendAll, advanceGroups_encLen, hnext]

/-! ### The text of ENCASM -/

theorem decimalText_eq (n : Nat) : decimalText n = decText n := by
  rw [decText_eq]
  rfl

/-- The bytes an ENCASM command appends on a width that is a multiple of 4 (R139, R140). -/
theorem finalLength_lines {i : Instr} {two : Bool} (hi : i = .encasm1p ∧ two = false ∨ i = .encasm2p ∧ two = true)
    {s : State} (hw : imgWidth s % 4 = 0) :
    finalLength i s = headerLength s + imgHeight s * (10 * (groupsPerRow s * planesOf two) + 6) := by
  obtain ⟨rfl, rfl⟩ | ⟨rfl, rfl⟩ := hi <;>
    simp only [finalLength, hw, if_true, decimalText_eq, headerLength, groupsPerRow, planesOf, Bool.false_eq_true,
      if_false] <;> ring

/-- On any other width it appends the header and the 30 bytes of the diagnostic line (R138). -/
theorem finalLength_diagnostic {i : Instr} (hi : i = .encasm1p ∨ i = .encasm2p) {s : State} (hw : imgWidth s % 4 ≠ 0) :
    finalLength i s = headerLength s + 30 := by
  obtain rfl | rfl := hi <;> simp only [finalLength, hw, if_false, decimalText_eq, headerLength] <;> omega

theorem encodeProgress_hdr_zero {i : Instr} (hi : i = .encasm1p ∨ i = .encasm2p) {s : State} (hhdr : s.cur.hdr = 0) :
    encodeProgress i s = 0 := by
  obtain rfl | rfl := hi <;> simp [encodeProgress, hhdr]

/-- The progress of ENCASM among its row lines. -/
theorem encodeProgress_lines {i : Instr} {two : Bool} (hi : i = .encasm1p ∧ two = false ∨ i = .encasm2p ∧ two = true)
    {s : State} (hhdr : s.cur.hdr = 1) :
    encodeProgress i s = headerLength s + s.cur.y.toNat * (10 * (groupsPerRow s * planesOf two) + 6) := by
  obtain ⟨rfl, rfl⟩ | ⟨rfl, rfl⟩ := hi <;> simp [encodeProgress, hhdr, lineLength, planesOf]

theorem stepsTaken_encasm {i : Instr} (hi : i = .encasm1p ∨ i = .encasm2p) (s : State) :
    stepsTaken i s = if s.cur.hdr = 0 then 0 else 1 + s.cur.y.toNat := by
  obtain rfl | rfl := hi <;> rfl

theorem commandSteps_encasm {i : Instr} (hi : i = .encasm1p ∨ i = .encasm2p) (s : State) :
    commandSteps i s = if imgWidth s % 4 ≠ 0 then 1 else 1 + imgHeight s := by
  obtain rfl | rfl := hi <;> rfl

theorem cursorInside_encasm {i : Instr} (hi : i = .encasm1p ∨ i = .encasm2p) (s : State) :
    cursorInside i s = linesInside s := by
  obtain rfl | rfl := hi <;> rfl

theorem stepEffect_header {i : Instr} (hi : i = .encasm1p ∨ i = .encasm2p) {s : State} (hh : 0 < imgHeight s)
    (hhdr : s.cur.hdr = 0) (hw : imgWidth s % 4 = 0) {bs : List Byte}
    (hlen : (encAppendAll bs s).encLen.toNat = headerLength s) : StepEffect i s (beginLines (encAppendAll bs s)) := by
  have htaken : stepsTaken i s = 0 := by rw [stepsTaken_encasm hi, if_pos hhdr]
  have hsteps : commandSteps i s = 1 + imgHeight s := by rw [commandSteps_encasm hi, if_neg (by simp [hw])]
  refine ⟨fun h => by omega, fun _ => ⟨by simp, ?_, ?_, fun _ => ?_⟩⟩
  · rw [cursorInside_encasm hi, linesInside_iff]
    exact .inr ⟨by simp, by simpa using hh, by simpa using hw⟩
  · rw [stepsTaken_encasm hi, htaken]
    simp
  · have hp : encodeProgress i (beginLines (encAppendAll bs s)) = headerLength s := by
      obtain rfl | rfl := hi <;> simp [encodeProgress, headerLength]
    rw [hp, beginLines_encLen, hlen]

theorem stepEffect_diagnostic {i : Instr} (hi : i = .encasm1p ∨ i = .encasm2p) {s : State} (hhdr : s.cur.hdr = 0)
    (hw : imgWidth s % 4 ≠ 0) {bs : List Byte} (hlen : (encAppendAll bs s).encLen.toNat = headerLength s + 30) :
    StepEffect i s (finishDiag (encAppendAll bs s)) := by
  have htaken : stepsTaken i s = 0 := by rw [stepsTaken_encasm hi, if_pos hhdr]
  have hsteps : commandSteps i s = 1 := by rw [commandSteps_encasm hi, if_pos hw]
  refine ⟨fun _ => ⟨rfl, rfl, by simp, ?_⟩, fun h => absurd (by omega) h⟩
  rw [finishDiag_encLen, hlen, finalLength_diagnostic hi hw]

theorem stepEffect_line {i : Instr} {two : Bool} (hi : i = .encasm1p ∧ two = false ∨ i = .encasm2p ∧ two = true)
    {s : State} (hw : imgWidth s % 4 = 0) (hhdr : s.cur.hdr = 1) (hy : s.cur.y.toNat < imgHeight s) {bs : List Byte}
    (hlen : (encAppendAll bs s).encLen.toNat =
      encodeProgress i s + (10 * (groupsPerRow s * planesOf two) + 6)) :
    StepEffect i s (advanceLines (encAppendAll bs s)) := by
  have hi' : i = .encasm1p ∨ i = .encasm2p := hi.imp And.left And.left
  have hsucc := lines_succ_y hy
  have htaken : stepsTaken i s = 1 + s.cur.y.toNat := by rw [stepsTaken_encasm hi', if_neg (by simp [hhdr])]
  have hsteps : commandSteps i s = 1 + imgHeight s := by rw [commandSteps_encasm hi', if_neg (by simp [hw])]
  have hlast : stepsTaken i s + 1 = commandSteps i s ↔ s.cur.y.toNat + 1 = imgHeight s := by omega
  have hstatus : (advanceLines (encAppendAll bs s)).status =
      if s.cur.y.toNat + 1 = imgHeight s then statusFinish s.status else s.status := by
    rw [advanceLines_status (by simpa using hy)]
    simp
  have hnext : (encAppendAll bs s).encLen.toNat =
      headerLength s + (s.cur.y.toNat + 1) * (10 * (groupsPerRow s * planesOf two) + 6) := by
    rw [hlen, encodeProgress_lines hi hhdr]
    ring
  refine ⟨fun h => ?_, fun h => ⟨?_, ?_, ?_, fun _ => ?_⟩⟩
  · have he := hlast.mp h
    rw [hstatus, if_pos he, advanceLines_encLen, hnext, he, finalLength_lines hi hw]
    simp [statusFinish]
  · rw [hstatus, if_neg (mt hlast.mpr h)]
  · have hne := mt hlast.mpr h
    rw [cursorInside_encasm hi', linesInside_iff]
    refine .inr ⟨by simpa using hhdr, ?_, by simpa using hw⟩
    simp only [advanceLines_cur, encAppendAll_cur, hsucc, imgHeight_advanceLines, imgHeight_encAppendAll]
    omega
  · rw [stepsTaken_encasm hi', htaken]
    simp only [advanceLines_cur, encAppendAll_cur, hhdr, hsucc]
    simp
    omega
  · rw [encodeProgress_lines hi (by simpa using hhdr)]
    simp only [advanceLines_cur, encAppendAll_cur, hsucc, advanceLines_encLen, hnext, headerLength, groupsPerRow,
      imgWidth_advanceLines, imgWidth_encAppendAll, imgHeight_advanceLines, imgHeight_encAppendAll]

/-! ### Every step -/

/-- A step of the command that executes has the effect of `StepEffect`. -/
theorem step_effect {i : Instr} {s t : State} (he : Executing i s) (hb : s.status.busy = true)
    (h : Transition i s t) : StepEffect i s t := by
  cases h with
  | convertStart _ hidle => simp [hb] at hidle
  | encodeStart _ hidle => simp [hb] at hidle
  | convertStep hc _ hin => exact stepEffect_convert hc hb hin
  | encodeStep hc _ hm hcap =>
    have hlen := encLen_encAppendAll hcap
    rw [he.appended hc] at hlen
    cases hm with
    | planes hi hin b => exact stepEffect_planes hi hb hin hlen
    | groups hi hin =>
      rw [encbBytes_length] at hlen
      exact stepEffect_groups hi hb hin hlen
    | header hi hhdr hw =>
      rw [encodeProgress_hdr_zero hi hhdr, headerText_length, Nat.zero_add] at hlen
      exact stepEffect_header hi he.height hhdr hw hlen
    | diagnostic hi hhdr hw =>
      rw [encodeProgress_hdr_zero hi hhdr, List.length_append, headerText_length, Nat.zero_add] at hlen
      exact stepEffect_diagnostic hi hhdr hw hlen
    | line hi hhdr hy =>
      have hin := he.inside
      rw [cursorInside_encasm (hi.imp And.left And.left), linesInside_iff, hhdr] at hin
      obtain ⟨-, -, hw⟩ := hin.resolve_left (by decide)
      rw [rowLine_length _ _ _ _ (by have := he.width; omega)] at hlen
      exact stepEffect_line hi hw hhdr hy hlen

end Sys2Proof.Proofs
end

section
/-! PROOFS. The latched word: the word written to CMD is the one the parameter registers stand for after the start (10_state.md R10,
R11; 30_encoding.md R50 to R56). -/

namespace Sys2Proof.Proofs

open Sys2Proof.Machine Sys2Proof.Claims Sys2Proof.Laws

/-- A Format C word decodes to the command of its own fields. -/
theorem convertFields_of_convertOf {alg : BitVec 3} {bd : BitVec 1} {ti : BitVec 8} {da : BitVec 9} {i : Instr}
    (h : convertOf alg bd ti da = .ok i) : convertFields i = some (alg, bd, ti, da) := by
  obtain ⟨a, ha⟩ := alg
  obtain ⟨b, hb⟩ := bd
  interval_cases a <;> interval_cases b <;> cases h <;> rfl

theorem encode_of_convertFields {i : Instr} {alg : BitVec 3} {bd : BitVec 1} {ti : BitVec 8} {da : BitVec 9}
    (hf : convertFields i = some (alg, bd, ti, da)) : encode i = formatC alg bd ti da := by
  cases i <;> cases hf <;> rfl

theorem encode_of_encodeFields {i : Instr} {op : BitVec 4} {bd tp : BitVec 1}
    (hf : encodeFields i = some (op, bd, tp)) : encode i = formatE op bd tp := by
  cases i <;> cases hf <;> rfl

/-- A Format E word decodes to the command of its own OPC, BD and TP. -/
theorem encodeFields_of_decodeEnc {w : Word} {i : Instr}
    (h : (fieldOpc w).toNat = 2 ∧ decodeEncA w = .ok i ∨ (fieldOpc w).toNat = 3 ∧ decodeEncB w = .ok i ∨
      (fieldOpc w).toNat = 4 ∧ decodeEncAsm w = .ok i) : encodeFields i = some (fieldOpc w, fieldBd w, fieldTp w) := by
  have hone : ∀ b : BitVec 1, b ≠ 0 → b = 1 := by decide
  obtain ⟨ho, hd⟩ | ⟨ho, hd⟩ | ⟨ho, hd⟩ := h
  · have hopc : fieldOpc w = 2 := BitVec.eq_of_toNat_eq ho
    unfold decodeEncA at hd
    split_ifs at hd with h1 h2 <;> cases hd
    · simp [encodeFields, hopc, h1, h2]
    · simp [encodeFields, hopc, h1, hone _ h2]
  · have hopc : fieldOpc w = 3 := BitVec.eq_of_toNat_eq ho
    unfold decodeEncB at hd
    split_ifs at hd with h1 h2 <;> cases hd
    · simp [encodeFields, hopc, h1, h2]
    · simp [encodeFields, hopc, h1, hone _ h2]
  · have hopc : fieldOpc w = 4 := BitVec.eq_of_toNat_eq ho
    unfold decodeEncAsm at hd
    split_ifs at hd with h1 h2 <;> cases hd
    · simp [encodeFields, hopc, h1, h2]
    · simp [encodeFields, hopc, h1, hone _ h2]

/-- The word a command was decoded from is the command's own word: no bit is dropped. -/
theorem encode_of_decode {w : Word} {i : Instr} (h : decode w = .ok i) : encode i = w := by
  have hE : formatEZero w = true → encodeFields i = some (fieldOpc w, fieldBd w, fieldTp w) → encode i = w := by
    intro hz hf
    rw [encode_of_encodeFields hf, formatE_fields w hz]
  unfold decode at h
  split at h
  · rename_i ho
    unfold decodeC at h
    split at h
    · rename_i hz
      rw [encode_of_convertFields (convertFields_of_convertOf h), formatC_fields w (BitVec.eq_of_toNat_eq ho) hz]
    · cases h
  · rename_i ho
    split at h
    · rename_i hz
      exact hE hz (encodeFields_of_decodeEnc (.inl ⟨ho, h⟩))
    · cases h
  · rename_i ho
    split at h
    · rename_i hz
      exact hE hz (encodeFields_of_decodeEnc (.inr (.inl ⟨ho, h⟩)))
    · cases h
  · rename_i ho
    split at h
    · rename_i hz
      exact hE hz (encodeFields_of_decodeEnc (.inr (.inr ⟨ho, h⟩)))
    · cases h
  · cases h

/-- The OPC of an ENCODE command is not that of Format C. -/
theorem op_ne_one {i : Instr} {op : BitVec 4} {bd tp : BitVec 1} (hf : encodeFields i = some (op, bd, tp)) :
    op ≠ 1 := by
  cases i <;> cases hf <;> decide

/-- After a start the parameter registers stand for the command's word (R56). -/
theorem start_latchedWord {i : Instr} {s t : State} (hb : s.status.busy = false) (h : Transition i s t) :
    latchedWord t.par = encode i := by
  cases h with
  | convertStart hf => rw [encode_of_convertFields hf]; simp [latchedWord]
  | convertStep _ hbusy => simp [hb] at hbusy
  | encodeStart hf => rw [encode_of_encodeFields hf]; exact if_neg (op_ne_one hf)
  | encodeStep _ hbusy => simp [hb] at hbusy

end Sys2Proof.Proofs
end

section
/-! PROOFS. The invariant of the machine: it holds at reset, and every turn of the host and of the engine keeps it (10_state.md R12,
R16, R19; 20_memory.md R35). -/

namespace Sys2Proof.Proofs

open Sys2Proof.Machine Sys2Proof.Claims Sys2Proof.Laws

/-- Settles O52: the reset state is idle and its buffers are empty. -/
theorem invariantAtReset : Obligations.InvariantAtReset where
  status := by decide
  src := .nil
  out := .nil
  work := .nil
  enc := rfl
  fits := by decide
  busy h := by cases h

/-! ### The flags -/

/-- The words STATUS can read as (V-ENC-3). -/
abbrev LegalStatus (st : Status) : Prop := statusWord st ∈ [0x0#32, 0x1#32, 0x2#32, 0x6#32, 0xA#32]

/-- While a command runs every other flag is 0 (R12, R56). -/
theorem status_of_busy {st : Status} (h : LegalStatus st) (hb : st.busy = true) : st = statusStart := by
  obtain ⟨b, d, g, l⟩ := st
  subst hb
  revert h
  cases d <;> cases g <;> cases l <;> decide

theorem legalStatus_finished {st : Status} (hb : st.busy = false) (hd : st.done = true) (hi : st.ill = false) :
    LegalStatus st := by
  obtain ⟨b, d, g, l⟩ := st
  subst hb hd hi
  cases g <;> decide

/-! ### Host moves -/

/-- The host's port takes no part in the invariant. -/
theorem inv_port {s : State} (p : Port) (h : Inv s) : Inv { s with port := p } where
  status := h.status
  src := h.src
  out := h.out
  work := h.work
  enc := h.enc
  fits := h.fits
  busy hb := by
    obtain ⟨i, he⟩ := h.busy hb
    have hin : cursorInside i { s with port := p } = cursorInside i s := by cases i <;> rfl
    have hpr : encodeProgress i { s with port := p } = encodeProgress i s := by cases i <;> rfl
    exact ⟨i, he.latched, he.accepted, he.width, he.height, hin.trans he.inside,
      fun hc => (he.appended hc).trans hpr.symm, he.multiple⟩

/-- A move that leaves the engine idle needs only legal flags and canonical SRC and OUT. -/
theorem inv_idle {s t : State} (h : Inv s) (hb : t.status.busy = false) (hst : LegalStatus t.status)
    (hsrc : Memory.wf t.src) (hout : Memory.wf t.out) (hwork : t.work = s.work) (henc : t.enc = s.enc)
    (hlen : t.encLen = s.encLen) : Inv t where
  status := hst
  src := hsrc
  out := hout
  work := hwork ▸ h.work
  enc := by rw [henc, hlen, h.enc]
  fits := hlen ▸ h.fits
  busy hbusy := by simp [hb] at hbusy

theorem inv_writePlainReg {s : State} (n : Nat) (v : Word) (h : Inv s) : Inv (writePlainReg n v s) := by
  cases hb : s.status.busy with
  | false =>
    exact inv_idle h (by simpa using hb) (by simpa using h.status) (by simpa using h.src) (by simpa using h.out)
      (by simp) (by simp) (by simp)
  | true =>
    rwa [writePlainReg_busy n v hb]

theorem inv_hostRead {s t : State} {sp : Space} {a : Nat} (h : Inv s) (he : hostRead sp a s = .next t) : Inv t := by
  have hread : ∀ v, returnRead v s = t → Inv t := by
    rintro v rfl
    exact inv_port _ h
  unfold hostRead at he
  split at he
  · cases he
  · split at he
    case h_1 | h_2 | h_3 =>
      split at he
      · exact hread _ (Host.Outcome.next.inj he)
      · cases he
    all_goals cases he

theorem inv_hostWrite {s t : State} {sp : Space} {a : Nat} {v : Byte} (h : Inv s) (he : hostWrite sp a v s = .next t) :
    Inv t := by
  unfold hostWrite at he
  split at he
  · cases he
  · rename_i hb
    have hb : s.status.busy = false := by simpa using hb
    split at he
    case h_1 =>
      split at he <;> cases he
      exact inv_idle h hb h.status (Memory_wf_put _ _ h.src) h.out rfl rfl rfl
    case h_2 =>
      split at he <;> cases he
      exact inv_idle h hb h.status h.src (Memory_wf_put _ _ h.out) rfl rfl rfl
    all_goals cases he

theorem inv_resetEvent (s : State) : Inv (resetEvent s) where
  status := invariantAtReset.status
  src := .nil
  out := .nil
  work := .nil
  enc := rfl
  fits := invariantAtReset.fits
  busy h := by cases h

/-! ### Transitions of commands -/

/-- The part of the invariant that speaks of the buffers. -/
structure BuffersOk (s : State) : Prop where
  src : Memory.wf s.src
  out : Memory.wf s.out
  work : WorkSpace.wf s.work
  enc : s.enc.map Prod.fst = List.range s.encLen.toNat
  fits : s.encLen.toNat ≤ hwConfig.encCap

theorem buffersOk_of_inv {s : State} (h : Inv s) : BuffersOk s := ⟨h.src, h.out, h.work, h.enc, h.fits⟩

/-- Every transition of a command keeps the buffers canonical and ENC filled up to ENC_LEN (R19). -/
theorem transition_buffersOk {i : Instr} {s t : State} (h : BuffersOk s) (htr : Transition i s t) : BuffersOk t := by
  cases htr with
  | convertStart hf =>
    refine ⟨by simpa using h.src, by simpa using h.out, ?_, by simpa using h.enc, by simpa using h.fits⟩
    rw [beginRaster_work, loadWork_work]
    split
    · exact rangeMap_rising _ _
    · exact h.work
  | convertStep hc hb hin =>
    exact ⟨by simpa using h.src, by simpa using convertPixel_out_wf i h.out, by simpa using convertPixel_work_wf i h.work,
      by simpa using h.enc, by simpa using h.fits⟩
  | encodeStart => exact ⟨h.src, h.out, h.work, rfl, by simp⟩
  | encodeStep hc hb hm hcap =>
    rw [encodeMove_eq hm]
    exact ⟨h.src, h.out, h.work, encAppendAll_filled _ _ (lt_of_le_of_lt hcap (by decide)) h.enc,
      by rw [encLen_encAppendAll hcap]; exact hcap⟩

theorem start_status {i : Instr} {s t : State} (hb : s.status.busy = false) (h : Transition i s t) :
    t.status = statusStart := by
  cases h with
  | convertStart => rfl
  | convertStep _ hbusy => simp [hb] at hbusy
  | encodeStart => rfl
  | encodeStep _ hbusy => simp [hb] at hbusy

/-- A start finds legal dimensions, and for Format B a width that is a multiple of 4 (R56, R122). -/
theorem start_dimensions {i : Instr} {s t : State} (hb : s.status.busy = false) (h : Transition i s t) :
    imgWidth s ≠ 0 ∧ imgHeight s ≠ 0 ∧ (isFormatB i = true → imgWidth s % 4 = 0) := by
  cases h with
  | convertStart hf _ hw hh =>
    refine ⟨hw, hh, fun hB => ?_⟩
    cases i <;> cases hf <;> cases hB
  | convertStep _ hbusy => simp [hb] at hbusy
  | encodeStart hf _ hw hh hm =>
    refine ⟨hw, hh, fun hB => hm ?_⟩
    cases i <;> cases hf <;> cases hB <;> rfl
  | encodeStep _ hbusy => simp [hb] at hbusy

/-- The start of the command that an accepted word stands for keeps the invariant (R56). -/
theorem inv_start {i : Instr} {s t : State} {w : Word} (h : Inv s) (hb : s.status.busy = false) (hd : decode w = .ok i)
    (htr : Transition i (storeCmd w s) t) : Inv t := by
  have hb' : (storeCmd w s).status.busy = false := hb
  obtain ⟨hsrc, hout, hwork, henc, hfits⟩ :=
    transition_buffersOk (s := storeCmd w s) ⟨h.src, h.out, h.work, h.enc, h.fits⟩ htr
  obtain ⟨hcmd, himgW, himgH, -⟩ := transition_keeps htr
  obtain ⟨hw, hh, hB⟩ := start_dimensions hb' htr
  obtain ⟨hin, -, happ⟩ := start_counts hb' htr
  have hword : latchedWord t.par = w := (start_latchedWord hb' htr).trans (encode_of_decode hd)
  have hwidth : imgWidth t = imgWidth (storeCmd w s) := congrArg BitVec.toNat himgW
  have hheight : imgHeight t = imgHeight (storeCmd w s) := congrArg BitVec.toNat himgH
  refine ⟨by rw [start_status hb' htr]; decide, hsrc, hout, hwork, henc, hfits, fun _ => ⟨i, ?_⟩⟩
  exact {
    latched := by rw [running, hword, hd]
    accepted := by rw [hcmd, hword]; rfl
    width := by omega
    height := by omega
    inside := hin
    appended := happ
    multiple := by rwa [hwidth] }

/-- A step of the command that executes keeps the invariant. -/
theorem inv_step {i : Instr} {s t : State} (h : Inv s) (hb : s.status.busy = true) (he : Executing i s)
    (htr : Transition i s t) : Inv t := by
  obtain ⟨hsrc, hout, hwork, henc, hfits⟩ := transition_buffersOk (buffersOk_of_inv h) htr
  obtain ⟨hcmd, himgW, himgH, -⟩ := transition_keeps htr
  have hpar := transition_par hb htr
  have heff := step_effect he hb htr
  have hst := status_of_busy h.status hb
  by_cases hlast : stepsTaken i s + 1 = commandSteps i s
  · obtain ⟨hidle, hdone, hill, -⟩ := heff.last hlast
    rw [hst] at hill
    exact ⟨legalStatus_finished hidle hdone hill, hsrc, hout, hwork, henc, hfits, fun hbusy => by simp [hidle] at hbusy⟩
  · obtain ⟨hsame, hin, -, happ⟩ := heff.more hlast
    refine ⟨hsame ▸ h.status, hsrc, hout, hwork, henc, hfits, fun _ => ⟨i, ?_⟩⟩
    exact {
      latched := by rw [running, hpar]; exact he.latched
      accepted := by rw [hcmd, hpar]; exact he.accepted
      width := by rw [imgWidth, himgW]; exact he.width
      height := by rw [imgHeight, himgH]; exact he.height
      inside := hin
      appended := happ
      multiple := by rw [imgWidth, himgW]; exact he.multiple }

/-! ### Turns -/

theorem inv_engine {s t : State} (h : Inv s) (hr : resultOf (issueEngine s) = .next t) : Inv t := by
  cases hb : s.status.busy with
  | false =>
    rw [resultOf_issueEngine_idle hb] at hr
    cases hr
    exact h
  | true =>
    obtain ⟨i, he⟩ := h.busy hb
    rw [resultOf_issueEngine_busy hb he.latched] at hr
    exact inv_step h hb he (exec_transition hr)

theorem inv_issueCmd {s t : State} {w : Word} (h : Inv s) (hr : resultOf (issueCmd w s) = .next t) : Inv t := by
  cases hb : s.status.busy with
  | true =>
    rw [resultOf_issueCmd_busy w hb] at hr
    cases hr
    exact h
  | false =>
    cases hd : decode w with
    | ok i =>
      rw [resultOf_issueCmd_ok hb hd] at hr
      exact inv_start h hb hd (exec_transition hr)
    | error e =>
      rw [resultOf_issueCmd_reserved hb hd] at hr
      cases hr
      exact inv_idle h rfl (by rw [acceptReserved_status]; decide) h.src h.out rfl rfl rfl

theorem inv_host {s t : State} {m : HostMove} (h : Inv s) (hr : resultOf (issueHost m s) = .next t) : Inv t := by
  cases m with
  | readReg n => cases hr; exact inv_port _ h
  | writeReg n v =>
    by_cases hn : n = 0
    · subst hn
      exact inv_issueCmd h hr
    · rw [resultOf_writePlain v s hn] at hr
      cases hr
      exact inv_writePlainReg n v h
  | readBuf sp a => exact inv_hostRead h hr
  | writeBuf sp a v => exact inv_hostWrite h hr
  | reset => cases hr; exact inv_resetEvent s

/-- Settles O53: whichever turn is due keeps the invariant. -/
theorem invariantKept : Obligations.InvariantKept := by
  unfold Obligations.InvariantKept
  intro s t h hs
  have hport : ∀ ts, Inv (withAgenda ts s) := fun ts => inv_port _ h
  match ha : s.port.agenda with
  | [] => exact inv_engine h (step_of_empty ha ▸ hs)
  | .engine :: ts => exact inv_engine (hport ts) (step_of_engine ha ▸ hs)
  | .host m :: ts => exact inv_host (hport ts) (step_of_host ha ▸ hs)

/-! ### Steps and lengths of whole commands -/

/-- The command in the latched registers is the one that executes. -/
theorem executing_of_running {i : Instr} {s : State} (h : Inv s) (hb : s.status.busy = true) (hr : running s = .ok i) :
    Executing i s := by
  obtain ⟨j, he⟩ := h.busy hb
  cases he.latched.symm.trans hr
  exact he

/-- Settles O56, by the effect of a start and of a step on the count. -/
theorem stepCount : Obligations.StepCount := by
  unfold Obligations.StepCount
  refine ⟨fun i s t hb h => ?_, fun i s t hinv hb hr h => ?_⟩
  · have htr := exec_transition h
    obtain ⟨hin, htaken, -⟩ := start_counts hb htr
    refine ⟨htaken, ?_, by rw [start_status hb htr]; rfl⟩
    have := stepsTaken_lt hin
    omega
  · have he := executing_of_running hinv hb hr
    have htr := exec_transition h
    obtain ⟨-, himgW, himgH, -⟩ := transition_keeps htr
    have heff := step_effect he hb htr
    refine ⟨stepsTaken_lt he.inside, commandSteps_congr i himgW himgH, ?_⟩
    by_cases hlast : stepsTaken i s + 1 = commandSteps i s
    · obtain ⟨hidle, hdone, -⟩ := heff.last hlast
      simp [hidle, hdone, hlast]
    · obtain ⟨hsame, -, htaken, -⟩ := heff.more hlast
      have hrun : running t = .ok i := by rw [running, transition_par hb htr]; exact hr
      rw [hsame, status_of_busy hinv.status hb]
      simp [statusStart, hrun, htaken, hlast]

/-- Settles O58: the step after which BUSY is 0 is the last one, and it completes the output. -/
theorem finishedLength : Obligations.FinishedLength := by
  unfold Obligations.FinishedLength
  intro i s t hinv hb hr _ h hidle
  have heff := step_effect (executing_of_running hinv hb hr) hb (exec_transition h)
  by_cases hlast : stepsTaken i s + 1 = commandSteps i s
  · obtain ⟨-, -, -, hlen⟩ := heff.last hlast
    exact hlen
  · obtain ⟨hsame, -⟩ := heff.more hlast
    simp [hsame, hb] at hidle

end Sys2Proof.Proofs
end

section
/-! PROOFS. The host's accesses to the buffer bytes: the moves it has and the accesses that are none (20_memory.md R30, R33, R34;
60_exceptions.md R155, R166). -/

namespace Sys2Proof.Proofs

open Sys2Proof.Machine Sys2Proof.Claims Sys2Proof.Laws

/-! ### What a host read answers -/

theorem hostRead_src {s : State} {a : Nat} (hb : s.status.busy = false) (ha : a < sizeInUse s) :
    hostRead .src a s = .next (returnRead ((srcByte s a).setWidth 32) s) := by
  simp [hostRead, hb, ha]

theorem hostRead_out {s : State} {a : Nat} (hb : s.status.busy = false) (ha : a < sizeInUse s) :
    hostRead .out a s = .next (returnRead ((outByte s a).setWidth 32) s) := by
  simp [hostRead, hb, ha]

theorem hostRead_enc {s : State} {a : Nat} (hb : s.status.busy = false) (ha : a < s.encLen.toNat) :
    hostRead .enc a s = .next (returnRead ((encByte s a).setWidth 32) s) := by
  simp [hostRead, hb, ha]

/-- The reads that are no move of the host (U7, R155). -/
theorem hostRead_refused {s : State} {sp : Space} {a : Nat}
    (h : s.status.busy = true ∨ sp = .work ∨ sp = .bayer ∨ sp = .pal ∨
      ((sp = .src ∨ sp = .out) ∧ sizeInUse s ≤ a) ∨ (sp = .enc ∧ s.encLen.toNat ≤ a)) :
    hostRead sp a s = .refused .hostBuffer := by
  obtain hb | rfl | rfl | rfl | ⟨rfl | rfl, ha⟩ | ⟨rfl, ha⟩ := h
  · simp [hostRead, hb]
  · simp [hostRead]
  · simp [hostRead]
  · simp [hostRead]
  · simp [hostRead, Nat.not_lt.mpr ha]
  · simp [hostRead, Nat.not_lt.mpr ha]
  · simp [hostRead, Nat.not_lt.mpr ha]

/-! ### What a host write answers -/

theorem hostWritable_of_lt {s : State} {a : Nat} (ha : a < sizeInUse s) : hostWritable s a = true := by
  simp [hostWritable, Nat.ne_zero_of_lt ha, ha]

/-- Once both dimensions are legal, no write goes beyond the size in use (R34, R166). -/
theorem hostWritable_of_le {s : State} {a : Nat} (hw : imgWidth s ≠ 0) (hh : imgHeight s ≠ 0) (ha : sizeInUse s ≤ a) :
    hostWritable s a = false := by
  have hs : sizeInUse s ≠ 0 := Nat.mul_ne_zero (Nat.mul_ne_zero (by decide) hw) hh
  simp [hostWritable, hs, ha]

theorem hostWrite_src {s : State} {a : Nat} (v : Byte) (hb : s.status.busy = false) (ha : hostWritable s a = true) :
    hostWrite .src a v s = .next (writeSrc a v s) := by
  simp [hostWrite, hb, ha]

theorem hostWrite_out {s : State} {a : Nat} (v : Byte) (hb : s.status.busy = false) (ha : hostWritable s a = true) :
    hostWrite .out a v s = .next (writeOut a v s) := by
  simp [hostWrite, hb, ha]

/-- The writes that are no move of the host (U7, R155, R166). -/
theorem hostWrite_refused {s : State} {sp : Space} {a : Nat} (v : Byte)
    (h : s.status.busy = true ∨ sp = .enc ∨ sp = .work ∨ sp = .bayer ∨ sp = .pal ∨
      (imgWidth s ≠ 0 ∧ imgHeight s ≠ 0 ∧ sizeInUse s ≤ a)) :
    hostWrite sp a v s = .refused .hostBuffer := by
  obtain hb | rfl | rfl | rfl | rfl | ⟨hw, hh, ha⟩ := h
  · simp [hostWrite, hb]
  · simp [hostWrite]
  · simp [hostWrite]
  · simp [hostWrite]
  · simp [hostWrite]
  · cases sp <;> simp [hostWrite, hostWritable_of_le hw hh ha]

/-! ### The statements on host accesses -/

/-- Settles O48: the access is the host's turn, inside the size in use it is a move, and a read after a write sees that write
alone. -/
theorem hostBufferAccess : Obligations.HostBufferAccess := by
  unfold Obligations.HostBufferAccess
  intro s a v ts hb
  have hb' : (withAgenda ts s).status.busy = false := hb
  refine ⟨fun ha => ?_, fun ha hag => (step_of_host hag).trans (hostRead_enc hb' ha)⟩
  have hin : a < sizeInUse (withAgenda ts s) := ha
  refine ⟨fun hag => ⟨writeSrc a v (withAgenda ts s), ?_, ?_, ?_, rfl⟩,
    fun hag => ⟨writeOut a v (withAgenda ts s), ?_, ?_, ?_, rfl⟩,
    fun hag => (step_of_host hag).trans (hostRead_src hb' hin),
    fun hag => (step_of_host hag).trans (hostRead_out hb' hin)⟩
  · exact (step_of_host hag).trans (hostWrite_src v hb' (hostWritable_of_lt hin))
  · simp [srcByte_writeSrc]
  · intro b hne
    simp [srcByte_writeSrc, hne]
  · exact (step_of_host hag).trans (hostWrite_out v hb' (hostWritable_of_lt hin))
  · simp [outByte_writeOut]
  · intro b hne
    simp [outByte_writeOut, hne]

/-- Settles O49: the access is the host's turn, and neither buffer operation has an answer for it. -/
theorem forbiddenHostAccess : Obligations.ForbiddenHostAccess := by
  unfold Obligations.ForbiddenHostAccess
  intro s sp a v ts
  exact ⟨fun hag h => (step_of_host hag).trans (hostRead_refused h),
    fun hag h => (step_of_host hag).trans (hostWrite_refused v h)⟩

end Sys2Proof.Proofs
end

section
/-! PROOFS. The canonical form of the four spaces the machine writes: every turn of the host and of the engine keeps it
(20_memory.md R30, R37). -/

namespace Sys2Proof.Proofs

open Sys2Proof.Machine Sys2Proof.Claims Sys2Proof.Laws

/-- Every space lists strictly rising addresses, the model's form of a memory (log entries 7 and 8). -/
structure Canonical (s : State) : Prop where
  src : Memory.wf s.src
  out : Memory.wf s.out
  enc : Memory.wf s.enc
  work : WorkSpace.wf s.work

/-! ### What a turn can do -/

/-- Latches that name no command stop the engine (log entry 24). -/
theorem resultOf_issueEngine_illegal {s : State} {e : Reserved} (hb : s.status.busy = true) (hr : running s = .error e) :
    resultOf (issueEngine s) = .fault .latchIllegal := by
  unfold running at hr
  simp [issueEngine, hb, hr, resultOf]

/-- The engine's turn leaves the state or runs a transition of a command (R60, R160). -/
theorem issueEngine_cases {s t : State} (h : resultOf (issueEngine s) = .next t) : t = s ∨ ∃ i, Transition i s t := by
  cases hb : s.status.busy with
  | false =>
    rw [resultOf_issueEngine_idle hb] at h
    exact .inl (Host.Outcome.next.inj h).symm
  | true =>
    cases hr : running s with
    | ok i =>
      rw [resultOf_issueEngine_busy hb hr] at h
      exact .inr ⟨i, exec_transition h⟩
    | error e =>
      rw [resultOf_issueEngine_illegal hb hr] at h
      cases h

/-- A CMD write is ignored, flagged as reserved, or the start of a command (R11, R56, R57). -/
theorem issueCmd_cases {s t : State} {w : Word} (h : resultOf (issueCmd w s) = .next t) :
    t = s ∨ t = acceptReserved w s ∨ ∃ i, Transition i (storeCmd w s) t := by
  cases hb : s.status.busy with
  | true =>
    rw [resultOf_issueCmd_busy w hb] at h
    exact .inl (Host.Outcome.next.inj h).symm
  | false =>
    cases hd : decode w with
    | ok i =>
      rw [resultOf_issueCmd_ok hb hd] at h
      exact .inr (.inr ⟨i, exec_transition h⟩)
    | error e =>
      rw [resultOf_issueCmd_reserved hb hd] at h
      exact .inr (.inl (Host.Outcome.next.inj h).symm)

/-- A host read that is a move writes the read data alone. -/
theorem hostRead_cases {s t : State} {sp : Space} {a : Nat} (h : hostRead sp a s = .next t) :
    ∃ v, t = returnRead v s := by
  unfold hostRead at h
  split at h
  · cases h
  · split at h
    case h_1 | h_2 | h_3 =>
      split at h <;> cases h
      exact ⟨_, rfl⟩
    all_goals cases h

/-- A host write that is a move writes a byte of SRC or OUT. -/
theorem hostWrite_cases {s t : State} {sp : Space} {a : Nat} {v : Byte} (h : hostWrite sp a v s = .next t) :
    t = writeSrc a v s ∨ t = writeOut a v s := by
  unfold hostWrite at h
  split at h
  · cases h
  · split at h
    case h_1 =>
      split at h <;> cases h
      exact .inl rfl
    case h_2 =>
      split at h <;> cases h
      exact .inr rfl
    all_goals cases h

/-! ### The form is kept -/

theorem loadWork_work_wf {s : State} (h : WorkSpace.wf s.work) : WorkSpace.wf (loadWork s).work := by
  rw [loadWork_work]
  split
  · exact rangeMap_rising _ _
  · exact h

/-- A transition of a command writes OUT, ENC and WORK by `cellPut`, or lists WORK anew, or empties ENC. -/
theorem canonical_transition {i : Instr} {s t : State} (h : Canonical s) (htr : Transition i s t) : Canonical t := by
  cases htr with
  | convertStart =>
    exact ⟨by simpa using h.src, by simpa using h.out, by simpa using h.enc, loadWork_work_wf h.work⟩
  | convertStep =>
    exact ⟨by simpa using h.src, by simpa using convertPixel_out_wf i h.out, by simpa using h.enc,
      by simpa using convertPixel_work_wf i h.work⟩
  | encodeStart => exact ⟨h.src, h.out, .nil, h.work⟩
  | encodeStep _ _ hm =>
    rw [encodeMove_eq hm]
    exact ⟨h.src, h.out, encAppendAll_wf _ _ h.enc, h.work⟩

theorem canonical_writePlainReg {s : State} (n : Nat) (v : Word) (h : Canonical s) : Canonical (writePlainReg n v s) :=
  ⟨by simpa using h.src, by simpa using h.out, by simpa using h.enc, by simpa using h.work⟩

theorem canonical_engine {s t : State} (h : Canonical s) (hr : resultOf (issueEngine s) = .next t) : Canonical t := by
  obtain rfl | ⟨i, htr⟩ := issueEngine_cases hr
  · exact h
  · exact canonical_transition h htr

theorem canonical_issueCmd {s t : State} {w : Word} (h : Canonical s) (hr : resultOf (issueCmd w s) = .next t) :
    Canonical t := by
  obtain rfl | rfl | ⟨i, htr⟩ := issueCmd_cases hr
  · exact h
  · exact ⟨h.src, h.out, h.enc, h.work⟩
  · exact canonical_transition (s := storeCmd w s) ⟨h.src, h.out, h.enc, h.work⟩ htr

theorem canonical_host {s t : State} {m : HostMove} (h : Canonical s) (hr : resultOf (issueHost m s) = .next t) :
    Canonical t := by
  cases m with
  | readReg n =>
    cases hr
    exact ⟨h.src, h.out, h.enc, h.work⟩
  | writeReg n v =>
    by_cases hn : n = 0
    · subst hn
      exact canonical_issueCmd h hr
    · rw [resultOf_writePlain v s hn] at hr
      cases hr
      exact canonical_writePlainReg n v h
  | readBuf sp a =>
    obtain ⟨v, rfl⟩ := hostRead_cases hr
    exact ⟨h.src, h.out, h.enc, h.work⟩
  | writeBuf sp a v =>
    obtain rfl | rfl := hostWrite_cases hr
    · exact ⟨Memory_wf_put a v h.src, h.out, h.enc, h.work⟩
    · exact ⟨h.src, Memory_wf_put a v h.out, h.enc, h.work⟩
  | reset =>
    cases hr
    exact ⟨.nil, .nil, .nil, .nil⟩

/-- Settles O41: whichever turn is due keeps the form. -/
theorem canonicalFormKept : Obligations.CanonicalFormKept := by
  unfold Obligations.CanonicalFormKept
  intro s t hsrc hout henc hwork hs
  have hturn : ∀ ts, Canonical (withAgenda ts s) := fun ts => ⟨hsrc, hout, henc, hwork⟩
  suffices h : Canonical t from ⟨h.src, h.out, h.enc, h.work⟩
  match ha : s.port.agenda with
  | [] => exact canonical_engine ⟨hsrc, hout, henc, hwork⟩ (step_of_empty ha ▸ hs)
  | .engine :: ts => exact canonical_engine (hturn ts) (step_of_engine ha ▸ hs)
  | .host m :: ts => exact canonical_host (hturn ts) (step_of_host ha ▸ hs)

end Sys2Proof.Proofs
end

section
/-! PROOFS. The encoding: decoding and laying out a word are inverse to each other, and the rows of the opcode map and the
list of reserved words say which words decode (30_encoding.md R50 to R57). -/

namespace Sys2Proof.Proofs

open Sys2Proof.Machine Sys2Proof.Claims Sys2Proof.Laws

/-! ### Decoding a laid-out word -/

theorem decode_formatC (alg : BitVec 3) (bd : BitVec 1) (ti : BitVec 8) (da : BitVec 9) :
    decode (formatC alg bd ti da) = convertOf alg bd ti da := by
  simp [decode, decodeC]

theorem convertOf_of_convertFields {i : Instr} {alg : BitVec 3} {bd : BitVec 1} {ti : BitVec 8} {da : BitVec 9}
    (hf : convertFields i = some (alg, bd, ti, da)) : convertOf alg bd ti da = .ok i := by
  cases i <;> cases hf <;> rfl

theorem decode_formatE {i : Instr} {op : BitVec 4} {bd tp : BitVec 1} (hf : encodeFields i = some (op, bd, tp)) :
    decode (formatE op bd tp) = .ok i := by
  cases i <;> cases hf <;> rfl

theorem decode_encode (i : Instr) : decode (encode i) = .ok i := by
  cases hc : isConvert i with
  | true =>
    obtain ⟨alg, bd, ti, da, hf⟩ := exists_convertFields hc
    rw [encode_of_convertFields hf, decode_formatC, convertOf_of_convertFields hf]
  | false =>
    obtain ⟨op, bd, tp, hf⟩ := exists_encodeFields hc
    rw [encode_of_encodeFields hf, decode_formatE hf]

/-- Settles O1: a laid-out word decodes by its own fields, in Format C and in Format E. -/
theorem decodeOfEncode : Obligations.DecodeOfEncode := decode_encode

/-- Settles O2, by `encode_of_decode`: the fields that decode are the whole word. -/
theorem encodeOfDecode : Obligations.EncodeOfDecode := fun _ _ => encode_of_decode

/-- Settles O5, by evaluating the decoder on the seven words. -/
theorem specWordsDecode : Obligations.SpecWordsDecode := ⟨rfl, rfl, rfl, rfl, rfl, rfl, rfl⟩

/-! ### The rows of the opcode map -/

/-- A field whose bits the mask keeps is the field of the match. -/
theorem extractLsb'_of_masked {w mask bits : Word} (h : w &&& mask = bits) {start len : Nat}
    (hm : mask.extractLsb' start len = BitVec.allOnes len) : w.extractLsb' start len = bits.extractLsb' start len := by
  rw [← h, BitVec.extractLsb'_and, hm, BitVec.and_allOnes]

/-- The mask of a Format C row keeps OPC, ALG, BD and the zero field: a word that agrees there with a Format C word decodes by
that word's ALG and BD (R51, R53). -/
theorem decode_of_masked {w bits : Word} (h : w &&& 0xFF00FE00 = bits) (ho : fieldOpc bits = 1) (hz : fieldZeroC bits = 0) :
    decode w = convertOf (fieldAlg bits) (fieldBd bits) (fieldT w) (fieldDa w) := by
  have hopc : fieldOpc w = fieldOpc bits := extractLsb'_of_masked h rfl
  have hzero : fieldZeroC w = fieldZeroC bits := extractLsb'_of_masked h rfl
  have halg : fieldAlg w = fieldAlg bits := extractLsb'_of_masked h rfl
  have hbd : fieldBd w = fieldBd bits := extractLsb'_of_masked h rfl
  simp [decode, decodeC, hopc, hzero, halg, hbd, ho, hz]

theorem exists_decode_of_matchesRow {r : Row} (hr : r ∈ table) {w : Word} (h : matchesRow r w) :
    ∃ i, decode w = .ok i ∧ r.holds i = true := by
  obtain hr | hr := List.mem_append.mp hr
  · fin_cases hr <;> exact ⟨_, decode_of_masked h rfl rfl, rfl⟩
  · have hw : w = r.bits := by
      have hmask : r.mask = BitVec.allOnes 32 := by fin_cases hr <;> rfl
      rw [← h, hmask, BitVec.and_allOnes]
    subst hw
    fin_cases hr <;> exact ⟨_, rfl, rfl⟩

/-- A command's row has the match and the mask of the command (R53). -/
theorem row_of_holds {r : Row} (hr : r ∈ table) {i : Instr} (h : r.holds i = true) :
    r.bits = RowMatch.rowBits i ∧ r.mask = RowMatch.rowMask i := by
  obtain hr | hr := List.mem_append.mp hr
  all_goals
    fin_cases hr
    all_goals
      dsimp only at h
      split at h
      · exact ⟨rfl, rfl⟩
      · cases h

theorem encode_masked (i : Instr) : encode i &&& RowMatch.rowMask i = RowMatch.rowBits i := by
  cases i
  case enca1 => exact RowMatch.enca1
  case enca2 => exact RowMatch.enca2
  case encb1p => exact RowMatch.encb1p
  case encb2p => exact RowMatch.encb2p
  case encasm1p => exact RowMatch.encasm1p
  case encasm2p => exact RowMatch.encasm2p
  all_goals exact RowMatch.formatC_masked _ _ _ _

/-- Settles O3: a matching word decodes to its row, and a command's word matches the command's row. -/
theorem tableDecidesDecoding : Obligations.TableDecidesDecoding := by
  unfold Obligations.TableDecidesDecoding
  refine fun r hr w => ⟨exists_decode_of_matchesRow hr, ?_⟩
  rintro ⟨i, hd, hi⟩
  obtain ⟨hbits, hmask⟩ := row_of_holds hr hi
  rw [matchesRow, hbits, hmask, ← encode_of_decode hd, encode_masked]

theorem exists_row (i : Instr) : ∃ r ∈ table, r.holds i = true := by
  have h : table.any (fun r => r.holds i) = true := by cases i <;> rfl
  exact List.any_eq_true.mp h

/-- The words that match a row are the words that decode. -/
theorem exists_matchesRow_iff (w : Word) : (∃ r ∈ table, matchesRow r w) ↔ ∃ i, decode w = .ok i := by
  constructor
  · rintro ⟨r, hr, h⟩
    obtain ⟨i, hd, -⟩ := exists_decode_of_matchesRow hr h
    exact ⟨i, hd⟩
  · rintro ⟨i, hd⟩
    obtain ⟨r, hr, hi⟩ := exists_row i
    exact ⟨r, hr, (tableDecidesDecoding r hr w).mpr ⟨i, hd, hi⟩⟩

/-! ### The reserved words -/

theorem fieldOpc_toNat (w : Word) : (fieldOpc w).toNat = w.toNat / 2 ^ 28 := by
  rw [fieldOpc, BitVec.extractLsb'_toNat, Nat.shiftRight_eq_div_pow]; omega
theorem fieldAlg_toNat (w : Word) : (fieldAlg w).toNat = w.toNat / 2 ^ 25 % 8 := by
  rw [fieldAlg, BitVec.extractLsb'_toNat, Nat.shiftRight_eq_div_pow]
theorem fieldBd_toNat (w : Word) : (fieldBd w).toNat = w.toNat / 2 ^ 24 % 2 := by
  rw [fieldBd, BitVec.extractLsb'_toNat, Nat.shiftRight_eq_div_pow]
theorem fieldZeroC_toNat (w : Word) : (fieldZeroC w).toNat = w.toNat / 2 ^ 9 % 2 ^ 7 := by
  rw [fieldZeroC, BitVec.extractLsb'_toNat, Nat.shiftRight_eq_div_pow]
theorem fieldZeroE_toNat (w : Word) : (fieldZeroE w).toNat = w.toNat / 2 % 2 ^ 23 := by
  rw [fieldZeroE, BitVec.extractLsb'_toNat, Nat.shiftRight_eq_div_pow]
theorem fieldTp_toNat (w : Word) : (fieldTp w).toNat = w.toNat % 2 := by
  rw [fieldTp, BitVec.extractLsb'_toNat, Nat.shiftRight_eq_div_pow]; simp

theorem convertOf_ok_iff (alg : BitVec 3) (bd : BitVec 1) (ti : BitVec 8) (da : BitVec 9) :
    (∃ i, convertOf alg bd ti da = .ok i) ↔ alg.toNat < 6 := by
  obtain ⟨a, ha⟩ := alg
  obtain ⟨b, hb⟩ := bd
  interval_cases a <;> interval_cases b <;> simp [convertOf]

theorem formatEZero_iff (w : Word) : formatEZero w = true ↔ fieldAlg w = 0 ∧ fieldZeroE w = 0 := by
  simp [formatEZero]

/-- A decoder behind a test decodes where the test holds and the decoder does. -/
theorem guarded_ok_iff {p : Prop} [Decidable p] (d : Except Reserved Instr) (e : Reserved) :
    (∃ i, (if p then d else .error e) = .ok i) ↔ p ∧ ∃ i, d = .ok i := by
  split
  next hp => simp [hp]
  next hp => simp [hp]

/-- A choice between two commands always decodes. -/
theorem choice_ok {p : Prop} [Decidable p] (i j : Instr) :
    ∃ k, (if p then .ok i else .ok j : Except Reserved Instr) = .ok k := by
  split
  next => exact ⟨i, rfl⟩
  next => exact ⟨j, rfl⟩

theorem decodeC_ok_iff (w : Word) : (∃ i, decodeC w = .ok i) ↔ fieldZeroC w = 0 ∧ (fieldAlg w).toNat < 6 := by
  rw [decodeC, guarded_ok_iff, convertOf_ok_iff]

theorem decodeEncA_ok_iff (w : Word) : (∃ i, decodeEncA w = .ok i) ↔ fieldTp w = 0 :=
  (guarded_ok_iff _ _).trans (and_iff_left (choice_ok _ _))

theorem decodeEncB_ok_iff (w : Word) : (∃ i, decodeEncB w = .ok i) ↔ fieldBd w = 0 :=
  (guarded_ok_iff _ _).trans (and_iff_left (choice_ok _ _))

theorem decodeEncAsm_ok_iff (w : Word) : (∃ i, decodeEncAsm w = .ok i) ↔ fieldBd w = 0 :=
  (guarded_ok_iff _ _).trans (and_iff_left (choice_ok _ _))

/-- The words that decode are those the list of rule R57 leaves out. -/
theorem decode_ok_iff (w : Word) : (∃ i, decode w = .ok i) ↔ ¬ listedReserved w := by
  have hzero : ∀ {n : Nat} (f : BitVec n), f = 0 ↔ f.toNat = 0 := fun f => by simp [BitVec.toNat_eq]
  unfold decode listedReserved
  split
  next ho =>
    rw [decodeC_ok_iff]
    simp only [hzero, fieldOpc_toNat, fieldZeroC_toNat, fieldAlg_toNat] at ho ⊢
    omega
  next ho =>
    rw [guarded_ok_iff, formatEZero_iff, decodeEncA_ok_iff]
    simp only [hzero, fieldOpc_toNat, fieldZeroE_toNat, fieldAlg_toNat, fieldTp_toNat] at ho ⊢
    omega
  next ho =>
    rw [guarded_ok_iff, formatEZero_iff, decodeEncB_ok_iff]
    simp only [hzero, fieldOpc_toNat, fieldZeroE_toNat, fieldAlg_toNat, fieldBd_toNat] at ho ⊢
    omega
  next ho =>
    rw [guarded_ok_iff, formatEZero_iff, decodeEncAsm_ok_iff]
    simp only [hzero, fieldOpc_toNat, fieldZeroE_toNat, fieldAlg_toNat, fieldBd_toNat] at ho ⊢
    omega
  next h1 h2 h3 h4 =>
    simp only [fieldOpc_toNat, imp_false] at h1 h2 h3 h4
    simp only [reduceCtorEq, exists_false, false_iff]
    omega

theorem exists_error_of_listedReserved {w : Word} (h : listedReserved w) : ∃ e, decode w = .error e := by
  cases hd : decode w with
  | ok i => exact absurd h ((decode_ok_iff w).mp ⟨i, hd⟩)
  | error e => exact ⟨e, rfl⟩

/-- Settles O4: a listed word matches no row because it does not decode, and its CMD write is answered by `acceptReserved`. -/
theorem reservedWordsOnlyFlag : Obligations.ReservedWordsOnlyFlag := by
  unfold Obligations.ReservedWordsOnlyFlag
  refine ⟨fun w => ?_, .inl (.inl rfl), fun s w ts hw hb ha => ?_⟩
  · have h := (exists_matchesRow_iff w).trans (decode_ok_iff w)
    rw [← not_iff_not, ← h]
    push Not
    rfl
  · obtain ⟨e, he⟩ := exists_error_of_listedReserved hw
    rw [step_of_host ha, issueHost_writeCmd, resultOf_issueCmd_reserved (by simpa using hb) he]
    rfl

end Sys2Proof.Proofs
end

section
/-! PROOFS. The start of a command: when it is refused, and what it latches, fills and leaves alone (30_encoding.md R56;
60_exceptions.md R146, R147). -/

namespace Sys2Proof.Proofs

open Sys2Proof.Machine Sys2Proof.Claims Sys2Proof.Laws

/-! ### Refusals -/

theorem startConvert_zeroDimension (cfg : Config) (alg : BitVec 3) (bd : BitVec 1) (ti : BitVec 8) (da : BitVec 9) {s : State}
    (h : imgWidth s = 0 ∨ imgHeight s = 0) : startConvert cfg alg bd ti da s = .refused .zeroDimension := if_pos h

theorem startEncode_zeroDimension (op : BitVec 4) (bd tp : BitVec 1) {s : State} (h : imgWidth s = 0 ∨ imgHeight s = 0) :
    startEncode op bd tp s = .refused .zeroDimension := if_pos h

/-- Settles O11: both kinds of start test the dimensions first. -/
theorem zeroDimensionRefused : Obligations.ZeroDimensionRefused := by
  unfold Obligations.ZeroDimensionRefused
  intro i s hb hzero
  cases hc : isConvert i with
  | true =>
    obtain ⟨alg, bd, ti, da, hf⟩ := exists_convertFields hc
    rw [exec_convert s hf, runCommand_idle hb, startConvert_zeroDimension _ _ _ _ _ hzero]
  | false =>
    obtain ⟨op, bd, tp, hf⟩ := exists_encodeFields hc
    rw [exec_encode s hf, runCommand_idle hb, startEncode_zeroDimension _ _ _ hzero]

theorem startConvert_ditherAmount {cfg : Config} {alg : BitVec 3} (bd : BitVec 1) (ti : BitVec 8) {da : BitVec 9} {s : State}
    (hcfg : cfg.overRange = .refuse) (hw : imgWidth s ≠ 0) (hh : imgHeight s ≠ 0) (halg : alg ≠ 0)
    (hda : 256 < da.toNat) :
    startConvert cfg alg bd ti da s = .refused .ditherAmount := by
  rw [startConvert, if_neg (not_or.mpr ⟨hw, hh⟩), if_pos ⟨hcfg, halg, hda⟩]

/-- Settles O13: under `refuse` the test of DAMOUNT alone stops a start with legal dimensions. -/
theorem overRangeTreatments : Obligations.OverRangeTreatments := by
  unfold Obligations.OverRangeTreatments
  refine ⟨rfl, fun cfg alg bd ti da s hcfg hw hh => ⟨startConvert_ditherAmount bd ti hcfg hw hh, fun h => ?_⟩⟩
  exact ⟨_, startConvert_eq_next.mpr ⟨⟨hw, hh⟩, fun ⟨_, halg, hda⟩ => h.elim halg (by omega), rfl⟩⟩

/-! ### Starts that complete -/

section start
variable {i : Instr} {s : State} (hb : s.status.busy = false) (hw : imgWidth s ≠ 0) (hh : imgHeight s ≠ 0)
include hb hw hh

theorem exec_convertStart {alg : BitVec 3} {bd : BitVec 1} {ti : BitVec 8} {da : BitVec 9}
    (hf : convertFields i = some (alg, bd, ti, da)) :
    exec i s = .next (beginRaster (loadWork (latchConvert alg bd ti da s))) := by
  rw [exec_convert s hf, runCommand_idle hb]
  refine startConvert_eq_next.mpr ⟨⟨hw, hh⟩, ?_, rfl⟩
  rintro ⟨hcfg, -⟩
  cases hcfg

theorem exec_encodeStart {op : BitVec 4} {bd tp : BitVec 1} (hf : encodeFields i = some (op, bd, tp))
    (hm : op = 3 → imgWidth s % 4 = 0) : exec i s = .next (beginEncode op (latchEncode op bd tp s)) := by
  rw [exec_encode s hf, runCommand_idle hb]
  exact startEncode_eq_next.mpr ⟨⟨hw, hh⟩, fun ⟨hop, hne⟩ => hne (hm hop), rfl⟩

end start

/-- Only an FS or ATK start fills WORK (R56, R174). -/
theorem loadWork_eq_self {s : State} (h : ¬ (s.par.alg = 1 ∨ s.par.alg = 2)) : loadWork s = s := if_neg h

/-- OPC 3 is that of Format B (R52). -/
theorem isFormatB_of_op {i : Instr} {bd tp : BitVec 1} (hf : encodeFields i = some (3, bd, tp)) : isFormatB i = true := by
  cases i <;> cases hf <;> rfl

/-- Settles O9: the fields of the state a CONVERT start answers, and WORK read back from `initialWork`. -/
theorem convertStart : Obligations.ConvertStart := by
  unfold Obligations.ConvertStart
  intro i alg bd ti da s hf hb hw hh
  refine ⟨_, exec_convertStart hb hw hh hf, rfl, by simp, by simp, fun halg c x y hc hx hy => ?_, fun halg n => ?_,
    fun a => by simp, fun a => by simp, ⟨by simp, fun a => by simp⟩, by simp [SameControl]⟩
  · rw [workChan_beginRaster, workChan_loadWork halg hc (by simpa using hx) (by simpa using hy), srcChan_latchConvert, byteRat]
  · rw [workAt_beginRaster, loadWork_eq_self (s := latchConvert alg bd ti da s) halg, workAt_latchConvert]

/-- Settles O10: the fields of the state an ENCODE start answers. -/
theorem encodeStart : Obligations.EncodeStart := by
  unfold Obligations.EncodeStart
  intro i op bd tp s hf hb hw hh hB
  have hm : op = 3 → imgWidth s % 4 = 0 := by
    rintro rfl
    exact hB (isFormatB_of_op hf)
  refine ⟨_, exec_encodeStart hb hw hh hf hm, rfl, rfl, rfl, ?_, ?_, ?_, fun a => by simp, fun a => by simp, fun a => by simp,
    by simp [SameControl]⟩ <;> (rintro rfl; rfl)

end Sys2Proof.Proofs
end

section
/-! PROOFS. A running command always has its step, and left to the engine it finishes after exactly its remaining steps
(30_encoding.md R60; 43_bitplane_encoder.md R119; 70_reset_and_hazards.md R177). -/

namespace Sys2Proof.Proofs

open Sys2Proof.Machine Sys2Proof.Claims Sys2Proof.Laws

/-! ### The levels ENCA.2 reads -/

theorem exists_levelIdx {v : Byte} (h : isLevel v = true) : ∃ l, levelIdx v = some l := by
  simp only [isLevel, Bool.or_eq_true, beq_iff_eq] at h
  obtain ((rfl | rfl) | rfl) | rfl := h <;> exact ⟨_, rfl⟩

section levels
variable {s : State} (hl : levelsOnly s) {p y : Nat} (hp : p < 3) (hy : y < imgHeight s) (j : Nat)
include hl hp hy

theorem exists_encaBits2 (k : Nat) : ∃ m, encaBits2 s p y j k = some m := by
  unfold encaBits2
  split
  next hx =>
    obtain ⟨l, h⟩ := exists_levelIdx (hl _ _ _ hx hy hp)
    exact ⟨_, congrArg (Option.map (placeIdx k)) h⟩
  next => exact ⟨0, rfl⟩

theorem exists_encaByte2 (n : Nat) : ∃ b, encaByte2 s p y j n = some b := by
  induction n with
  | zero => exact ⟨0, rfl⟩
  | succ n ih =>
    obtain ⟨b, hb⟩ := ih
    obtain ⟨m, hm⟩ := exists_encaBits2 hl hp hy j n
    exact ⟨b ||| m, by rw [encaByte2, hb, hm]⟩

end levels

/-! ### The step is due -/

theorem encbStep_inside {s : State} (two : Bool) (hin : groupsInside s = true) :
    encbStep hwConfig two s = emit hwConfig (encbBytes two s) advanceGroups s := if_pos hin

/-- With its cursor in range a running ENCASM appends the header, the header and the diagnostic line, or a row line. -/
theorem encasmStep_inside {i : Instr} {two : Bool} (hi : i = .encasm1p ∧ two = false ∨ i = .encasm2p ∧ two = true)
    {s : State} (hin : linesInside s = true) :
    ∃ bs after, EncodeMove s i bs after ∧ encasmStep hwConfig two s = emit hwConfig bs after s := by
  have hi' : i = .encasm1p ∨ i = .encasm2p := hi.imp And.left And.left
  obtain h0 | ⟨h1, hy, -⟩ := linesInside_iff.mp hin
  · rw [encasmStep, if_pos h0]
    by_cases hw : imgWidth s % 4 = 0
    · exact ⟨_, _, .header hi' h0 hw, if_pos hw⟩
    · exact ⟨_, _, .diagnostic hi' h0 hw, if_neg hw⟩
  · rw [encasmStep, if_neg (by simp [h1]), if_pos h1]
    exact ⟨_, _, .line hi h1 hy, if_pos hy⟩

/-- With its cursor in range an ENCODE command has bytes to append, ENCA.2 on level bytes (R119). -/
theorem exists_encodeMove {i : Instr} (hc : isConvert i = false) {s : State} (hin : cursorInside i s = true)
    (hl : i = .enca2 → levelsOnly s) :
    ∃ bs after, EncodeMove s i bs after ∧ encodeStep i s = emit hwConfig bs after s := by
  cases i
  case enca1 => exact ⟨_, _, .planes (.inl ⟨rfl, rfl⟩) hin _, if_pos hin⟩
  case enca2 =>
    obtain ⟨hp, hy, -⟩ := planesInside_iff.mp hin
    obtain ⟨b, hb⟩ := exists_encaByte2 (hl rfl) hp hy s.cur.j.toNat 4
    refine ⟨_, _, .planes (.inr ⟨rfl, rfl⟩) hin b, (if_pos hin).trans ?_⟩
    rw [hb]
  case encb1p => exact ⟨_, _, .groups (.inl ⟨rfl, rfl⟩) hin, encbStep_inside false hin⟩
  case encb2p => exact ⟨_, _, .groups (.inr ⟨rfl, rfl⟩) hin, encbStep_inside true hin⟩
  case encasm1p => exact encasmStep_inside (.inl ⟨rfl, rfl⟩) hin
  case encasm2p => exact encasmStep_inside (.inr ⟨rfl, rfl⟩) hin
  all_goals cases hc

/-! ### The output fits -/

theorem headerLength_le (s : State) : headerLength s ≤ 29 := by
  have hH := decText_length_le (imgHeight_lt s)
  have hW := decText_length_le (imgWidth_lt s)
  unfold headerLength
  omega

theorem planesOf_le (two : Bool) : planesOf two ≤ 2 := by cases two <;> decide

theorem groupsPerRow_le (s : State) : groupsPerRow s ≤ 1023 := by
  have := imgWidth_lt s
  unfold groupsPerRow
  omega

theorem planes_fit {n : Nat} (hn : n ≤ 2048) {s : State} (hin : planesInside n s = true) :
    planesPos n s + 1 ≤ hwConfig.encCap := by
  have hH : imgHeight s ≤ 4095 := Nat.le_of_lt_succ (imgHeight_lt s)
  calc planesPos n s + 1 ≤ 3 * imgHeight s * n := planesPos_lt hin
    _ ≤ 3 * 4095 * 2048 := by gcongr
    _ ≤ hwConfig.encCap := by decide

theorem groups_fit (two : Bool) {s : State} (hin : groupsInside s = true) :
    (groupsPos s + 1) * planesOf two ≤ hwConfig.encCap := by
  have hH : imgHeight s ≤ 4095 := Nat.le_of_lt_succ (imgHeight_lt s)
  calc (groupsPos s + 1) * planesOf two ≤ imgHeight s * groupsPerRow s * planesOf two :=
        Nat.mul_le_mul_right _ (groupsPos_lt hin)
    _ ≤ 4095 * 1023 * 2 := Nat.mul_le_mul (Nat.mul_le_mul hH (groupsPerRow_le s)) (planesOf_le two)
    _ ≤ hwConfig.encCap := by decide

/-- The header and the row lines up to any row: 4095 rows of 2046 tokens after 29 bytes fill ENC exactly (R7). -/
theorem lines_fit (two : Bool) {s : State} {y : Nat} (hy : y < imgHeight s) :
    headerLength s + (y + 1) * (10 * (groupsPerRow s * planesOf two) + 6) ≤ hwConfig.encCap := by
  have hrows : y + 1 ≤ 4095 := by have := imgHeight_lt s; omega
  have htokens : groupsPerRow s * planesOf two ≤ 1023 * 2 := Nat.mul_le_mul (groupsPerRow_le s) (planesOf_le two)
  calc headerLength s + (y + 1) * (10 * (groupsPerRow s * planesOf two) + 6)
      ≤ 29 + 4095 * (10 * (1023 * 2) + 6) := by gcongr; exact headerLength_le s
    _ = hwConfig.encCap := rfl

theorem encodeProgress_planes {i : Instr} {n : Nat} (hi : i = .enca1 ∧ n = 8 ∨ i = .enca2 ∧ n = 4) (s : State) :
    encodeProgress i s = planesPos (encaStride n s) s := by
  obtain ⟨rfl, rfl⟩ | ⟨rfl, rfl⟩ := hi <;> rfl

theorem encodeProgress_groups {i : Instr} {two : Bool} (hi : i = .encb1p ∧ two = false ∨ i = .encb2p ∧ two = true)
    (s : State) : encodeProgress i s = groupsPos s * planesOf two := by
  obtain ⟨rfl, rfl⟩ | ⟨rfl, rfl⟩ := hi <;> simp [encodeProgress, planesOf]

/-- What a running ENCODE command appends stays within the capacity (R7, R19). -/
theorem encodeMove_fits {i : Instr} (hc : isConvert i = false) {s : State} (he : Executing i s) {bs : List Byte}
    {after : State → State} (hm : EncodeMove s i bs after) : s.encLen.toNat + bs.length ≤ hwConfig.encCap := by
  have hheader := headerLength_le s
  rw [he.appended hc]
  cases hm with
  | planes hi hin b =>
    rw [encodeProgress_planes hi]
    exact planes_fit (encaStride_le (by omega) s) hin
  | @groups two hi hin =>
    rw [encodeProgress_groups hi, encbBytes_length, ← Nat.succ_mul]
    exact groups_fit two hin
  | header hi hhdr hw =>
    rw [encodeProgress_hdr_zero hi hhdr, headerText_length, Nat.zero_add]
    exact hheader.trans (by decide)
  | diagnostic hi hhdr hw =>
    rw [encodeProgress_hdr_zero hi hhdr, List.length_append, headerText_length, Nat.zero_add]
    exact (Nat.add_le_add_right hheader 30).trans (by decide)
  | @line two hi hhdr hy =>
    have hin := he.inside
    rw [cursorInside_encasm (hi.imp And.left And.left), linesInside_iff, hhdr] at hin
    obtain ⟨-, -, hw⟩ := hin.resolve_left (by decide)
    rw [encodeProgress_lines hi hhdr, rowLine_length _ _ _ _ (by have := he.width; omega), Nat.add_assoc,
      ← planesOf, ← Nat.succ_mul]
    exact lines_fit two hy

/-! ### The step completes -/

theorem exec_completes {i : Instr} {s : State} (hb : s.status.busy = true) (he : Executing i s)
    (hl : i = .enca2 → levelsOnly s) : ∃ t, exec i s = .next t := by
  cases hc : isConvert i with
  | true =>
    obtain ⟨alg, bd, ti, da, hf⟩ := exists_convertFields hc
    rw [exec_convert s hf, runCommand_busy hb]
    exact ⟨_, pixelStep_eq_next.mpr ⟨(cursorInside_convert hc s) ▸ he.inside, rfl⟩⟩
  | false =>
    obtain ⟨op, bd, tp, hf⟩ := exists_encodeFields hc
    obtain ⟨bs, after, hm, hstep⟩ := exists_encodeMove hc he.inside hl
    rw [exec_encode s hf, runCommand_busy hb, hstep]
    exact ⟨_, emit_eq_next.mpr ⟨encodeMove_fits hc he hm, rfl⟩⟩

/-- Settles O55: the cursor is in range, the bytes to append are there, and ENC has room for them. -/
theorem stepAlwaysEnabled : Obligations.StepAlwaysEnabled := by
  unfold Obligations.StepAlwaysEnabled
  exact fun i s hinv hb hr hl => exec_completes hb (executing_of_running hinv hb hr) hl

/-! ### The command finishes -/

/-- A command that runs undisturbed: nothing is due but the engine's turns. -/
structure LeftToEngine (i : Instr) (s : State) : Prop where
  inv : Inv s
  busy : s.status.busy = true
  latched : running s = .ok i
  levels : i = .enca2 → levelsOnly s
  agenda : s.port.agenda = []

/-- ENCODE commands leave the level bytes of OUT (R126). -/
theorem transition_levelsOnly {i : Instr} {s t : State} (hc : isConvert i = false) (h : Transition i s t)
    (hl : levelsOnly s) : levelsOnly t := by
  obtain ⟨-, himgW, himgH, -, -, hepoch⟩ := transition_keeps h
  obtain ⟨hout, -⟩ := transition_out_work hc h
  simpa [levelsOnly, outChan, outByte, imgWidth, imgHeight, himgW, himgH, hepoch, hout] using hl

/-- One step of the machine is one step of the command: the last one finishes it, any other leaves one step less. -/
theorem leftToEngine_step {i : Instr} {s : State} (h : LeftToEngine i s) : ∃ t, step s = .next t ∧ Inv t ∧
    (stepsTaken i s + 1 = commandSteps i s → t.status.busy = false ∧ t.status.done = true) ∧
    (stepsTaken i s + 1 ≠ commandSteps i s →
      LeftToEngine i t ∧ stepsTaken i t = stepsTaken i s + 1 ∧ commandSteps i t = commandSteps i s) := by
  have he := executing_of_running h.inv h.busy h.latched
  obtain ⟨t, hexec⟩ := exec_completes h.busy he h.levels
  have htr := exec_transition hexec
  have heff := step_effect he h.busy htr
  have hinv := inv_step h.inv h.busy he htr
  obtain ⟨-, himgW, himgH, -, hport, -⟩ := transition_keeps htr
  refine ⟨t, ?_, hinv, fun hlast => ?_, fun hmore => ?_⟩
  · rw [step_of_empty h.agenda, resultOf_issueEngine_busy h.busy h.latched, hexec]
  · obtain ⟨hidle, hdone, -⟩ := heff.last hlast
    exact ⟨hidle, hdone⟩
  · obtain ⟨hsame, -, htaken, -⟩ := heff.more hmore
    refine ⟨⟨hinv, by rw [hsame, h.busy], ?_, ?_, by rw [hport, h.agenda]⟩, htaken, commandSteps_congr i himgW himgH⟩
    · rw [running, transition_par h.busy htr]
      exact h.latched
    · rintro rfl
      exact transition_levelsOnly rfl htr (h.levels rfl)

theorem run_succ {s t : State} (h : step s = .next t) (n : Nat) :
    Host.Core.run Sys2Proof.core (n + 1) s = Host.Core.run Sys2Proof.core n t := by
  have hcore : Sys2Proof.core.step s = .next t := h
  simp only [Host.Core.run, hcore]

/-- By induction on the steps still to take. -/
theorem leftToEngine_finishes {i : Instr} (n : Nat) {s : State} (h : LeftToEngine i s)
    (hn : stepsTaken i s + (n + 1) = commandSteps i s) :
    ∃ t : State, Host.Core.run Sys2Proof.core (n + 1) s = .next t ∧
      t.status.busy = false ∧ t.status.done = true ∧ Inv t := by
  induction n generalizing s with
  | zero =>
    obtain ⟨t, hstep, hinv, hlast, -⟩ := leftToEngine_step h
    obtain ⟨hidle, hdone⟩ := hlast hn
    rw [run_succ hstep]
    exact ⟨t, rfl, hidle, hdone, hinv⟩
  | succ n ih =>
    obtain ⟨t, hstep, -, -, hmore⟩ := leftToEngine_step h
    obtain ⟨ht, htaken, hsteps⟩ := hmore (by omega)
    rw [run_succ hstep]
    exact ih ht (by omega)

/-- Settles O57: a cursor in range has steps to take, and the engine takes them. -/
theorem commandFinishes : Obligations.CommandFinishes := by
  unfold Obligations.CommandFinishes
  intro i s hinv hb hr hl ha
  have hlt := stepsTaken_lt (executing_of_running hinv hb hr).inside
  obtain ⟨n, hn⟩ := Nat.exists_eq_add_of_lt hlt
  rw [hn, show stepsTaken i s + n + 1 - stepsTaken i s = n + 1 by omega]
  exact leftToEngine_finishes n ⟨hinv, hb, hr, hl, ha⟩ hn.symm

end Sys2Proof.Proofs
end

section
/-! PROOFS. The Level Quantizer: the values and the order of the cutoffs, the comparator form on integers, and monotony
(40_color_quantizer.md R70 to R75). -/

namespace Sys2Proof.Proofs

open Sys2Proof.Machine Sys2Proof.Claims Sys2Proof.Laws

/-! ### The cutoffs (R71) -/

theorem clampR_eq_self {v lo hi : Rat} (hlo : lo ≤ v) (hhi : v ≤ hi) : clampR v lo hi = v := by
  rw [clampR, if_neg hlo.not_gt, if_neg hhi.not_gt]

/-- What is left of a threshold, 255 - t, as a natural number. -/
theorem sub_byteRat (t : Byte) : 255 - byteRat t = ((255 - t.toNat : Nat) : Rat) := by
  have ht := t.isLt
  rw [Nat.cast_sub (by omega), byteRat]
  rfl

theorem halve_floor_natCast (n : Nat) : halve .floor (n : Rat) = ((n / 2 : Nat) : Rat) := by
  have h := floor_natDiv n 2
  rw [Nat.cast_ofNat] at h
  rw [halve, h, Int.cast_natCast]

section cutoffs
variable {cfg : Config} (t : BitVec 8)

theorem two_mul_dark (h : cfg.cutoffDiv = .exact) : 2 * (cutoffs cfg t).dark = ((min t.toNat 254 : Nat) : Rat) := by
  have hhalf : 0 ≤ byteRat t / 2 := div_nonneg (byteRat_nonneg t) zero_le_two
  calc 2 * (cutoffs cfg t).dark = 2 * clampR (byteRat t / 2) 0 127 := by rw [cutoffs, h]; rfl
    _ = 2 * min 127 (byteRat t / 2) := by
      rw [clampR_eq_max_min _ (by norm_num), max_eq_right (le_min (by norm_num) hhalf)]
    _ = min (byteRat t) 254 := by rw [mul_min_of_nonneg _ _ zero_le_two, min_comm]; ring_nf
    _ = ((min t.toNat 254 : Nat) : Rat) := by push_cast; rfl

theorem two_mul_bright (h : cfg.cutoffDiv = .exact) : 2 * (cutoffs cfg t).bright = ((t.toNat + 255 : Nat) : Rat) := by
  have h0 := byteRat_nonneg t
  have h1 := byteRat_le t
  calc 2 * (cutoffs cfg t).bright = 2 * clampR (byteRat t + (255 - byteRat t) / 2) 0 255 := by rw [cutoffs, h]; rfl
    _ = 2 * (byteRat t + (255 - byteRat t) / 2) := by rw [clampR_eq_self (by linarith) (by linarith)]
    _ = ((t.toNat + 255 : Nat) : Rat) := by rw [byteRat]; push_cast; ring

theorem dark_floor (h : cfg.cutoffDiv = .floor) : (cutoffs cfg t).dark = ((t.toNat / 2 : Nat) : Rat) := by
  have ht : t.toNat / 2 ≤ 127 := by have := t.isLt; omega
  calc (cutoffs cfg t).dark = clampR ((t.toNat / 2 : Nat) : Rat) 0 127 := by
        rw [cutoffs, h, ← halve_floor_natCast]; rfl
    _ = ((t.toNat / 2 : Nat) : Rat) := clampR_eq_self (Nat.cast_nonneg _) (by exact_mod_cast ht)

theorem bright_floor (h : cfg.cutoffDiv = .floor) :
    (cutoffs cfg t).bright = ((t.toNat + (255 - t.toNat) / 2 : Nat) : Rat) := by
  have ht : t.toNat + (255 - t.toNat) / 2 ≤ 255 := by have := t.isLt; omega
  calc (cutoffs cfg t).bright = clampR ((t.toNat + (255 - t.toNat) / 2 : Nat) : Rat) 0 255 := by
        rw [cutoffs, h, sub_byteRat, halve_floor_natCast, byteRat, Nat.cast_add]
    _ = ((t.toNat + (255 - t.toNat) / 2 : Nat) : Rat) := clampR_eq_self (Nat.cast_nonneg _) (by exact_mod_cast ht)

theorem dark_le_mid : (cutoffs cfg t).dark ≤ (cutoffs cfg t).mid := by
  have h0 := byteRat_nonneg t
  change _ ≤ byteRat t
  cases h : cfg.cutoffDiv with
  | exact =>
    have hmin : ((min t.toNat 254 : Nat) : Rat) ≤ byteRat t := Nat.cast_le.mpr (min_le_left _ _)
    have := two_mul_dark t h
    linarith
  | floor =>
    rw [dark_floor t h]
    exact Nat.cast_le.mpr (Nat.div_le_self _ _)

theorem mid_le_bright : (cutoffs cfg t).mid ≤ (cutoffs cfg t).bright := by
  have h1 := byteRat_le t
  change byteRat t ≤ _
  cases h : cfg.cutoffDiv with
  | exact =>
    have hsum : ((t.toNat + 255 : Nat) : Rat) = byteRat t + 255 := by push_cast; rfl
    have := two_mul_bright t h
    linarith
  | floor =>
    rw [bright_floor t h]
    exact Nat.cast_le.mpr (Nat.le_add_right _ _)

end cutoffs

/-- Settles O7: each cutoff evaluated under each setting; under EXACT the clamp of DARK shows at t = 255. -/
theorem cutoffValues : Obligations.CutoffValues := by
  unfold Obligations.CutoffValues
  exact fun cfg t => ⟨fun h => ⟨two_mul_dark t h, two_mul_bright t h⟩, fun h => ⟨dark_floor t h, bright_floor t h⟩, rfl,
    dark_le_mid t, mid_le_bright t⟩

/-! ### Integer intensities (R70, R73) -/

theorem q1_byteRat (v t : Byte) : q1 (byteRat v) (byteRat t) = if t.toNat ≤ v.toNat then 255 else 0 := by
  simp only [q1, byteRat, ge_iff_le, Nat.cast_le]

/-- Doubling both sides makes each comparison with a cutoff one of integers. -/
theorem q2_byteRat {cfg : Config} (h : cfg.cutoffDiv = .exact) (v t : Byte) : q2 cfg (byteRat v) t =
    if 2 * v.toNat < min t.toNat 254 then 0 else if v.toNat < t.toNat then 85
    else if 2 * v.toNat < t.toNat + 255 then 170 else 255 := by
  have double : ∀ {r : Rat} {n : Nat}, 2 * r = (n : Rat) → (byteRat v < r ↔ 2 * v.toNat < n) := by
    intro r n hr
    rw [← Nat.cast_lt (α := Rat), ← hr, Nat.cast_mul, Nat.cast_ofNat, byteRat]
    constructor <;> intro <;> linarith
  have hmid : byteRat v < (cutoffs cfg t).mid ↔ v.toNat < t.toNat := Nat.cast_lt
  simp only [q2, q2c, double (two_mul_dark t h), hmid, double (two_mul_bright t h)]

theorem quant_byteRat (bd : BitVec 1) (v t : Byte) :
    quant hwConfig (byteRat v) t bd = integerLevel bd v.toNat t.toNat := by
  unfold quant integerLevel
  rw [q1_byteRat, q2_byteRat rfl]

/-- Settles O8: the first clause is the definition of Q2, the second its comparator form. -/
theorem integerComparators : Obligations.IntegerComparators := by
  unfold Obligations.IntegerComparators
  exact ⟨fun _ _ => rfl, q2_byteRat rfl⟩

/-! ### Monotony (R75) -/

theorem q1_mono {v v' : Rat} (t : Rat) (h : v ≤ v') : (q1 v t).toNat ≤ (q1 v' t).toNat := by
  unfold q1
  by_cases hv : v ≥ t
  · rw [if_pos hv, if_pos (hv.trans h)]
  · rw [if_neg hv]
    exact Nat.zero_le _

/-- A greater value passes every cutoff that a smaller one passes, whatever the order of the cutoffs. -/
theorem q2c_mono {v v' : Rat} (c : Cutoffs) (h : v ≤ v') : (q2c v c).toNat ≤ (q2c v' c).toNat := by
  have below : ∀ {x : Rat}, v' < x → v < x := h.trans_lt
  unfold q2c
  by_cases hd : v' < c.dark
  · rw [if_pos hd, if_pos (below hd)]
  by_cases hm : v' < c.mid
  · rw [if_neg hd, if_pos hm, if_pos (below hm)]
    split_ifs <;> decide
  by_cases hb : v' < c.bright
  · rw [if_neg hd, if_neg hm, if_pos hb, if_pos (below hb)]
    split_ifs <;> decide
  · rw [if_neg hd, if_neg hm, if_neg hb]
    split_ifs <;> decide

theorem quant_mono (cfg : Config) {v v' : Rat} (t : BitVec 8) (bd : BitVec 1) (h : v ≤ v') :
    (quant cfg v t bd).toNat ≤ (quant cfg v' t bd).toNat := by
  unfold quant
  split
  · exact q1_mono _ h
  · exact q2c_mono _ h

/-- Settles O6, by the levels of `levelOf_quant` and the monotony of each quantizer. -/
theorem quantizersMonotone : Obligations.QuantizersMonotone := by
  unfold Obligations.QuantizersMonotone
  intro cfg bd t v v'
  obtain ⟨hlevel, hzero⟩ := levelOf_quant cfg v t bd
  exact ⟨hzero, fun _ => hlevel, quant_mono cfg t bd⟩

end Sys2Proof.Proofs
end

section
/-! PROOFS. The pixel of a CONVERT step: which bytes it writes, what it leaves alone, and that it never reads an A byte of SRC
(40_color_quantizer.md R76, R77, R80; 10_state.md R16). -/

namespace Sys2Proof.Proofs

open Sys2Proof.Machine Sys2Proof.Claims Sys2Proof.Laws

/-! ### The commands by their fields (R53) -/

theorem exec_convertStep {i : Instr} {s : State} (hc : isConvert i = true) (hb : s.status.busy = true) :
    exec i s = pixelStep (convertPixel i) s := by
  obtain ⟨alg, bd, ti, da, hf⟩ := exists_convertFields hc
  rw [exec_convert s hf, runCommand_busy hb]

/-- ALG 0 is the threshold command. -/
theorem convertPixel_threshold {i : Instr} {bd : BitVec 1} {ti : BitVec 8} {da : BitVec 9}
    (hf : convertFields i = some (0, bd, ti, da)) : convertPixel i = thrPixel hwConfig bd := by
  cases i
  case thr1 | thr2 => cases hf; rfl
  all_goals simp [convertFields] at hf

/-- An error-diffusion command has a kernel. -/
theorem convertPixel_diffusion {i : Instr} {alg : BitVec 3} {bd : BitVec 1} {ti : BitVec 8} {da : BitVec 9}
    (hd : isDiffusion i = true) (hf : convertFields i = some (alg, bd, ti, da)) :
    ∃ k, convertPixel i = edPixel hwConfig k bd := by
  cases i
  case fs1 | fs2 | atk1 | atk2 => cases hf; exact ⟨_, rfl⟩
  all_goals cases hd

/-- An ordered-dithering command has a matrix. -/
theorem convertPixel_ordered {i : Instr} {n : Nat} {alg : BitVec 3} {bd : BitVec 1} {ti : BitVec 8} {da : BitVec 9}
    (ho : ordSize i = some n) (hf : convertFields i = some (alg, bd, ti, da)) :
    ∃ m, convertPixel i = ordPixel hwConfig m bd := by
  cases i
  case ord2_1 | ord2_2 | ord4_1 | ord4_2 | ord8_1 | ord8_2 => cases hf; exact ⟨_, rfl⟩
  all_goals cases ho

/-- A CONVERT pixel is that of a threshold, an error-diffusion or an ordered-dithering command. -/
theorem convertPixel_cases {i : Instr} (hc : isConvert i = true) :
    (∃ bd, convertPixel i = thrPixel hwConfig bd) ∨ (∃ k bd, convertPixel i = edPixel hwConfig k bd) ∨
      ∃ m bd, convertPixel i = ordPixel hwConfig m bd := by
  cases i
  case thr1 | thr2 => exact .inl ⟨_, rfl⟩
  case fs1 | fs2 | atk1 | atk2 => exact .inr (.inl ⟨_, _, rfl⟩)
  case ord2_1 | ord2_2 | ord4_1 | ord4_2 | ord8_1 | ord8_2 => exact .inr (.inr ⟨_, _, rfl⟩)
  all_goals cases hc

/-! ### The bytes a pixel writes -/

theorem outByte_edPixel_eq (cfg : Config) (k : Kernel) (bd : BitVec 1) {s : State} (hin : rasterInside s = true) (a : Nat) :
    outByte (edPixel cfg k bd s) a =
      outByte (writePixel (edLevel cfg bd s 0) (edLevel cfg bd s 1) (edLevel cfg bd s 2) s) a := by
  rw [outByte_edPixel cfg k bd s hin, outByte_writePixel]

/-- Every CONVERT pixel leaves OUT as one pixel write does. -/
theorem outByte_convertPixel {i : Instr} (hc : isConvert i = true) {s : State} (hin : rasterInside s = true) :
    ∃ r g b, ∀ a, outByte (convertPixel i s) a = outByte (writePixel r g b s) a := by
  obtain ⟨bd, h⟩ | ⟨k, bd, h⟩ | ⟨m, bd, h⟩ := convertPixel_cases hc <;> rw [h]
  · exact ⟨_, _, _, fun a => rfl⟩
  · exact ⟨_, _, _, outByte_edPixel_eq _ k bd hin⟩
  · exact ⟨_, _, _, fun a => rfl⟩

theorem outByte_writePixel_alpha (r g b : Byte) (s : State) :
    outByte (writePixel r g b s) (pixelAddr (imgWidth s) s.cur.x.toNat s.cur.y.toNat 3) = 255 := by
  rw [outByte_writePixel]
  simp [pixelAddr]

theorem outByte_writePixel_other (r g b : Byte) {s : State} {a : Nat}
    (h : ∀ c, c < 4 → a ≠ pixelAddr (imgWidth s) s.cur.x.toNat s.cur.y.toNat c) :
    outByte (writePixel r g b s) a = outByte s a := by
  rw [outByte_writePixel, if_neg (h 0 (by decide)), if_neg (h 1 (by decide)), if_neg (h 2 (by decide)),
    if_neg (h 3 (by decide))]

/-! ### The frame of a CONVERT step -/

theorem advanceRaster_rowEnd {s : State} (h : (s.cur.x + 1).toNat = imgWidth s) : advanceRaster s =
    finishIf (decide ((s.cur.y + 1).toNat = imgHeight s)) { s with cur := { s.cur with x := 0, y := s.cur.y + 1 } } :=
  if_pos h

theorem advanceRaster_inRow {s : State} (h : (s.cur.x + 1).toNat ≠ imgWidth s) :
    advanceRaster s = { s with cur := { s.cur with x := s.cur.x + 1 } } := if_neg h

/-- The cursor components CONVERT does not use (log entry 23). -/
theorem advanceRaster_unused (s : State) : (advanceRaster s).cur.p = s.cur.p ∧ (advanceRaster s).cur.j = s.cur.j ∧
    (advanceRaster s).cur.g = s.cur.g ∧ (advanceRaster s).cur.hdr = s.cur.hdr := by
  by_cases h : (s.cur.x + 1).toNat = imgWidth s
  · simp [advanceRaster_rowEnd h]
  · simp [advanceRaster_inRow h]

theorem rasterAdvanced_advanceRaster {s : State} (hin : rasterInside s = true) : RasterAdvanced s (advanceRaster s) :=
  ⟨advanceRaster_x hin, advanceRaster_y hin, advanceRaster_unused s, advanceRaster_status hin⟩

theorem rasterAdvanced_convertStep (i : Instr) {s : State} (hin : rasterInside s = true) :
    RasterAdvanced s (advanceRaster (convertPixel i s)) := by
  have h := rasterAdvanced_advanceRaster (s := convertPixel i s) (by simpa using hin)
  simpa [RasterAdvanced] using h

theorem pixelFrame_convertStep {i : Instr} (hc : isConvert i = true) {s : State} (hin : rasterInside s = true) :
    PixelFrame s (advanceRaster (convertPixel i s)) := by
  obtain ⟨r, g, b, hout⟩ := outByte_convertPixel hc hin
  refine ⟨?_, fun a ha => ?_, fun a => ?_, ⟨?_, fun a => ?_⟩, ?_, ?_, rasterAdvanced_convertStep i hin⟩
  · rw [outChan_advanceRaster, outChan, imgWidth_convertPixel, hout, outByte_writePixel_alpha]
  · rw [outByte_advanceRaster, hout, outByte_writePixel_other r g b ha]
  · simp [srcByte]
  · simp
  · simp [encByte]
  · simp [SameControl]
  · simp

/-! ### The threshold step (R76, R77) -/

/-- The R, G and B bytes of a threshold step are the levels of the source channels. -/
theorem outChan_thrPixel (bd : BitVec 1) (s : State) {c : Nat} (hc : c < 3) :
    outChan (thrPixel hwConfig bd s) s.cur.x.toNat s.cur.y.toNat c =
      integerLevel bd (srcChan s s.cur.x.toNat s.cur.y.toNat c).toNat s.par.t.toNat := by
  rw [← quant_byteRat, thrPixel, outChan, outByte_writePixel, imgWidth_writePixel]
  obtain rfl | rfl | rfl : c = 0 ∨ c = 1 ∨ c = 2 := by omega
  all_goals simp [pixelAddr, srcAtCursor]

/-- Settles O14: the step is the threshold pixel and the cursor's advance. -/
theorem thresholdStep : Obligations.ThresholdStep := by
  unfold Obligations.ThresholdStep
  intro i bd ti da s hi hb hx hy
  have hf : convertFields i = some (0, bd, ti, da) := by
    obtain ⟨rfl, rfl⟩ | ⟨rfl, rfl⟩ := hi <;> rfl
  have hpixel := convertPixel_threshold hf
  have hc := isConvert_of_convertFields hf
  have hin := rasterInside_iff.mpr ⟨hx, hy⟩
  refine ⟨advanceRaster (convertPixel i s), ?_, fun c hc3 => ?_, fun n => ?_, pixelFrame_convertStep hc hin⟩
  · rw [exec_convertStep hc hb]
    exact pixelStep_eq_next.mpr ⟨hin, rfl⟩
  · rw [outChan_advanceRaster, hpixel, outChan_thrPixel bd s hc3]
  · rw [workAt_advanceRaster, hpixel, thrPixel, workAt_writePixel]

/-! ### No A byte of SRC is read (R80) -/

/-! Error diffusion reads WORK and no byte of SRC (R85). -/

section target
variable {s : State} {x y : Nat} {tg : Target} (c : Nat) (e : Rat)

theorem addError_outside (h : neighbour (imgWidth s) (imgHeight s) x y tg.dx tg.dy = none) :
    addError c x y e tg s = s := by
  rw [addError, h]

theorem addError_inside {p : Nat × Nat} (h : neighbour (imgWidth s) (imgHeight s) x y tg.dx tg.dy = some p) :
    addError c x y e tg s =
      writeWork (workIdx (imgWidth s) (imgHeight s) c p.1 p.2) (workChan s c p.1 p.2 + e * tg.wt) s := by
  rw [addError, h]

end target

section diffusion
variable (s : State) (m : Memory)

theorem addError_withSrc (c x y : Nat) (e : Rat) (tg : Target) :
    addError c x y e tg { s with src := m } = { addError c x y e tg s with src := m } := by
  cases h : neighbour (imgWidth s) (imgHeight s) x y tg.dx tg.dy with
  | none =>
    rw [addError_outside c e h]
    exact addError_outside c e (s := { s with src := m }) h
  | some p =>
    rw [addError_inside c e h]
    exact addError_inside c e (s := { s with src := m }) h

theorem diffuse_withSrc (c x y : Nat) (e : Rat) (tgs : List Target) :
    diffuse c x y e tgs { s with src := m } = { diffuse c x y e tgs s with src := m } := by
  induction tgs generalizing s with
  | nil => rfl
  | cons tg tgs ih => rw [diffuse, addError_withSrc, ih, diffuse]

theorem edChannel_withSrc (cfg : Config) (k : Kernel) (bd : BitVec 1) (c : Nat) :
    edChannel cfg k bd c { s with src := m } = { edChannel cfg k bd c s with src := m } :=
  diffuse_withSrc (writeOut (pixelAddr (imgWidth s) s.cur.x.toNat s.cur.y.toNat c) (edLevel cfg bd s c) s) m ..

theorem edPixel_withSrc (cfg : Config) (k : Kernel) (bd : BitVec 1) :
    edPixel cfg k bd { s with src := m } = { edPixel cfg k bd s with src := m } := by
  simp only [edPixel, edChannel_withSrc]
  rfl

theorem finishIf_withSrc (b : Bool) : finishIf b { s with src := m } = { finishIf b s with src := m } := by
  cases b <;> rfl

theorem advanceRaster_withSrc : advanceRaster { s with src := m } = { advanceRaster s with src := m } := by
  by_cases h : (s.cur.x + 1).toNat = imgWidth s
  · rw [advanceRaster_rowEnd h, ← finishIf_withSrc]
    exact advanceRaster_rowEnd (s := { s with src := m }) h
  · rw [advanceRaster_inRow h]
    exact advanceRaster_inRow (s := { s with src := m }) h

end diffusion

/-! The other operations read SRC at the R, G and B bytes alone. -/

/-- The R, G and B bytes of a pixel have addresses that are not 3 modulo 4 (R35). -/
theorem colour_addr (p : Nat) {c : Nat} (hc : c < 3) : (4 * p + c) % 4 ≠ 3 := by omega

section alpha
variable {s : State} {m : Memory} (hm : ∀ a, a % 4 ≠ 3 → srcByte { s with src := m } a = srcByte s a)
include hm

theorem srcAtCursor_withSrc {c : Nat} (hc : c < 3) : srcAtCursor { s with src := m } c = srcAtCursor s c :=
  congrArg byteRat (hm _ (colour_addr _ hc))

theorem thrPixel_withSrc (cfg : Config) (bd : BitVec 1) :
    thrPixel cfg bd { s with src := m } = { thrPixel cfg bd s with src := m } := by
  unfold thrPixel
  rw [srcAtCursor_withSrc hm (by decide), srcAtCursor_withSrc hm (by decide), srcAtCursor_withSrc hm (by decide)]
  rfl

theorem ordAtCursor_withSrc (cfg : Config) (n : MatrixSize) (bd : BitVec 1) {c : Nat} (hc : c < 3) :
    ordAtCursor cfg n bd { s with src := m } c = ordAtCursor cfg n bd s c := by
  unfold ordAtCursor
  rw [srcAtCursor_withSrc hm hc]
  rfl

theorem ordPixel_withSrc (cfg : Config) (n : MatrixSize) (bd : BitVec 1) :
    ordPixel cfg n bd { s with src := m } = { ordPixel cfg n bd s with src := m } := by
  unfold ordPixel
  rw [ordAtCursor_withSrc hm cfg n bd (by decide), ordAtCursor_withSrc hm cfg n bd (by decide),
    ordAtCursor_withSrc hm cfg n bd (by decide)]
  rfl

/-- WORK is filled from the channels 0, 1 and 2 alone (R56). -/
theorem initialWork_withSrc : initialWork { s with src := m } = initialWork s := by
  refine List.map_congr_left fun k hk => ?_
  have hchan : k / (imgWidth s * imgHeight s) < 3 :=
    Nat.div_lt_of_lt_mul (Nat.mul_comm _ _ ▸ List.mem_range.mp hk)
  exact congrArg (fun v => (k, byteRat v)) (hm _ (colour_addr _ hchan))

theorem loadWork_withSrc : loadWork { s with src := m } = { loadWork s with src := m } := by
  unfold loadWork
  rw [initialWork_withSrc hm]
  split <;> rfl

theorem convertPixel_withSrc {i : Instr} (hc : isConvert i = true) :
    convertPixel i { s with src := m } = { convertPixel i s with src := m } := by
  obtain ⟨bd, h⟩ | ⟨k, bd, h⟩ | ⟨n, bd, h⟩ := convertPixel_cases hc <;> rw [h]
  · exact thrPixel_withSrc hm _ bd
  · exact edPixel_withSrc s m _ k bd
  · exact ordPixel_withSrc hm _ n bd

theorem beginStart_withSrc (alg : BitVec 3) (bd : BitVec 1) (ti : BitVec 8) (da : BitVec 9) :
    beginRaster (loadWork (latchConvert alg bd ti da { s with src := m })) =
      { beginRaster (loadWork (latchConvert alg bd ti da s)) with src := m } :=
  congrArg beginRaster (loadWork_withSrc (s := latchConvert alg bd ti da s) hm)

/-- No transition of a CONVERT command depends on an A byte of SRC. -/
theorem exec_withSrc {i : Instr} (hc : isConvert i = true) {t : State} (h : exec i s = .next t) :
    exec i { s with src := m } = .next { t with src := m } := by
  cases exec_transition h with
  | convertStart hf hb hw hh =>
    rw [← beginStart_withSrc hm]
    exact exec_convertStart (s := { s with src := m }) hb hw hh hf
  | convertStep _ hb hin =>
    rw [exec_convertStep (s := { s with src := m }) hc hb]
    have hpixel := congrArg advanceRaster (convertPixel_withSrc hm hc)
    exact pixelStep_eq_next.mpr ⟨hin, (hpixel.trans (advanceRaster_withSrc _ m)).symm⟩
  | encodeStart hf => simp [isConvert_of_encodeFields hf] at hc
  | encodeStep hc' => simp [hc'] at hc

end alpha

/-- Settles O19: the frame of a CONVERT step gives the A byte, and each part of a transition commutes with a change of SRC. -/
theorem alphaWrittenNeverRead : Obligations.AlphaWrittenNeverRead := by
  unfold Obligations.AlphaWrittenNeverRead
  refine ⟨fun i s t hc hb h => ?_, fun i s t m hc hm h => exec_withSrc hm hc h⟩
  rw [exec_convertStep hc hb] at h
  obtain ⟨hin, rfl⟩ := pixelStep_eq_next.mp h
  obtain ⟨halpha, -⟩ := pixelFrame_convertStep hc hin
  exact halpha

end Sys2Proof.Proofs
end

section
/-! PROOFS. With ditherAmount 0 error diffusion and ordered dithering are thresholding (40_color_quantizer.md R78;
41_error_diffusion_engine.md R95; 42_bayer_matrix_ditherer.md R111). -/

namespace Sys2Proof.Proofs

open Sys2Proof.Machine Sys2Proof.Claims Sys2Proof.Laws

/-- The floor of rule R8 is Mathlib's, so it fixes 0. -/
theorem ratFloor_zero : Rat.floor 0 = 0 := Int.floor_zero (R := Rat)

/-! ### Ordered dithering (R111) -/

/-- With amount 0 the modifier is 0, whatever the matrix entry (R103). -/
theorem bayerMod_zero_amount (k n sc : Nat) : bayerMod k n sc 0 = 0 := by
  simp [bayerMod, ratFloor_zero]

/-- A cutoff in the byte range is not changed by the modifier 0. -/
theorem lowered_zero {v : Rat} (h0 : 0 ≤ v) (h1 : v ≤ 255) : lowered v 0 = v := by
  rw [lowered, Int.cast_zero, sub_zero, clampR_eq_self h0 h1]

theorem cutoffs_lowered_zero (cfg : Config) (t : BitVec 8) :
    (⟨lowered (cutoffs cfg t).dark 0, lowered (cutoffs cfg t).mid 0, lowered (cutoffs cfg t).bright 0⟩ : Cutoffs) =
      cutoffs cfg t := by
  have hdark0 : 0 ≤ (cutoffs cfg t).dark := le_clampR _ (by norm_num)
  have hdark1 : (cutoffs cfg t).dark ≤ 127 := clampR_le _ (by norm_num)
  have hbright0 : 0 ≤ (cutoffs cfg t).bright := le_clampR _ (by norm_num)
  have hbright1 : (cutoffs cfg t).bright ≤ 255 := clampR_le _ (by norm_num)
  have hmid : lowered (cutoffs cfg t).mid 0 = (cutoffs cfg t).mid := lowered_zero (byteRat_nonneg t) (byteRat_le t)
  rw [lowered_zero hdark0 (hdark1.trans (by norm_num)), hmid, lowered_zero hbright0 hbright1]

theorem ordLevel_zero (cfg : Config) (bd : BitVec 1) (t : BitVec 8) (v : Rat) :
    ordLevel cfg bd t 0 v = quant cfg v t bd := by
  unfold ordLevel quant
  rw [lowered_zero (byteRat_nonneg t) (byteRat_le t), cutoffs_lowered_zero, q2]

theorem ordAtCursor_zero_amount (cfg : Config) (n : MatrixSize) (bd : BitVec 1) {s : State} (hz : s.par.da = 0) (c : Nat) :
    ordAtCursor cfg n bd s c = quant cfg (srcAtCursor s c) s.par.t bd := by
  rw [ordAtCursor, modAtCursor, hz, bayerMod_zero_amount, ordLevel_zero]

theorem ordPixel_zero_amount (cfg : Config) (n : MatrixSize) (bd : BitVec 1) {s : State} (hz : s.par.da = 0) :
    ordPixel cfg n bd s = thrPixel cfg bd s := by
  simp only [ordPixel, thrPixel, ordAtCursor_zero_amount cfg n bd hz]

theorem pixelStep_congr {p q : State → State} {s : State} (h : p s = q s) : pixelStep p s = pixelStep q s := by
  rw [pixelStep, pixelStep, h]

/-- Settles O22: both steps are pixel steps, and with amount 0 their pixels are one. -/
theorem zeroAmountOrdered : Obligations.ZeroAmountOrdered := by
  unfold Obligations.ZeroAmountOrdered
  rintro i j n alg _ bd ti tj da dj s ho hfi hfj rfl hb hz
  obtain ⟨m, hpixel⟩ := convertPixel_ordered ho hfi
  rw [exec_convertStep (isConvert_of_convertFields hfi) hb, exec_convertStep (isConvert_of_convertFields hfj) hb]
  apply pixelStep_congr
  rw [hpixel, convertPixel_threshold hfj, ordPixel_zero_amount _ m bd hz]

/-! ### Error diffusion (R95) -/

/-- With amount 0 no error is passed on. -/
theorem edError_zero_amount (k : Kernel) (bd : BitVec 1) {s : State} (hz : s.par.da = 0) (c : Nat) :
    edError hwConfig k bd s c = 0 := by
  have hamount : ditherAmount s.par = 0 := by simp [ditherAmount, hz]
  rw [edError, hamount]
  cases k with
  | fs => simp [kernelErr, hwConfig]
  | atk => simp [kernelErr, ratFloor_zero]

/-- A WORK element that still is its source byte has the level of the source byte. -/
theorem edLevel_of_source (bd : BitVec 1) {s : State} {c : Nat}
    (h : workChan s c s.cur.x.toNat s.cur.y.toNat = srcAtCursor s c) :
    edLevel hwConfig bd s c = quant hwConfig (srcAtCursor s c) s.par.t bd := by
  have hread : readout hwConfig (srcAtCursor s c) = srcAtCursor s c := clampR_byteRat _
  rw [edLevel, edValue, h, hread]

/-! Where the raster cursor goes depends on the place and the dimensions alone. -/

section place
variable {s t : State} (hw : t.imgW = s.imgW) (hh : t.imgH = s.imgH) (hx : t.cur.x = s.cur.x) (hy : t.cur.y = s.cur.y)
include hw hx hy

theorem advanceRaster_cur_congr :
    (advanceRaster t).cur.x = (advanceRaster s).cur.x ∧ (advanceRaster t).cur.y = (advanceRaster s).cur.y := by
  have hwidth : imgWidth t = imgWidth s := congrArg BitVec.toNat hw
  by_cases h : (s.cur.x + 1).toNat = imgWidth s
  · have ht : (t.cur.x + 1).toNat = imgWidth t := by rw [hx, hwidth, h]
    simp [advanceRaster_rowEnd h, advanceRaster_rowEnd ht, hy]
  · have ht : (t.cur.x + 1).toNat ≠ imgWidth t := by rwa [hx, hwidth]
    simp [advanceRaster_inRow h, advanceRaster_inRow ht, hx, hy]

include hh

theorem advanceRaster_busy_congr (hb : t.status.busy = s.status.busy) :
    (advanceRaster t).status.busy = (advanceRaster s).status.busy := by
  have hwidth : imgWidth t = imgWidth s := congrArg BitVec.toNat hw
  have hheight : imgHeight t = imgHeight s := congrArg BitVec.toNat hh
  by_cases h : (s.cur.x + 1).toNat = imgWidth s
  · have ht : (t.cur.x + 1).toNat = imgWidth t := by rw [hx, hwidth, h]
    rw [advanceRaster_rowEnd h, advanceRaster_rowEnd ht, hy, hheight]
    simp only [finishIf_status]
    split
    · rfl
    · exact hb
  · have ht : (t.cur.x + 1).toNat ≠ imgWidth t := by rwa [hx, hwidth]
    rw [advanceRaster_inRow h, advanceRaster_inRow ht]
    exact hb

end place

/-- The two starts leave the same image and place, and WORK filled from SRC. -/
theorem plainThreshold_start {alg : BitVec 3} (halg : alg = 1 ∨ alg = 2) (bd : BitVec 1) (ti : BitVec 8) (dj : BitVec 9)
    (s : State) : PlainThreshold (beginRaster (loadWork (latchConvert alg bd ti 0 s)))
      (beginRaster (loadWork (latchConvert 0 bd ti dj s))) where
  width := by simp
  height := by simp
  source a := by simp
  output a := by simp
  busy := rfl
  x := by simp
  y := by simp
  threshold := by simp
  zero := by simp
  work c x y hc hx hy := by
    rw [workChan_beginRaster, workChan_loadWork halg hc (by simpa using hx) (by simpa using hy)]
    simp

section step
variable {s t : State} (h : PlainThreshold s t)
include h

theorem srcAtCursor_plain (c : Nat) : srcAtCursor t c = srcAtCursor s c := by
  rw [srcAtCursor, srcChan, imgWidth, h.width, h.x, h.y, h.source]
  rfl

/-- At the cursor the error-diffusion level is the threshold level. -/
theorem edLevel_plain (bd : BitVec 1) (hin : rasterInside s = true) {c : Nat} (hc : c < 3) :
    edLevel hwConfig bd s c = quant hwConfig (srcAtCursor t c) t.par.t bd := by
  obtain ⟨hx, hy⟩ := rasterInside_iff.mp hin
  rw [srcAtCursor_plain h, h.threshold]
  exact edLevel_of_source bd (h.work c _ _ hc hx hy)

/-- The two pixels write the same bytes at the same place. -/
theorem outByte_plain (k : Kernel) (bd : BitVec 1) (hin : rasterInside s = true) (a : Nat) :
    outByte (thrPixel hwConfig bd t) a = outByte (edPixel hwConfig k bd s) a := by
  have hwidth : imgWidth t = imgWidth s := congrArg BitVec.toNat h.width
  rw [outByte_edPixel _ k bd s hin, edLevel_plain h bd hin (by decide), edLevel_plain h bd hin (by decide),
    edLevel_plain h bd hin (by decide), thrPixel, outByte_writePixel, hwidth, h.x, h.y, h.output]

/-- The diffusion step passes on no error, so WORK stays the source. -/
theorem workChan_plain (k : Kernel) (bd : BitVec 1) (hin : rasterInside s = true) {c x y : Nat} (hc : c < 3)
    (hx : x < imgWidth s) (hy : y < imgHeight s) :
    workChan (edPixel hwConfig k bd s) c x y = byteRat (srcChan s x y c) := by
  rw [workChan_edPixel _ k bd s hin hc hx hy, edError_zero_amount k bd h.zero, zero_mul, add_zero, h.work c x y hc hx hy]

theorem plainThreshold_step {i j : Instr} {k : Kernel} {bd : BitVec 1} (hi : convertPixel i = edPixel hwConfig k bd)
    (hj : convertPixel j = thrPixel hwConfig bd) (hin : rasterInside s = true) :
    PlainThreshold (advanceRaster (convertPixel i s)) (advanceRaster (convertPixel j t)) := by
  have hw : (convertPixel j t).imgW = (convertPixel i s).imgW := by simpa using h.width
  have hh : (convertPixel j t).imgH = (convertPixel i s).imgH := by simpa using h.height
  have hx : (convertPixel j t).cur.x = (convertPixel i s).cur.x := by simpa using h.x
  have hy : (convertPixel j t).cur.y = (convertPixel i s).cur.y := by simpa using h.y
  obtain ⟨hcurx, hcury⟩ := advanceRaster_cur_congr hw hx hy
  exact {
    width := by simpa using h.width
    height := by simpa using h.height
    source := fun a => by simpa [srcByte] using h.source a
    output := fun a => by simpa [hi, hj] using outByte_plain h k bd hin a
    busy := advanceRaster_busy_congr hw hh hx hy (by simpa using h.busy)
    x := hcurx
    y := hcury
    threshold := by simpa using h.threshold
    zero := by simpa using h.zero
    work := fun c x y hc hx hy => by
      simpa [hi] using workChan_plain h k bd hin hc (by simpa using hx) (by simpa using hy) }

end step

/-- Settles O21: the relation holds after the two starts, and `plainThreshold_step` keeps it for both kernels. -/
theorem zeroAmountDiffusion : Obligations.ZeroAmountDiffusion := by
  unfold Obligations.ZeroAmountDiffusion
  intro i j ti tj da dj hij
  obtain ⟨alg, bd, halg, hd, hfi, hfj⟩ : ∃ alg bd, (alg = 1 ∨ alg = 2) ∧ isDiffusion i = true ∧
      convertFields i = some (alg, bd, ti, da) ∧ convertFields j = some (0, bd, tj, dj) := by
    obtain ⟨rfl | rfl, rfl⟩ | ⟨rfl | rfl, rfl⟩ := hij
    · exact ⟨1, 0, .inl rfl, rfl, rfl, rfl⟩
    · exact ⟨2, 0, .inr rfl, rfl, rfl, rfl⟩
    · exact ⟨1, 1, .inl rfl, rfl, rfl, rfl⟩
    · exact ⟨2, 1, .inr rfl, rfl, rfl, rfl⟩
  constructor
  · rintro s s' t' hb rfl rfl hs ht
    rw [exec_convert s hfi, runCommand_idle hb] at hs
    rw [exec_convert s hfj, runCommand_idle hb] at ht
    obtain ⟨-, -, rfl⟩ := startConvert_eq_next.mp hs
    obtain ⟨-, -, rfl⟩ := startConvert_eq_next.mp ht
    exact plainThreshold_start halg bd ti dj s
  · intro s t s' t' h hb hs ht
    obtain ⟨k, hpixel⟩ := convertPixel_diffusion hd hfi
    rw [exec_convertStep (isConvert_of_convertFields hfi) hb] at hs
    rw [exec_convertStep (isConvert_of_convertFields hfj) (h.busy.trans hb)] at ht
    obtain ⟨hin, rfl⟩ := pixelStep_eq_next.mp hs
    obtain ⟨-, rfl⟩ := pixelStep_eq_next.mp ht
    exact plainThreshold_step h hpixel (convertPixel_threshold hfj) hin

end Sys2Proof.Proofs
end

section
/-! PROOFS. The error-diffusion step: its level, its error and the WORK elements it moves, and that the channels do not mix
(41_error_diffusion_engine.md R85 to R94). -/

namespace Sys2Proof.Proofs

open Sys2Proof.Machine Sys2Proof.Claims Sys2Proof.Laws

/-! ### The step of a kernel's commands -/

/-- The ALG code of the commands that use a kernel (R53). -/
def kernelAlg : Kernel → BitVec 3
  | .fs => 1
  | .atk => 2

theorem kernelAlg_loads (k : Kernel) : kernelAlg k = 1 ∨ kernelAlg k = 2 := by
  cases k
  · exact .inl rfl
  · exact .inr rfl

section step
variable {i : Instr} {k : Kernel} {bd : BitVec 1} {ti : BitVec 8} {da : BitVec 9}
  (hf : convertFields i = some (kernelAlg k, bd, ti, da))
include hf

theorem convertPixel_kernel : convertPixel i = edPixel hwConfig k bd := by
  cases i
  case fs1 | fs2 | atk1 | atk2 =>
    cases k <;> cases hf
    rfl
  all_goals cases k <;> simp [convertFields, kernelAlg] at hf

/-- An error-diffusion step is the pixel of its kernel and the cursor's advance. -/
theorem exec_kernelStep {s t : State} (hb : s.status.busy = true) :
    exec i s = .next t ↔ rasterInside s = true ∧ t = advanceRaster (edPixel hwConfig k bd s) := by
  rw [exec_convertStep (isConvert_of_convertFields hf) hb, pixelStep_eq_next, convertPixel_kernel hf]

theorem exec_kernelStart {s t : State} (hb : s.status.busy = false) (h : exec i s = .next t) :
    t = beginRaster (loadWork (latchConvert (kernelAlg k) bd ti da s)) := by
  rw [exec_convert s hf, runCommand_idle hb] at h
  obtain ⟨-, -, ht⟩ := startConvert_eq_next.mp h
  exact ht

theorem pixelFrame_kernelStep {s : State} (hin : rasterInside s = true) :
    PixelFrame s (advanceRaster (edPixel hwConfig k bd s)) := by
  rw [← convertPixel_kernel hf]
  exact pixelFrame_convertStep (isConvert_of_convertFields hf) hin

end step

/-- The level an error-diffusion step leaves in OUT (R85). -/
theorem outChan_kernelStep (k : Kernel) (bd : BitVec 1) {s : State} (hin : rasterInside s = true) {c : Nat} (hc : c < 3) :
    outChan (advanceRaster (edPixel hwConfig k bd s)) s.cur.x.toNat s.cur.y.toNat c = edLevel hwConfig bd s c := by
  rw [outChan_advanceRaster, outChan_edPixel _ _ _ hin hc]

/-- What an error-diffusion step adds to a WORK element of the image (R85, R98). -/
theorem workChan_kernelStep (k : Kernel) (bd : BitVec 1) {s : State} (hin : rasterInside s = true) {c x y : Nat}
    (hc : c < 3) (hx : x < imgWidth s) (hy : y < imgHeight s) :
    workChan (advanceRaster (edPixel hwConfig k bd s)) c x y =
      workChan s c x y + edError hwConfig k bd s c * weightAt k s.cur.x.toNat s.cur.y.toNat x y := by
  rw [workChan_advanceRaster, workChan_edPixel _ _ _ _ hin hc hx hy]

theorem workAt_kernelStep_beyond (k : Kernel) (bd : BitVec 1) {s : State} {n : Nat}
    (hn : 3 * imgWidth s * imgHeight s ≤ n) : workAt (advanceRaster (edPixel hwConfig k bd s)) n = workAt s n := by
  rw [workAt_advanceRaster, workAt_edPixel_beyond _ _ _ _ hn]

/-! ### The two steps, with their errors (R90, R93) -/

/-- The readout is the WORK value clamped to the byte range (R87, log entry 17). -/
theorem edValue_eq (s : State) (c : Nat) :
    edValue hwConfig s c = max 0 (min 255 (workChan s c s.cur.x.toNat s.cur.y.toNat)) :=
  clampR_eq_max_min _ (by norm_num)

/-- The exact Floyd-Steinberg error (R90; log entry 18). -/
theorem edError_fs (bd : BitVec 1) (s : State) (c : Nat) : edError hwConfig .fs bd s c =
    (edValue hwConfig s c - byteRat (edLevel hwConfig bd s c)) * ditherAmount s.par := rfl

/-- The Atkinson error: an eighth of the exact one, floored toward minus infinity (R93). -/
theorem edError_atk (bd : BitVec 1) (s : State) (c : Nat) : edError hwConfig .atk bd s c =
    ⌊edError hwConfig .fs bd s c / 8⌋ := rfl

/-- Settles O15: `workChan_kernelStep` with the exact error. -/
theorem floydSteinbergStep : Obligations.FloydSteinbergStep := by
  unfold Obligations.FloydSteinbergStep
  intro i bd ti da s hi hb hx hy
  have hf : convertFields i = some (kernelAlg .fs, bd, ti, da) := by
    obtain ⟨rfl, rfl⟩ | ⟨rfl, rfl⟩ := hi <;> rfl
  have hin := rasterInside_iff.mpr ⟨hx, hy⟩
  refine ⟨_, (exec_kernelStep hf hb).mpr ⟨hin, rfl⟩, fun c hc => ?_, fun n => workAt_kernelStep_beyond .fs bd,
    pixelFrame_kernelStep hf hin⟩
  exact ⟨_, edLevel hwConfig bd s c, edValue_eq s c, rfl, outChan_kernelStep .fs bd hin hc,
    fun x y hx hy => workChan_kernelStep .fs bd hin hc hx hy⟩

/-- Settles O16: `workChan_kernelStep` with the floored error, which the two inequalities of a floor fix. -/
theorem atkinsonStep : Obligations.AtkinsonStep := by
  unfold Obligations.AtkinsonStep
  intro i bd ti da s hi hb hx hy
  have hf : convertFields i = some (kernelAlg .atk, bd, ti, da) := by
    obtain ⟨rfl, rfl⟩ | ⟨rfl, rfl⟩ := hi <;> rfl
  have hin := rasterInside_iff.mpr ⟨hx, hy⟩
  refine ⟨_, (exec_kernelStep hf hb).mpr ⟨hin, rfl⟩, fun c hc => ?_, fun n => workAt_kernelStep_beyond .atk bd,
    pixelFrame_kernelStep hf hin⟩
  have hexact : (edValue hwConfig s c - (edLevel hwConfig bd s c).toNat) * s.par.da.toNat / 256 / 8 =
      edError hwConfig .fs bd s c / 8 := by
    rw [edError_fs, byteRat, ditherAmount, mul_div_assoc]
  refine ⟨_, edLevel hwConfig bd s c, ⌊edError hwConfig .fs bd s c / 8⌋, edValue_eq s c, rfl,
    outChan_kernelStep .atk bd hin hc, ?_, ?_, fun x y hx hy => workChan_kernelStep .atk bd hin hc hx hy⟩
  · rw [hexact]
    exact Int.floor_le _
  · rw [hexact]
    exact Int.lt_floor_add_one _

/-! ### One channel, one plane (R94) -/

section plane
variable {c : Nat} {s t : State} (h : SamePlane c s t)
include h

theorem samePlane_imgWidth : imgWidth t = imgWidth s := congrArg BitVec.toNat h.width

theorem samePlane_imgHeight : imgHeight t = imgHeight s := congrArg BitVec.toNat h.height

theorem samePlane_inside : rasterInside t = rasterInside s := by
  rw [rasterInside, rasterInside, h.x, h.y, samePlane_imgWidth h, samePlane_imgHeight h]

theorem edValue_samePlane (hin : rasterInside s = true) : edValue hwConfig t c = edValue hwConfig s c := by
  obtain ⟨hx, hy⟩ := rasterInside_iff.mp hin
  rw [edValue, edValue, h.x, h.y, h.plane _ _ hx hy]

theorem edLevel_samePlane (bd : BitVec 1) (hin : rasterInside s = true) :
    edLevel hwConfig bd t c = edLevel hwConfig bd s c := by
  rw [edLevel, edLevel, edValue_samePlane h hin, h.threshold]

theorem edError_samePlane (k : Kernel) (bd : BitVec 1) (hin : rasterInside s = true) :
    edError hwConfig k bd t c = edError hwConfig k bd s c := by
  rw [edError, edError, edValue_samePlane h hin, edLevel_samePlane h bd hin, ditherAmount, ditherAmount, h.amount]

/-- Equal errors move equal planes alike. -/
theorem samePlane_kernelStep (k : Kernel) (bd : BitVec 1) (hin : rasterInside s = true) (hc : c < 3) :
    SamePlane c (advanceRaster (edPixel hwConfig k bd s)) (advanceRaster (edPixel hwConfig k bd t)) := by
  obtain ⟨hcurx, hcury⟩ := advanceRaster_cur_congr (s := edPixel hwConfig k bd s) (t := edPixel hwConfig k bd t)
    (by simpa using h.width) (by simpa using h.x) (by simpa using h.y)
  exact {
    width := by simpa using h.width
    height := by simpa using h.height
    x := hcurx
    y := hcury
    threshold := by simpa using h.threshold
    amount := by simpa using h.amount
    plane := fun x y hx hy => by
      rw [imgWidth_advanceRaster, imgWidth_edPixel] at hx
      rw [imgHeight_advanceRaster, imgHeight_edPixel] at hy
      rw [workChan_kernelStep k bd hin hc hx hy, workChan_kernelStep k bd ((samePlane_inside h).trans hin) hc
        ((samePlane_imgWidth h).symm ▸ hx) ((samePlane_imgHeight h).symm ▸ hy), edError_samePlane h k bd hin, h.x, h.y,
        h.plane x y hx hy] }

end plane

/-- The fields of a command that uses WORK, with its kernel. -/
theorem exists_kernelFields {i : Instr} (hd : isDiffusion i = true) :
    ∃ k bd ti da, convertFields i = some (kernelAlg k, bd, ti, da) := by
  cases i
  case fs1 | fs2 => exact ⟨.fs, _, _, _, rfl⟩
  case atk1 | atk2 => exact ⟨.atk, _, _, _, rfl⟩
  all_goals cases hd

/-- Settles O24: the level and the error of a channel read its own plane alone, and its error moves that plane alone. -/
theorem channelsIndependent : Obligations.ChannelsIndependent := by
  unfold Obligations.ChannelsIndependent
  intro i ti da c s t s' t' hi hc hbs hbt h hs ht
  have hd : isDiffusion i = true := by obtain rfl | rfl | rfl | rfl := hi <;> rfl
  obtain ⟨k, bd, _, _, hf⟩ := exists_kernelFields hd
  obtain ⟨hin, rfl⟩ := (exec_kernelStep hf hbs).mp hs
  obtain ⟨hin', rfl⟩ := (exec_kernelStep hf hbt).mp ht
  refine ⟨?_, samePlane_kernelStep h k bd hin hc⟩
  rw [outChan_kernelStep k bd hin hc, ← h.x, ← h.y, outChan_kernelStep k bd hin' hc,
    edLevel_samePlane h bd hin]

end Sys2Proof.Proofs
end

section
/-! PROOFS. How far the errors that have arrived can have moved a WORK element, and the ranges that follow
(41_error_diffusion_engine.md R96, R98). -/

namespace Sys2Proof.Proofs

open Sys2Proof.Machine Sys2Proof.Claims Sys2Proof.Laws

/-! ### The range of one error (R96) -/

/-- A readout and a level are both in the byte range, so an exact error at a legal amount is at most 255 either way. -/
theorem edError_fs_abs_le (bd : BitVec 1) {s : State} (hda : s.par.da.toNat ≤ 256) (c : Nat) :
    |edError hwConfig .fs bd s c| ≤ 255 := by
  have hv0 : 0 ≤ edValue hwConfig s c := le_clampR _ (by norm_num)
  have hv1 : edValue hwConfig s c ≤ 255 := clampR_le _ (by norm_num)
  have hq0 := byteRat_nonneg (edLevel hwConfig bd s c)
  have hq1 := byteRat_le (edLevel hwConfig bd s c)
  have hdiff : |edValue hwConfig s c - byteRat (edLevel hwConfig bd s c)| ≤ 255 :=
    abs_sub_le_iff.mpr ⟨by linarith, by linarith⟩
  have hd0 : 0 ≤ ditherAmount s.par := by unfold ditherAmount; positivity
  have hd1 : ditherAmount s.par ≤ 1 := by
    rw [ditherAmount, div_le_one (by norm_num)]
    exact_mod_cast hda
  rw [edError_fs, abs_mul, abs_of_nonneg hd0]
  exact (mul_le_of_le_one_right (abs_nonneg _) hd1).trans hdiff

theorem edError_fs_mem (bd : BitVec 1) {s : State} (hda : s.par.da.toNat ≤ 256) (c : Nat) :
    -255 ≤ edError hwConfig .fs bd s c ∧ edError hwConfig .fs bd s c ≤ 255 :=
  abs_le.mp (edError_fs_abs_le bd hda c)

/-- 255/8 lies between 31 and 32, so the floored error is in [-32, 31]. -/
theorem edError_atk_mem (bd : BitVec 1) {s : State} (hda : s.par.da.toNat ≤ 256) (c : Nat) :
    -32 ≤ edError hwConfig .atk bd s c ∧ edError hwConfig .atk bd s c ≤ 31 := by
  obtain ⟨hlo, hhi⟩ := edError_fs_mem bd hda c
  have hfloor_lo : -32 ≤ ⌊edError hwConfig .fs bd s c / 8⌋ := Int.le_floor.mpr (by push_cast; linarith)
  have hfloor_hi : ⌊edError hwConfig .fs bd s c / 8⌋ ≤ 31 :=
    Int.lt_add_one_iff.mp (Int.floor_lt.mpr (by push_cast; linarith))
  rw [edError_atk]
  exact_mod_cast And.intro hfloor_lo hfloor_hi

/-! ### The weight that has arrived -/

/-- A position has no weight, or that of the kernel's target it is (R90, R93, R98). -/
theorem weightAt_cases (k : Kernel) (x y x' y' : Nat) : weightAt k x y x' y' = 0 ∨
    ∃ tg ∈ kernelTargets k, ((x' : Int) = x + tg.dx ∧ (y' : Int) = y + tg.dy) ∧ tg.wt = weightAt k x y x' y' := by
  cases k with
  | fs =>
    simp only [weightAt]
    split_ifs
    case neg => exact .inl rfl
    all_goals
      right
      norm_num [kernelTargets]
      omega
  | atk =>
    simp only [weightAt]
    split_ifs with h
    · right
      rcases h with h | h | h | h | h | h
      all_goals
        norm_num [kernelTargets]
        omega
    · exact .inl rfl

theorem target_wt_nonneg (k : Kernel) : ∀ tg ∈ kernelTargets k, 0 ≤ tg.wt := by
  cases k <;> norm_num [kernelTargets]

theorem weightAt_nonneg (k : Kernel) (x y x' y' : Nat) : 0 ≤ weightAt k x y x' y' := by
  obtain h | ⟨tg, hmem, -, h⟩ := weightAt_cases k x y x' y'
  · exact h.ge
  · exact (target_wt_nonneg k tg hmem).trans h.le

theorem arrivedWeight_begin (k : Kernel) (s : State) (x y : Nat) : arrivedWeight k (beginRaster s) x y = 0 := by
  simp [arrivedWeight, rasterPos]

/-- The pixel does not move the cursor, so nothing more has arrived before the advance. -/
theorem arrivedWeight_edPixel (cfg : Config) (k k' : Kernel) (bd : BitVec 1) (s : State) (x y : Nat) :
    arrivedWeight k (edPixel cfg k' bd s) x y = arrivedWeight k s x y := by
  simp [arrivedWeight, rasterPos]

/-- The cursor's advance counts the visit of the pixel it leaves. -/
theorem arrivedWeight_advanceRaster (k : Kernel) {s : State} (hin : rasterInside s = true) (x y : Nat) :
    arrivedWeight k (advanceRaster s) x y =
      arrivedWeight k s x y + weightAt k s.cur.x.toNat s.cur.y.toNat x y := by
  obtain ⟨hx, -⟩ := rasterInside_iff.mp hin
  have hcol : rasterPos s % imgWidth s = s.cur.x.toNat := by
    rw [rasterPos, Nat.mul_add_mod', Nat.mod_eq_of_lt hx]
  have hrow : rasterPos s / imgWidth s = s.cur.y.toNat := by
    rw [rasterPos, mul_comm, Nat.mul_add_div (by omega), Nat.div_eq_of_lt hx, add_zero]
  rw [arrivedWeight, rasterPos_advance hin, imgWidth_advanceRaster, Finset.sum_range_succ, hcol, hrow, arrivedWeight]

/-! ### The invariant (R96) -/

/-- After a start WORK is the source and nothing has arrived. -/
theorem workWithin_start (k : Kernel) (lo hi : Rat) {alg : BitVec 3} (halg : alg = 1 ∨ alg = 2) (bd : BitVec 1)
    (ti : BitVec 8) (da : BitVec 9) (s : State) :
    WorkWithin k lo hi (beginRaster (loadWork (latchConvert alg bd ti da s))) := by
  intro c x y hc hx hy
  rw [arrivedWeight_begin, workChan_beginRaster, workChan_loadWork halg hc (by simpa using hx) (by simpa using hy)]
  simp

/-- A step adds one error times the weight that arrives with it. -/
theorem workWithin_kernelStep {k : Kernel} {lo hi : Rat} (bd : BitVec 1) {s : State} (hin : rasterInside s = true)
    (herr : ∀ c, lo ≤ edError hwConfig k bd s c ∧ edError hwConfig k bd s c ≤ hi) (h : WorkWithin k lo hi s) :
    WorkWithin k lo hi (advanceRaster (edPixel hwConfig k bd s)) := by
  intro c x y hc hx hy
  rw [imgWidth_advanceRaster, imgWidth_edPixel] at hx
  rw [imgHeight_advanceRaster, imgHeight_edPixel] at hy
  rw [workChan_kernelStep k bd hin hc hx hy, srcChan_advanceRaster, srcChan_edPixel,
    arrivedWeight_advanceRaster k (by simpa [rasterInside] using hin), arrivedWeight_edPixel, edPixel_cur]
  have hweight := weightAt_nonneg k s.cur.x.toNat s.cur.y.toNat x y
  obtain ⟨hlo, hhi⟩ := h c x y hc hx hy
  have hadd_lo := mul_le_mul_of_nonneg_right (herr c).1 hweight
  have hadd_hi := mul_le_mul_of_nonneg_right (herr c).2 hweight
  constructor <;> linarith

/-- Settles O26: the start is `workWithin_start`, and each step adds an error in the kernel's range. -/
theorem workStaysWithin : Obligations.WorkStaysWithin := by
  unfold Obligations.WorkStaysWithin
  intro i k lo hi ti da hcase
  obtain ⟨bd, hf, herr⟩ : ∃ bd, convertFields i = some (kernelAlg k, bd, ti, da) ∧
      ∀ s : State, s.par.da.toNat ≤ 256 → ∀ c, lo ≤ edError hwConfig k bd s c ∧ edError hwConfig k bd s c ≤ hi := by
    obtain ⟨rfl | rfl, rfl, rfl, rfl⟩ | ⟨rfl | rfl, rfl, rfl, rfl⟩ := hcase
    · exact ⟨0, rfl, fun s => edError_fs_mem 0⟩
    · exact ⟨1, rfl, fun s => edError_fs_mem 1⟩
    · exact ⟨0, rfl, fun s => edError_atk_mem 0⟩
    · exact ⟨1, rfl, fun s => edError_atk_mem 1⟩
  constructor
  · intro s t hb hs
    rw [exec_kernelStart hf hb hs]
    exact workWithin_start k lo hi (kernelAlg_loads k) bd ti da s
  · intro s t hb hda h hs
    obtain ⟨hin, rfl⟩ := (exec_kernelStep hf hb).mp hs
    exact workWithin_kernelStep bd hin (herr s hda) h

/-! ### The ranges (R96): each target of a kernel is reached from one position only -/

/-- What one target passes on from (x, y) to (x', y'). -/
def share (x y x' y' : Nat) (tg : Target) : Rat :=
  if (x' : Int) = x + tg.dx ∧ (y' : Int) = y + tg.dy then tg.wt else 0

theorem share_nonneg {x y x' y' : Nat} {tg : Target} (hwt : 0 ≤ tg.wt) : 0 ≤ share x y x' y' tg := by
  unfold share
  split
  · exact hwt
  · exact le_rfl

theorem weightAt_le_sum_share (k : Kernel) (x y x' y' : Nat) :
    weightAt k x y x' y' ≤ ((kernelTargets k).map (share x y x' y')).sum := by
  have hshares : ∀ r ∈ (kernelTargets k).map (share x y x' y'), 0 ≤ r := by
    intro r hr
    obtain ⟨tg, hmem, rfl⟩ := List.mem_map.mp hr
    exact share_nonneg (target_wt_nonneg k tg hmem)
  obtain h | ⟨tg, hmem, hat, h⟩ := weightAt_cases k x y x' y'
  · exact h.le.trans (List.sum_nonneg hshares)
  · have hshare : share x y x' y' tg = weightAt k x y x' y' := (if_pos hat).trans h
    exact hshare ▸ List.single_le_sum hshares _ (List.mem_map_of_mem hmem)

/-- Over all visits a target passes its weight on to an element at most once. -/
theorem sum_share_le (p w x y : Nat) {tg : Target} (hwt : 0 ≤ tg.wt) :
    ∑ n ∈ Finset.range p, share (n % w) (n / w) x y tg ≤ tg.wt := by
  have hunique : ∀ m ∈ Finset.range p, ∀ n ∈ Finset.range p,
      ((x : Int) = (m % w : Nat) + tg.dx ∧ (y : Int) = (m / w : Nat) + tg.dy) →
      ((x : Int) = (n % w : Nat) + tg.dx ∧ (y : Int) = (n / w : Nat) + tg.dy) → m = n := by
    rintro m - n - ⟨hcolm, hrowm⟩ ⟨hcoln, hrown⟩
    have hcol : m % w = n % w := by omega
    have hrow : m / w = n / w := by omega
    exact Nat.ext_div_mod hrow hcol
  simp only [share]
  rw [Finset.sum_ite_zero _ _ hunique]
  split
  · exact le_rfl
  · exact hwt

theorem sum_shares_le (p w x y : Nat) {tgs : List Target} (hwt : ∀ tg ∈ tgs, 0 ≤ tg.wt) :
    ∑ n ∈ Finset.range p, (tgs.map (share (n % w) (n / w) x y)).sum ≤ (tgs.map Target.wt).sum := by
  induction tgs with
  | nil => simp
  | cons tg tgs ih =>
    obtain ⟨hhead, htail⟩ := List.forall_mem_cons.mp hwt
    simp only [List.map_cons, List.sum_cons, Finset.sum_add_distrib]
    exact add_le_add (sum_share_le p w x y hhead) (ih htail)

/-- At most the weights of all the kernel's targets arrive. -/
theorem arrivedWeight_le (k : Kernel) (s : State) (x y : Nat) :
    arrivedWeight k s x y ≤ ((kernelTargets k).map Target.wt).sum := by
  calc arrivedWeight k s x y
      ≤ ∑ n ∈ Finset.range (rasterPos s), ((kernelTargets k).map (share (n % imgWidth s) (n / imgWidth s) x y)).sum :=
        Finset.sum_le_sum fun _ _ => weightAt_le_sum_share ..
    _ ≤ ((kernelTargets k).map Target.wt).sum := sum_shares_le _ _ _ _ (target_wt_nonneg k)

theorem arrivedWeight_fs_le (s : State) (x y : Nat) : arrivedWeight .fs s x y ≤ 1 :=
  (arrivedWeight_le .fs s x y).trans (by norm_num [kernelTargets])

theorem arrivedWeight_atk_le (s : State) (x y : Nat) : arrivedWeight .atk s x y ≤ 6 :=
  (arrivedWeight_le .atk s x y).trans (by norm_num [kernelTargets])

/-- Settles O27: a source byte is in [0, 255], and at most 1 (FS) or 6 (ATK) weights of one error each have arrived. -/
theorem workRange : Obligations.WorkRange := by
  unfold Obligations.WorkRange
  intro s c x y hc hx hy
  have hsrc0 := byteRat_nonneg (srcChan s x y c)
  have hsrc1 := byteRat_le (srcChan s x y c)
  constructor
  · intro h
    obtain ⟨hlo, hhi⟩ := h c x y hc hx hy
    have hmax := arrivedWeight_fs_le s x y
    constructor <;> linarith
  · intro h
    obtain ⟨hlo, hhi⟩ := h c x y hc hx hy
    have hmax := arrivedWeight_atk_le s x y
    constructor <;> linarith

end Sys2Proof.Proofs
end

section
/-! PROOFS. Ordered dithering: the threshold modifier as an integer quotient, the levels under lowered cutoffs as integer
comparisons, and the step that uses them (42_bayer_matrix_ditherer.md R101 to R111). -/

namespace Sys2Proof.Proofs

open Sys2Proof.Machine Sys2Proof.Claims Sys2Proof.Laws

/-! ### The modifier (R103) -/

/-- The product formed exactly and floored once is one integer quotient. -/
theorem bayerMod_eq_natDiv (k n sc : Nat) (da : BitVec 9) :
    bayerMod k n sc da = (k * sc * da.toNat / (n ^ 2 * 256) : Nat) := by
  have hproduct : (k : Rat) / ((n : Rat) * n) * sc * ((da.toNat : Rat) / 256) =
      ((k * sc * da.toNat : Nat) : Rat) / ((n ^ 2 * 256 : Nat) : Rat) := by
    push_cast
    ring
  rw [bayerMod, hproduct, floor_natDiv]

theorem bayerMod_nonneg (k n sc : Nat) (da : BitVec 9) : 0 ≤ bayerMod k n sc da := by
  rw [bayerMod_eq_natDiv]
  exact Int.natCast_nonneg _

/-- The greatest entry and the greatest legal amount give the greatest modifier. -/
theorem bayerMod_le {k n : Nat} (sc : Nat) {da : BitVec 9} (hk : k < n ^ 2) (hda : da.toNat ≤ 256) :
    bayerMod k n sc da ≤ (sc * (n ^ 2 - 1) / n ^ 2 : Nat) := by
  rw [bayerMod_eq_natDiv, Nat.cast_le]
  calc k * sc * da.toNat / (n ^ 2 * 256)
      ≤ (n ^ 2 - 1) * sc * 256 / (n ^ 2 * 256) := by gcongr; exact Nat.le_sub_one_of_lt hk
    _ = sc * (n ^ 2 - 1) / n ^ 2 := by rw [Nat.mul_div_mul_right _ _ (by decide), Nat.mul_comm]

theorem bayerMod_zero_entry (n sc : Nat) (da : BitVec 9) : bayerMod 0 n sc da = 0 := by
  simp [bayerMod_eq_natDiv]

/-- The widest intermediate of the modifier, 63 * 255 * 256, fits 22 bits. -/
theorem modProduct_lt {k : Nat} {da : BitVec 9} (hk : k < 64) (hda : da.toNat ≤ 256) : k * 255 * da.toNat < 2 ^ 22 :=
  calc k * 255 * da.toNat ≤ 63 * 255 * 256 := by gcongr; exact Nat.le_of_lt_succ hk
    _ < 2 ^ 22 := by decide

/-- Settles O18: the quotient form of the modifier, from which its bounds and its zeros follow. -/
theorem modifierIntegerForm : Obligations.ModifierIntegerForm := by
  unfold Obligations.ModifierIntegerForm
  refine ⟨fun k n sc da _ => bayerMod_eq_natDiv k n sc da,
    fun k n sc da _ hk hda => ⟨bayerMod_nonneg k n sc da, bayerMod_le sc hk hda⟩,
    fun k da hk hda => ⟨bayerMod_le (n := 8) 255 hk hda, bayerMod_le (n := 8) 85 hk hda, modProduct_lt hk hda⟩, ?_⟩
  rintro k n sc da - (rfl | rfl)
  · exact bayerMod_zero_entry n sc da
  · exact bayerMod_zero_amount k n sc

/-! ### The lowered cutoffs on integer intensities (R104) -/

/-- Only the lower clamp of a lowered cutoff can act, since the modifier is not negative. -/
theorem lowered_eq_max {r : Rat} (hr : r ≤ 255) (m : Nat) : lowered r m = max 0 (r - m) := by
  have hm : (0 : Rat) ≤ m := Nat.cast_nonneg m
  rw [lowered, Int.cast_natCast, clampR_eq_max_min _ (by norm_num), min_eq_right (by linarith)]

/-- A byte against a lowered cutoff, with the cutoff `a / 2` doubled: the difference held at 0 is that of natural numbers. -/
theorem byteRat_lt_lowered {r : Rat} {a : Nat} (hr : 2 * r = a) (ha : a ≤ 510) (v : Byte) (m : Nat) :
    byteRat v < lowered r m ↔ 2 * v.toNat < a - 2 * m := by
  have hr255 : r ≤ 255 := by
    have : (a : Rat) ≤ 510 := by exact_mod_cast ha
    linarith
  have hdouble : byteRat v < r - m ↔ ((2 * v.toNat + 2 * m : Nat) : Rat) < a := by
    rw [← hr, byteRat]
    push_cast
    constructor <;> intro <;> linarith
  rw [lowered_eq_max hr255, lt_max_iff, or_iff_right (byteRat_nonneg v).not_gt, hdouble, Nat.cast_lt, Nat.lt_sub_iff_add_lt]

/-- A byte against a lowered threshold. -/
theorem byteRat_lt_lowered_byteRat (v t : Byte) (m : Nat) :
    byteRat v < lowered (byteRat t) m ↔ v.toNat < t.toNat - m := by
  have ht := t.isLt
  rw [byteRat_lt_lowered (a := 2 * t.toNat) (by rw [byteRat]; push_cast; rfl) (by omega)]
  omega

/-- Under EXACT the level of a byte is found by integer comparisons. -/
theorem ordLevel_byteRat {cfg : Config} (h : cfg.cutoffDiv = .exact) (bd : BitVec 1) (v t : Byte) (m : Nat) :
    ordLevel cfg bd t m (byteRat v) = integerOrdLevel bd v.toNat t.toNat m := by
  have ht := t.isLt
  have hmid : byteRat v < lowered (cutoffs cfg t).mid m ↔ v.toNat < t.toNat - m := byteRat_lt_lowered_byteRat v t m
  have hthreshold : lowered (byteRat t) m ≤ byteRat v ↔ t.toNat - m ≤ v.toNat := by
    rw [← not_lt, byteRat_lt_lowered_byteRat, not_lt]
  simp only [ordLevel, integerOrdLevel, q1, ge_iff_le, q2c, hthreshold, hmid,
    byteRat_lt_lowered (two_mul_dark t h) (by omega), byteRat_lt_lowered (two_mul_bright t h) (by omega)]

/-! ### The ROM entry (R101) -/

/-- The three matrices have an entry at every place. -/
theorem bayerRom_ne_none (mat : MatrixSize) : ∀ row < matrixSide mat, ∀ col < matrixSide mat,
    (((bayerRom mat)[row]?).getD [])[col]? ≠ none := by
  cases mat <;> decide

theorem matrixSide_pos (mat : MatrixSize) : 0 < matrixSide mat := by
  cases mat <;> decide

/-- The side names the matrix. -/
theorem matrixSide_injective : Function.Injective matrixSide := by
  intro mat mat' h
  cases mat <;> cases mat' <;> cases h <;> rfl

/-- The entry the model takes is in the ROM, not the default of the look-up. -/
theorem bayerRom_lookup (mat : MatrixSize) (x y : Nat) :
    (((bayerRom mat)[y % matrixSide mat]?).getD [])[x % matrixSide mat]? = some (bayerEntry hwConfig mat x y) :=
  have hside := matrixSide_pos mat
  (Option.getD_of_ne_none (bayerRom_ne_none mat _ (Nat.mod_lt y hside) _ (Nat.mod_lt x hside)) 0).symm

/-- x and y enter a matrix through their remainders alone (R111). -/
theorem bayerEntry_congr (cfg : Config) {mat : MatrixSize} {x y x' y' : Nat} (hx : x % matrixSide mat = x' % matrixSide mat)
    (hy : y % matrixSide mat = y' % matrixSide mat) : bayerEntry cfg mat x y = bayerEntry cfg mat x' y' := by
  rw [bayerEntry, hx, hy, bayerEntry]

/-! ### The step (R104 to R110) -/

/-- The pixel of an ordered-dithering command uses the matrix of the command's size. -/
theorem convertPixel_ordSize {i : Instr} {n : Nat} {alg : BitVec 3} {bd : BitVec 1} {ti : BitVec 8} {da : BitVec 9}
    (ho : ordSize i = some n) (hf : convertFields i = some (alg, bd, ti, da)) :
    ∃ mat, matrixSide mat = n ∧ convertPixel i = ordPixel hwConfig mat bd := by
  cases i
  case ord2_1 | ord2_2 | ord4_1 | ord4_2 | ord8_1 | ord8_2 => cases ho; cases hf; exact ⟨_, rfl, rfl⟩
  all_goals cases ho

theorem isConvert_of_ordSize {i : Instr} {n : Nat} (ho : ordSize i = some n) : isConvert i = true := by
  cases i
  case enca1 | enca2 | encb1p | encb2p | encasm1p | encasm2p => cases ho
  all_goals rfl

/-- The R, G and B bytes an ordered-dithering pixel leaves are the levels of the channels. -/
theorem outChan_ordPixel (cfg : Config) (mat : MatrixSize) (bd : BitVec 1) (s : State) {c : Nat} (hc : c < 3) :
    outChan (ordPixel cfg mat bd s) s.cur.x.toNat s.cur.y.toNat c = ordAtCursor cfg mat bd s c := by
  rw [ordPixel, outChan, outByte_writePixel, imgWidth_writePixel]
  obtain rfl | rfl | rfl : c = 0 ∨ c = 1 ∨ c = 2 := by omega
  all_goals simp [pixelAddr]

/-- Settles O17: the step is the ordered-dithering pixel and the cursor's advance, with the modifier and the levels in their
integer forms. -/
theorem orderedStep : Obligations.OrderedStep := by
  unfold Obligations.OrderedStep
  intro i alg bd ti da n s hf ho hb hx hy
  obtain ⟨mat, rfl, hpixel⟩ := convertPixel_ordSize ho hf
  have hc := isConvert_of_ordSize ho
  have hin := rasterInside_iff.mpr ⟨hx, hy⟩
  have hentry := bayerRom_lookup mat s.cur.x.toNat s.cur.y.toNat
  refine ⟨advanceRaster (convertPixel i s), bayerEntry hwConfig mat s.cur.x.toNat s.cur.y.toNat, _, ?_, ?_, ?_, ?_, rfl,
    fun c hc3 => ?_, fun j => ?_, pixelFrame_convertStep hc hin⟩
  · rw [exec_convertStep hc hb]
    exact pixelStep_eq_next.mpr ⟨hin, rfl⟩
  · intro hn
    obtain rfl := matrixSide_injective (a₂ := .n2) hn
    exact hentry
  · intro hn
    obtain rfl := matrixSide_injective (a₂ := .n4) hn
    exact hentry
  · intro hn
    obtain rfl := matrixSide_injective (a₂ := .n8) hn
    exact hentry
  · rw [outChan_advanceRaster, hpixel, outChan_ordPixel _ mat bd s hc3, ordAtCursor, modAtCursor, bayerMod_eq_natDiv,
      srcAtCursor, ordLevel_byteRat rfl]
  · rw [workAt_advanceRaster, hpixel, ordPixel, workAt_writePixel]

/-! ### Tiling (R111) -/

theorem modAtCursor_congr (cfg : Config) {mat : MatrixSize} (bd : BitVec 1) {s t : State}
    (hx : s.cur.x.toNat % matrixSide mat = t.cur.x.toNat % matrixSide mat)
    (hy : s.cur.y.toNat % matrixSide mat = t.cur.y.toNat % matrixSide mat) (hda : s.par.da = t.par.da) :
    modAtCursor cfg mat bd s = modAtCursor cfg mat bd t := by
  rw [modAtCursor, bayerEntry_congr cfg hx hy, hda, modAtCursor]

/-- What an ordered-dithering step leaves in a channel of its pixel. -/
theorem outChan_ordStep {i : Instr} {mat : MatrixSize} {bd : BitVec 1} {s s' : State} (hc : isConvert i = true)
    (hpixel : convertPixel i = ordPixel hwConfig mat bd) (hb : s.status.busy = true) (h : exec i s = .next s') {c : Nat}
    (hc3 : c < 3) : outChan s' s.cur.x.toNat s.cur.y.toNat c = ordAtCursor hwConfig mat bd s c := by
  rw [exec_convertStep hc hb, hpixel] at h
  obtain ⟨-, rfl⟩ := pixelStep_eq_next.mp h
  rw [outChan_advanceRaster, outChan_ordPixel _ mat bd s hc3]

/-- Settles O23: one remainder, amount, threshold and source byte give one modifier and one level. -/
theorem orderedPeriodic : Obligations.OrderedPeriodic := by
  unfold Obligations.OrderedPeriodic
  intro i n s t s' t' ho hbs hbt hx hy ht hda hsrc hs' ht' c hc3
  have hc := isConvert_of_ordSize ho
  obtain ⟨alg, bd, ti, da, hf⟩ := exists_convertFields hc
  obtain ⟨mat, rfl, hpixel⟩ := convertPixel_ordSize ho hf
  rw [outChan_ordStep hc hpixel hbs hs' hc3, outChan_ordStep hc hpixel hbt ht' hc3, ordAtCursor, ordAtCursor,
    modAtCursor_congr hwConfig bd hx hy hda, srcAtCursor, srcAtCursor, hsrc c hc3, ht]

end Sys2Proof.Proofs
end

section
/-! PROOFS. An ENCODE step that appends its bytes: what ENC holds after it, what it leaves alone, and where the cursor goes
(10_state.md R16; 43_bitplane_encoder.md R126). -/

namespace Sys2Proof.Proofs

open Sys2Proof.Machine Sys2Proof.Claims Sys2Proof.Laws

theorem exec_encodeStep {i : Instr} {s : State} (hc : isConvert i = false) (hb : s.status.busy = true) :
    exec i s = encodeStep i s := by
  obtain ⟨op, bd, tp, hf⟩ := exists_encodeFields hc
  rw [exec_encode s hf, runCommand_busy hb]

/-- A step that emits completes wherever ENC has room. -/
theorem exec_of_emit {i : Instr} {s : State} {bs : List Byte} {after : State → State} (hc : isConvert i = false)
    (hb : s.status.busy = true) (hcap : s.encLen.toNat + bs.length ≤ hwConfig.encCap)
    (hstep : encodeStep i s = emit hwConfig bs after s) : exec i s = .next (after (encAppendAll bs s)) := by
  rw [exec_encodeStep hc hb, hstep]
  exact emit_eq_next.mpr ⟨hcap, rfl⟩

section move
variable {i : Instr} {s : State} {bs : List Byte} {after : State → State} (hm : EncodeMove s i bs after)
include hm

/-- Moving on after the append writes no ENC byte. -/
theorem encByte_encodeMove (a : Nat) : encByte (after (encAppendAll bs s)) a = encByte (encAppendAll bs s) a := by
  rw [encodeMove_eq hm]
  simp [encByte]

theorem appended_encodeMove (hcap : s.encLen.toNat + bs.length ≤ hwConfig.encCap) :
    Appended s (after (encAppendAll bs s)) bs := by
  have hbyte := encByte_encAppendAll bs s (lt_of_le_of_lt hcap (by decide))
  refine ⟨?_, fun k hk => ?_, fun a ha => ?_⟩
  · rw [encodeMove_eq hm]
    exact encLen_encAppendAll hcap
  · rw [encByte_encodeMove hm, hbyte, if_pos (Nat.le_add_right _ _), Nat.add_sub_cancel_left, List.getElem?_eq_getElem hk,
      Option.getD_some]
  · rw [encByte_encodeMove hm, hbyte]
    obtain hbelow | habove := ha
    · rw [if_neg (by omega)]
    · rw [List.getElem?_eq_none (by omega), Option.getD_none, ite_self]

theorem encodeFrame_encodeMove : EncodeFrame s (after (encAppendAll bs s)) := by
  rw [encodeMove_eq hm]
  exact ⟨fun _ => rfl, fun _ => rfl, fun _ => rfl, ⟨rfl, rfl, rfl, rfl, rfl⟩, rfl⟩

end move

/-! ### The cursor's move (R16) -/

/-- The cursor components ENCA does not use (log entry 23). -/
theorem advancePlanes_unused (n : Nat) (s : State) : (advancePlanes n s).cur.x = s.cur.x ∧
    (advancePlanes n s).cur.g = s.cur.g ∧ (advancePlanes n s).cur.hdr = s.cur.hdr := by
  unfold advancePlanes
  split
  · split <;> simp
  · simp

/-- The cursor components ENCB does not use (log entry 23). -/
theorem advanceGroups_unused (s : State) : (advanceGroups s).cur.x = s.cur.x ∧ (advanceGroups s).cur.p = s.cur.p ∧
    (advanceGroups s).cur.j = s.cur.j ∧ (advanceGroups s).cur.hdr = s.cur.hdr := by
  unfold advanceGroups
  split <;> simp

theorem planesAdvanced_encodeStep {n : Nat} {s : State} (bs : List Byte) (hn : n ≤ 2048) (hin : planesInside n s = true) :
    PlanesAdvanced n s (advancePlanes n (encAppendAll bs s)) := by
  have hin' : planesInside n (encAppendAll bs s) = true := by simpa using hin
  have h : PlanesAdvanced n (encAppendAll bs s) (advancePlanes n (encAppendAll bs s)) :=
    ⟨advancePlanes_j hin' hn, advancePlanes_y hin' hn, advancePlanes_p hin' hn, advancePlanes_unused n _,
      advancePlanes_status hin' hn⟩
  simpa [PlanesAdvanced] using h

theorem groupsAdvanced_encodeStep {s : State} (bs : List Byte) (hin : groupsInside s = true) :
    GroupsAdvanced s (advanceGroups (encAppendAll bs s)) := by
  have hin' : groupsInside (encAppendAll bs s) = true := by simpa using hin
  have h : GroupsAdvanced (encAppendAll bs s) (advanceGroups (encAppendAll bs s)) :=
    ⟨advanceGroups_g hin', advanceGroups_y hin', advanceGroups_unused _, advanceGroups_status hin'⟩
  simpa [GroupsAdvanced] using h

/-- A step of ENCA with its cursor in range, room in ENC and its byte defined. -/
theorem exec_planes {i : Instr} {n : Nat} (hi : i = .enca1 ∧ n = 8 ∨ i = .enca2 ∧ n = 4) {s : State} {b : Byte}
    (hb : s.status.busy = true) (hin : planesInside (encaStride n s) s = true)
    (hcap : s.encLen.toNat + 1 ≤ hwConfig.encCap)
    (hstep : encodeStep i s = emit hwConfig [b] (advancePlanes (encaStride n s)) s) :
    ∃ s', exec i s = .next s' ∧ Appended s s' [b] ∧ EncodeFrame s s' ∧ PlanesAdvanced (encaStride n s) s s' := by
  have hc : isConvert i = false := by obtain ⟨rfl, -⟩ | ⟨rfl, -⟩ := hi <;> rfl
  have hm := EncodeMove.planes hi hin b
  exact ⟨_, exec_of_emit (bs := [b]) hc hb hcap hstep, appended_encodeMove hm hcap, encodeFrame_encodeMove hm,
    planesAdvanced_encodeStep [b] (encaStride_le (by omega) s) hin⟩

/-- A step of ENCB with its cursor in range and room in ENC. -/
theorem exec_groups {i : Instr} {two : Bool} (hi : i = .encb1p ∧ two = false ∨ i = .encb2p ∧ two = true) {s : State}
    (hb : s.status.busy = true) (hin : groupsInside s = true)
    (hcap : s.encLen.toNat + (encbBytes two s).length ≤ hwConfig.encCap) :
    ∃ s', exec i s = .next s' ∧ Appended s s' (encbBytes two s) ∧ EncodeFrame s s' ∧ GroupsAdvanced s s' := by
  have hstep : isConvert i = false ∧ encodeStep i s = encbStep hwConfig two s := by
    obtain ⟨rfl, rfl⟩ | ⟨rfl, rfl⟩ := hi <;> exact ⟨rfl, rfl⟩
  obtain ⟨hc, hstep⟩ := hstep
  have hm := EncodeMove.groups hi hin
  exact ⟨_, exec_of_emit hc hb hcap (hstep.trans (encbStep_inside two hin)), appended_encodeMove hm hcap,
    encodeFrame_encodeMove hm, groupsAdvanced_encodeStep _ hin⟩

end Sys2Proof.Proofs
end

section
/-! PROOFS. The bit-plane encoder: the bits of the bytes of Format A and Format B, the bytes ENCA.2 refuses, and the palette
tokens as Format B bytes (43_bitplane_encoder.md R116 to R125; 44_nibble_palette_encoder.md R133). -/

namespace Sys2Proof.Proofs

open Sys2Proof.Machine Sys2Proof.Claims Sys2Proof.Laws

/-! ### The OR of the pixels' masks (R125) -/

theorem getLsbD_orBits_eq_false {mask : Nat → Byte} {n k : Nat} (h : ∀ j < n, (mask j).getLsbD k = false) :
    (orBits mask n).getLsbD k = false := by
  induction n with
  | zero => simp [orBits]
  | succ n ih => rw [orBits, BitVec.getLsbD_or, ih fun j hj => h j (by omega), h n (by omega), Bool.or_false]

/-- A bit that no other pixel's mask has is the pixel's own. -/
theorem getLsbD_orBits {mask : Nat → Byte} {n i k : Nat} (hi : i < n)
    (hown : ∀ j < n, j ≠ i → (mask j).getLsbD k = false) : (orBits mask n).getLsbD k = (mask i).getLsbD k := by
  induction n with
  | zero => omega
  | succ n ih =>
    rw [orBits, BitVec.getLsbD_or]
    by_cases h : i = n
    · rw [getLsbD_orBits_eq_false fun j hj => hown j (by omega) (by omega), h, Bool.false_or]
    · rw [ih (by omega) fun j hj => hown j (by omega), hown n (by omega) (Ne.symm h), Bool.or_false]

theorem mask80_eq : 0x80#8 = BitVec.twoPow 8 7 := rfl

theorem mask40_eq : 0x40#8 = BitVec.twoPow 8 6 := rfl

/-- A mask of one bit, shifted down. -/
theorem getLsbD_twoPow_shift {m : Nat} (hm : m < 8) (n k : Nat) :
    (BitVec.twoPow 8 m >>> n).getLsbD k = decide (n + k = m) := by
  simp [BitVec.getLsbD_ushiftRight, BitVec.getLsbD_twoPow, hm, eq_comm]

/-! ### Format A, one bit a pixel (R116) -/

theorem getLsbD_encaBit1 (s : State) (p y j i k : Nat) : (encaBit1 s p y j i).getLsbD k =
    (decide (8 * j + i < imgWidth s ∧ 128 ≤ (outChan s (8 * j + i) y p).toNat) && decide (i + k = 7)) := by
  unfold encaBit1
  split
  next h =>
    rw [mask80_eq, getLsbD_twoPow_shift (by decide), decide_eq_true h, Bool.true_and]
  next h => rw [decide_eq_false h, Bool.false_and, BitVec.ofNat_eq_ofNat, BitVec.getLsbD_zero]

theorem getLsbD_encaByte1 (s : State) (p y j : Nat) {i : Nat} (hi : i < 8) : (encaByte1 s p y j).getLsbD (7 - i) =
    (decide (8 * j + i < imgWidth s) && decide (128 ≤ (outChan s (8 * j + i) y p).toNat)) := by
  have hown : ∀ k < 8, k ≠ i → (encaBit1 s p y j k).getLsbD (7 - i) = false := by
    intro k hk hne
    rw [getLsbD_encaBit1, decide_eq_false (by omega : ¬ k + (7 - i) = 7), Bool.and_false]
  rw [encaByte1, getLsbD_orBits hi hown, getLsbD_encaBit1, decide_eq_true (by omega : i + (7 - i) = 7), Bool.and_true,
    Bool.decide_and]

/-- Settles O28: the step appends the one byte of the cursor's place, and each bit of it is its pixel's own. -/
theorem encaOneBitStep : Obligations.EncaOneBitStep := by
  unfold Obligations.EncaOneBitStep
  intro s hb hp hy hj hcap
  have hin : planesInside (encaStride 8 s) s = true := planesInside_iff.mpr ⟨hp, hy, hj⟩
  obtain ⟨s', hexec, happ, hframe, hadv⟩ := exec_planes (.inl ⟨rfl, rfl⟩) hb hin hcap (if_pos hin)
  exact ⟨s', _, hexec, happ, fun i hi => getLsbD_encaByte1 s _ _ _ hi, hframe, hadv⟩

/-! ### Format A, two bits a pixel (R118, R119) -/

theorem toNat_of_levelIdx {v : Byte} {l : BitVec 2} (h : levelIdx v = some l) : 85 * l.toNat = v.toNat := by
  unfold levelIdx at h
  split_ifs at h with h0 h1 h2 h3 <;> cases h
  · rw [h0]; rfl
  · rw [h1]; rfl
  · rw [h2]; rfl
  · rw [h3]; rfl

theorem levelIdx_eq_none {v : Byte} (h : isLevel v = false) : levelIdx v = none := by
  simp only [isLevel, Bool.or_eq_false_iff, beq_eq_false_iff_ne] at h
  obtain ⟨⟨⟨h0, h1⟩, h2⟩, h3⟩ := h
  rw [levelIdx, if_neg h0, if_neg h1, if_neg h2, if_neg h3]

/-- The bits of a pixel that is past the row's end or a level: an index that is the byte divided by 85, or 0. -/
theorem exists_placeIdx {s : State} {p y j i : Nat}
    (hl : 4 * j + i < imgWidth s → isLevel (outChan s (4 * j + i) y p) = true) :
    ∃ l, encaBits2 s p y j i = some (placeIdx i l) ∧
      85 * l.toNat = if 4 * j + i < imgWidth s then (outChan s (4 * j + i) y p).toNat else 0 := by
  unfold encaBits2
  split
  next hx =>
    obtain ⟨l, h⟩ := exists_levelIdx (hl hx)
    exact ⟨l, by rw [h, Option.map_some], toNat_of_levelIdx h⟩
  next => exact ⟨0, by simp [placeIdx], rfl⟩

theorem encaByte2_eq_some {s : State} {p y j n : Nat} {mask : Nat → Byte}
    (h : ∀ i < n, encaBits2 s p y j i = some (mask i)) : encaByte2 s p y j n = some (orBits mask n) := by
  induction n with
  | zero => rfl
  | succ n ih => rw [encaByte2, ih fun i hi => h i (by omega), h n (by omega), orBits]

theorem encaByte2_eq_none {s : State} {p y j i n : Nat} (hi : i < n) (h : encaBits2 s p y j i = none) :
    encaByte2 s p y j n = none := by
  induction n with
  | zero => omega
  | succ n ih =>
    by_cases hn : i = n
    · rw [encaByte2, ← hn, h]
      cases encaByte2 s p y j i <;> rfl
    · rw [encaByte2, ih (by omega)]

theorem getLsbD_placeIdx (i : Nat) (l : BitVec 2) {k : Nat} (hk : k < 8) :
    (placeIdx i l).getLsbD k = (decide (6 - 2 * i ≤ k) && l.getLsbD (k - (6 - 2 * i))) := by
  rw [placeIdx, BitVec.getLsbD_shiftLeft, BitVec.getLsbD_setWidth, decide_eq_true hk, Bool.true_and,
    decide_eq_true (by omega : k - (6 - 2 * i) < 8), Bool.true_and, ← decide_not, decide_eq_decide.mpr Nat.not_lt]

/-- The two bits of a pixel are its index (R118). -/
theorem extractLsb'_orBits_placeIdx (idx : Nat → BitVec 2) {i : Nat} (hi : i < 4) :
    (orBits (fun k => placeIdx k (idx k)) 4).extractLsb' (6 - 2 * i) 2 = idx i := by
  apply BitVec.eq_of_getLsbD_eq
  intro b hb
  have hown : ∀ k < 4, k ≠ i → (placeIdx k (idx k)).getLsbD (6 - 2 * i + b) = false := by
    intro k hk hne
    rw [getLsbD_placeIdx _ _ (by omega)]
    by_cases hle : 6 - 2 * k ≤ 6 - 2 * i + b
    · rw [BitVec.getLsbD_of_ge _ _ (by omega), Bool.and_false]
    · rw [decide_eq_false hle, Bool.false_and]
  rw [BitVec.getLsbD_extractLsb', getLsbD_orBits hi hown, getLsbD_placeIdx _ _ (by omega), Nat.add_sub_cancel_left]
  simp [hb]

/-- Settles O29: on levels the byte is the OR of the pixels' indices, each in its own two bits. -/
theorem encaTwoBitStep : Obligations.EncaTwoBitStep := by
  unfold Obligations.EncaTwoBitStep
  intro s hb hp hy hj hcap hl
  have hin : planesInside (encaStride 4 s) s = true := planesInside_iff.mpr ⟨hp, hy, hj⟩
  choose! idx hbits hidx using fun i hi => exists_placeIdx (hl i hi)
  have hstep : encodeStep .enca2 s =
      emit hwConfig [orBits (fun k => placeIdx k (idx k)) 4] (advancePlanes (encaStride 4 s)) s := by
    refine (if_pos hin).trans ?_
    rw [encaByte2_eq_some hbits]
  obtain ⟨s', hexec, happ, hframe, hadv⟩ := exec_planes (.inr ⟨rfl, rfl⟩) hb hin hcap hstep
  refine ⟨s', _, hexec, happ, fun i hi => ?_, hframe, hadv⟩
  rw [extractLsb'_orBits_placeIdx idx hi, hidx i hi]

/-- Settles O30: a byte with no index leaves the step without its byte. -/
theorem nonLevelRefused : Obligations.NonLevelRefused := by
  unfold Obligations.NonLevelRefused
  intro s i hb hp hy hj hi hx hl
  have hin : planesInside (encaStride 4 s) s = true := planesInside_iff.mpr ⟨hp, hy, hj⟩
  have hbits : encaBits2 s s.cur.p.toNat s.cur.y.toNat s.cur.j.toNat i = none := by
    rw [encaBits2, if_pos hx, levelIdx_eq_none hl, Option.map_none]
  rw [exec_encodeStep rfl hb, encodeStep, encaStep2, if_pos hin, encaByte2_eq_none hi hbits]

/-! ### Format B (R120, R121) -/

/-- The mask of one bit of a pixel's pair, where the plane bit is set. -/
theorem getLsbD_pairMask {m : Nat} (hm : m < 8) (i : Nat) (b : Bool) (k : Nat) :
    (pairMask (BitVec.twoPow 8 m) i b).getLsbD k = (b && decide (2 * i + k = m)) := by
  cases b
  · simp [pairMask]
  · rw [pairMask, if_pos rfl, getLsbD_twoPow_shift hm, Bool.true_and]

/-- A byte of pairs: the first bits at 7, 5, 3, 1 and the second bits at 6, 4, 2, 0. -/
theorem getLsbD_pairs (first second : Nat → Bool) {k : Nat} (hk : k < 4) :
    let byte := orBits (fun i => pairMask 0x80#8 i (first i) ||| pairMask 0x40#8 i (second i)) 4
    byte.getLsbD (7 - 2 * k) = first k ∧ byte.getLsbD (6 - 2 * k) = second k := by
  have hmask : ∀ i b, (pairMask 0x80#8 i (first i) ||| pairMask 0x40#8 i (second i)).getLsbD b =
      (first i && decide (2 * i + b = 7) || second i && decide (2 * i + b = 6)) := by
    intro i b
    rw [mask80_eq, mask40_eq, BitVec.getLsbD_or, getLsbD_pairMask (by decide), getLsbD_pairMask (by decide)]
  have hown : ∀ b, b = 7 - 2 * k ∨ b = 6 - 2 * k → ∀ i < 4, i ≠ k →
      (pairMask 0x80#8 i (first i) ||| pairMask 0x40#8 i (second i)).getLsbD b = false := by
    intro b hb i hi hne
    rw [hmask, decide_eq_false (by omega), decide_eq_false (by omega), Bool.and_false, Bool.and_false, Bool.or_false]
  constructor
  · rw [getLsbD_orBits hk (hown _ (.inl rfl)), hmask, decide_eq_true (by omega), decide_eq_false (by omega), Bool.and_true,
      Bool.and_false, Bool.or_false]
  · rw [getLsbD_orBits hk (hown _ (.inr rfl)), hmask, decide_eq_false (by omega), decide_eq_true (by omega), Bool.and_true,
      Bool.and_false, Bool.false_or]

section formatB
variable (s : State) (y g : Nat) {k : Nat} (hk : k < 4)
include hk

theorem getLsbD_encbByte1 : (encbByte1 s y g).getLsbD (7 - 2 * k) = planeBit s (4 * g + k) y 1 ∧
    (encbByte1 s y g).getLsbD (6 - 2 * k) = false := by
  have hmask : encbByte1 s y g =
      orBits (fun i => pairMask 0x80#8 i (planeBit s (4 * g + i) y 1) ||| pairMask 0x40#8 i false) 4 := by
    simp [encbByte1, pairMask]
  rw [hmask]
  exact getLsbD_pairs (fun i => planeBit s (4 * g + i) y 1) (fun _ => false) hk

theorem getLsbD_encbByte2 : (encbByte2 s y g).getLsbD (7 - 2 * k) = planeBit s (4 * g + k) y 0 ∧
    (encbByte2 s y g).getLsbD (6 - 2 * k) = planeBit s (4 * g + k) y 2 :=
  getLsbD_pairs (fun i => planeBit s (4 * g + i) y 0) (fun i => planeBit s (4 * g + i) y 2) hk

end formatB

/-- Settles O31: both commands take the step of their planes, and each bit of a byte is its pixel's own. -/
theorem formatBStep : Obligations.FormatBStep := by
  unfold Obligations.FormatBStep
  intro i s hB hb hy hg hcap
  have hin : groupsInside s = true := groupsInside_iff.mpr ⟨hy, hg⟩
  obtain ⟨two, hi⟩ : ∃ two, i = .encb1p ∧ two = false ∨ i = .encb2p ∧ two = true := by
    cases i <;> cases hB
    · exact ⟨false, .inl ⟨rfl, rfl⟩⟩
    · exact ⟨true, .inr ⟨rfl, rfl⟩⟩
  have hlen : (encbBytes two s).length = if i = .encb2p then 2 else 1 := by
    obtain ⟨rfl, rfl⟩ | ⟨rfl, rfl⟩ := hi <;> rfl
  obtain ⟨s', hexec, happ, hframe, hadv⟩ := exec_groups hi hb hin (hlen ▸ hcap)
  refine ⟨s', encbByte1 s s.cur.y.toNat s.cur.g.toNat, encbByte2 s s.cur.y.toNat s.cur.g.toNat, hexec, ?_, ?_,
    fun k hk => ?_, hframe, hadv⟩
  · rintro rfl
    obtain ⟨-, rfl⟩ | ⟨h, -⟩ := hi
    · exact happ
    · cases h
  · rintro rfl
    obtain ⟨h, -⟩ | ⟨-, rfl⟩ := hi
    · cases h
    · exact happ
  · obtain ⟨hgreen, hzero⟩ := getLsbD_encbByte1 s s.cur.y.toNat s.cur.g.toNat hk
    obtain ⟨hred, hblue⟩ := getLsbD_encbByte2 s s.cur.y.toNat s.cur.g.toNat hk
    exact ⟨hgreen, hzero, hred, hblue⟩

/-! ### The palette tokens (R132 to R134) -/

/-- The fragments of a palette entry by bits: green and 0, red and blue (R133). -/
theorem getLsbD_palEntry {cfg : Config} (hpal : cfg.pal = palRom) (r g b : Bool) :
    ((palEntry cfg (palIdx r g b)).f1.getLsbD 1 = g ∧ (palEntry cfg (palIdx r g b)).f1.getLsbD 0 = false) ∧
      (palEntry cfg (palIdx r g b)).f2.getLsbD 1 = r ∧ (palEntry cfg (palIdx r g b)).f2.getLsbD 0 = b := by
  rw [palEntry, hpal]
  revert r g b
  decide

/-- Four fragments laid out, the first in bits 7:6 (R134). -/
theorem getLsbD_fragments (f : Nat → BitVec 2) {k : Nat} (hk : k < 4) :
    (f 0 ++ f 1 ++ f 2 ++ f 3 : Byte).getLsbD (7 - 2 * k) = (f k).getLsbD 1 ∧
      (f 0 ++ f 1 ++ f 2 ++ f 3 : Byte).getLsbD (6 - 2 * k) = (f k).getLsbD 0 := by
  simp only [BitVec.getLsbD_append]
  interval_cases k <;> simp

/-- Two bytes with the same four pairs of bits are one byte. -/
theorem eq_of_pairs {a b : Byte} (h : ∀ k < 4, a.getLsbD (7 - 2 * k) = b.getLsbD (7 - 2 * k) ∧
    a.getLsbD (6 - 2 * k) = b.getLsbD (6 - 2 * k)) : a = b := by
  apply BitVec.eq_of_getLsbD_eq
  intro i hi
  obtain ⟨h7, h6⟩ := h ((7 - i) / 2) (by omega)
  obtain hodd | heven : i = 7 - 2 * ((7 - i) / 2) ∨ i = 6 - 2 * ((7 - i) / 2) := by omega
  · rwa [hodd]
  · rwa [heven]

section tokens
variable {cfg : Config} (hpal : cfg.pal = palRom) (s : State) (y g : Nat) {k : Nat} (hk : k < 4)
include hpal hk

theorem getLsbD_token1 : (token1 cfg s y g).getLsbD (7 - 2 * k) = paletteHigh cfg (outChan s (4 * g + k) y 1) ∧
    (token1 cfg s y g).getLsbD (6 - 2 * k) = false := by
  obtain ⟨hgreen, hzero⟩ := getLsbD_fragments (fun i => (pixelEntry cfg s (4 * g + i) y).f1) hk
  obtain ⟨⟨h1, h0⟩, -⟩ := getLsbD_palEntry hpal _ _ _
  exact ⟨hgreen.trans h1, hzero.trans h0⟩

theorem getLsbD_token2 : (token2 cfg s y g).getLsbD (7 - 2 * k) = paletteHigh cfg (outChan s (4 * g + k) y 0) ∧
    (token2 cfg s y g).getLsbD (6 - 2 * k) = paletteHigh cfg (outChan s (4 * g + k) y 2) := by
  obtain ⟨hred, hblue⟩ := getLsbD_fragments (fun i => (pixelEntry cfg s (4 * g + i) y).f2) hk
  obtain ⟨-, h1, h0⟩ := getLsbD_palEntry hpal _ _ _
  exact ⟨hred.trans h1, hblue.trans h0⟩

end tokens

/-- Settles O35: a token and a Format B byte have the same pairs of bits, each pixel's classes. -/
theorem tokensAreFormatB : Obligations.TokensAreFormatB := by
  unfold Obligations.TokensAreFormatB
  intro cfg s y g hpal hagree
  constructor
  · refine eq_of_pairs fun k hk => ?_
    obtain ⟨hgreen, hzero⟩ := getLsbD_token1 hpal s y g hk
    obtain ⟨hgreen', hzero'⟩ := getLsbD_encbByte1 s y g hk
    exact ⟨by rw [hgreen, hgreen', hagree k 1 hk (by decide), planeBit], by rw [hzero, hzero']⟩
  · refine eq_of_pairs fun k hk => ?_
    obtain ⟨hred, hblue⟩ := getLsbD_token2 hpal s y g hk
    obtain ⟨hred', hblue'⟩ := getLsbD_encbByte2 s y g hk
    exact ⟨by rw [hred, hred', hagree k 0 hk (by decide), planeBit],
      by rw [hblue, hblue', hagree k 2 hk (by decide), planeBit]⟩

/-! ### The start of Format B (R122) -/

/-- Settles O12: OPC 3 and a width that is no multiple of 4 meet the second test of an ENCODE start. -/
theorem formatBWidthRefused : Obligations.FormatBWidthRefused := by
  unfold Obligations.FormatBWidthRefused
  intro i s hB hb hw hh hwidth
  obtain ⟨tp, hf⟩ : ∃ tp, encodeFields i = some (3, 0, tp) := by
    cases i <;> cases hB <;> exact ⟨_, rfl⟩
  rw [exec_encode s hf, runCommand_idle hb, startEncode, if_neg (not_or.mpr ⟨hw, hh⟩), if_pos ⟨rfl, hwidth⟩]

end Sys2Proof.Proofs
end

section
/-! PROOFS. What an ENCODE step reads: OUT, the dimensions, the cursor and the append address alone (43_bitplane_encoder.md R126;
70_reset_and_hazards.md R176). -/

namespace Sys2Proof.Proofs

open Sys2Proof.Machine Sys2Proof.Claims Sys2Proof.Laws

/-- Two states that share all that decides the bytes of an ENCODE step and its move; where the bytes go, ENC_LEN decides. -/
structure SameView (s t : State) : Prop where
  width : t.imgW = s.imgW
  height : t.imgH = s.imgH
  out : SameOut s t
  cur : t.cur = s.cur
  busy : t.status.busy = s.status.busy

section view
variable {s t : State} (h : SameView s t)
include h

theorem imgWidth_view : imgWidth t = imgWidth s := congrArg BitVec.toNat h.width

theorem imgHeight_view : imgHeight t = imgHeight s := congrArg BitVec.toNat h.height

theorem outChan_view (x y c : Nat) : outChan t x y c = outChan s x y c := by
  rw [outChan, imgWidth_view h, h.out]
  rfl

theorem groupsPerRow_view : groupsPerRow t = groupsPerRow s := by rw [groupsPerRow, imgWidth_view h, groupsPerRow]

/-! ### The bytes to append -/

theorem encaByte1_view (p y j : Nat) : encaByte1 t p y j = encaByte1 s p y j := by
  have hbits : encaBit1 t p y j = encaBit1 s p y j := by
    funext i
    rw [encaBit1, imgWidth_view h, outChan_view h]
    rfl
  rw [encaByte1, hbits]
  rfl

theorem encaByte2_view (p y j n : Nat) : encaByte2 t p y j n = encaByte2 s p y j n := by
  have hbits : ∀ i, encaBits2 t p y j i = encaBits2 s p y j i := by
    intro i
    rw [encaBits2, imgWidth_view h, outChan_view h]
    rfl
  induction n with
  | zero => rfl
  | succ n ih => rw [encaByte2, ih, hbits, encaByte2]

theorem encbBytes_view (two : Bool) : encbBytes two t = encbBytes two s := by
  have hbit : ∀ x y c, planeBit t x y c = planeBit s x y c := fun x y c => by rw [planeBit, outChan_view h, planeBit]
  simp only [encbBytes, encbByte1, encbByte2, hbit, h.cur]

theorem rowLine_view (cfg : Config) (two : Bool) (y : Nat) : rowLine cfg two t y = rowLine cfg two s y := by
  have hentry : ∀ x, pixelEntry cfg t x y = pixelEntry cfg s x y := fun x => by simp only [pixelEntry, outChan_view h]
  simp only [rowLine, rowTokens_eq, token1, token2, hentry, groupsPerRow_view h]

theorem headerText_view : headerText t = headerText s := by
  rw [headerText, imgWidth_view h, imgHeight_view h, headerText]

/-! ### The range of the cursor, and its move -/

theorem encaStride_view (n : Nat) : encaStride n t = encaStride n s := by rw [encaStride, imgWidth_view h, encaStride]

theorem planesInside_view (n : Nat) : planesInside n t = planesInside n s := by
  rw [planesInside, h.cur, imgHeight_view h, planesInside]

theorem groupsInside_view : groupsInside t = groupsInside s := by
  rw [groupsInside, h.cur, imgHeight_view h, groupsPerRow_view h, groupsInside]

/-- What one state may append and how it moves, the other may and does too. -/
theorem encodeMove_view {i : Instr} {bs : List Byte} {after : State → State} (hm : EncodeMove s i bs after) :
    EncodeMove t i bs after := by
  have hhdr : t.cur.hdr = s.cur.hdr := by rw [h.cur]
  have hy : t.cur.y = s.cur.y := by rw [h.cur]
  cases hm with
  | planes hi hin b =>
    rw [← encaStride_view h] at hin ⊢
    exact .planes hi (by rwa [planesInside_view h]) b
  | groups hi hin =>
    rw [← encbBytes_view h]
    exact .groups hi (by rwa [groupsInside_view h])
  | header hi h0 hw =>
    rw [← headerText_view h]
    exact .header hi (hhdr.trans h0) (by rwa [imgWidth_view h])
  | diagnostic hi h0 hw =>
    rw [← headerText_view h]
    exact .diagnostic hi (hhdr.trans h0) (by rwa [imgWidth_view h])
  | line hi h1 hin =>
    rw [← rowLine_view h, ← hy]
    exact .line hi (hhdr.trans h1) (by rwa [hy, imgHeight_view h])

theorem sameView_encAppendAll (bs : List Byte) : SameView (encAppendAll bs s) (encAppendAll bs t) where
  width := by simpa using h.width
  height := by simpa using h.height
  out a := by simpa using h.out a
  cur := by simpa using h.cur
  busy := by simpa using h.busy

end view

/-- Two states with one cursor, both busy or both idle. -/
def SamePlace (s t : State) : Prop := t.cur = s.cur ∧ t.status.busy = s.status.busy

theorem samePlace_finishIf {s t : State} (h : SamePlace s t) (done : Bool) :
    SamePlace (finishIf done s) (finishIf done t) := by
  obtain ⟨hcur, hbusy⟩ := h
  cases done
  · exact ⟨hcur, hbusy⟩
  · exact ⟨hcur, rfl⟩

/-- Where the cursor goes and whether the command finishes depends on the dimensions and the cursor alone. -/
theorem samePlace_after {i : Instr} {r s t : State} {bs : List Byte} {after : State → State} (hm : EncodeMove r i bs after)
    (h : SameView s t) : SamePlace (after s) (after t) := by
  cases hm with
  | planes =>
    unfold advancePlanes
    rw [h.cur, imgHeight_view h]
    split_ifs
    · apply samePlace_finishIf
      exact ⟨rfl, h.busy⟩
    · exact ⟨rfl, h.busy⟩
    · exact ⟨rfl, h.busy⟩
  | groups =>
    unfold advanceGroups
    rw [h.cur, imgHeight_view h, groupsPerRow_view h]
    split_ifs
    · apply samePlace_finishIf
      exact ⟨rfl, h.busy⟩
    · exact ⟨rfl, h.busy⟩
  | header => exact ⟨by simp [h.cur], h.busy⟩
  | diagnostic => exact ⟨h.cur, rfl⟩
  | line =>
    unfold advanceLines
    rw [h.cur, imgHeight_view h]
    apply samePlace_finishIf
    exact ⟨rfl, h.busy⟩

/-! ### The step -/

/-- Both states append the same bytes within the capacity and then move in the same way. -/
def StepsAlike (i : Instr) (s t s' : State) : Prop :=
  ∃ bs after, EncodeMove s i bs after ∧ s.encLen.toNat + bs.length ≤ hwConfig.encCap ∧
    s' = after (encAppendAll bs s) ∧ encodeStep i t = emit hwConfig bs after t

theorem stepsAlike_of_emit {i : Instr} {s t s' : State} {bs : List Byte} {after : State → State}
    (hm : EncodeMove s i bs after) (hs : emit hwConfig bs after s = .next s')
    (ht : encodeStep i t = emit hwConfig bs after t) : StepsAlike i s t s' := by
  obtain ⟨hcap, rfl⟩ := emit_eq_next.mp hs
  exact ⟨bs, after, hm, hcap, rfl, ht⟩

section step
variable {s t s' : State} (h : SameView s t)
include h

theorem encaStep1_alike (hs : encaStep1 hwConfig s = .next s') : StepsAlike .enca1 s t s' := by
  unfold encaStep1 at hs
  split at hs
  next hin =>
    refine stepsAlike_of_emit (.planes (.inl ⟨rfl, rfl⟩) hin _) hs ?_
    rw [encodeStep, encaStep1, encaStride_view h, planesInside_view h, if_pos hin, encaByte1_view h, h.cur]
  next => cases hs

theorem encaStep2_alike (hs : encaStep2 hwConfig s = .next s') : StepsAlike .enca2 s t s' := by
  unfold encaStep2 at hs
  split at hs
  next hin =>
    split at hs
    next b hbyte =>
      refine stepsAlike_of_emit (.planes (.inr ⟨rfl, rfl⟩) hin b) hs ?_
      rw [encodeStep, encaStep2, encaStride_view h, planesInside_view h, if_pos hin, encaByte2_view h, h.cur, hbyte]
    next => cases hs
  next => cases hs

theorem encbStep_alike {i : Instr} {two : Bool} (hi : i = .encb1p ∧ two = false ∨ i = .encb2p ∧ two = true)
    (hs : encbStep hwConfig two s = .next s') : StepsAlike i s t s' := by
  have hstep : encodeStep i t = encbStep hwConfig two t := by obtain ⟨rfl, rfl⟩ | ⟨rfl, rfl⟩ := hi <;> rfl
  unfold encbStep at hs
  split at hs
  next hin =>
    refine stepsAlike_of_emit (.groups hi hin) hs ?_
    rw [hstep, encbStep, groupsInside_view h, if_pos hin, encbBytes_view h]
  next => cases hs

theorem encasmStep_alike {i : Instr} {two : Bool} (hi : i = .encasm1p ∧ two = false ∨ i = .encasm2p ∧ two = true)
    (hs : encasmStep hwConfig two s = .next s') : StepsAlike i s t s' := by
  have hstep : encodeStep i t = encasmStep hwConfig two t := by obtain ⟨rfl, rfl⟩ | ⟨rfl, rfl⟩ := hi <;> rfl
  have hi' : i = .encasm1p ∨ i = .encasm2p := hi.imp And.left And.left
  rw [encasmStep, h.cur] at hstep
  unfold encasmStep at hs
  split at hs
  next h0 =>
    rw [if_pos h0, headerStep, imgWidth_view h, headerText_view h] at hstep
    unfold headerStep at hs
    split at hs
    next hw => exact stepsAlike_of_emit (.header hi' h0 hw) hs (hstep.trans (if_pos hw))
    next hw => exact stepsAlike_of_emit (.diagnostic hi' h0 hw) hs (hstep.trans (if_neg hw))
  next h0 =>
    split at hs
    next h1 =>
      rw [if_neg h0, if_pos h1, lineStep, h.cur, imgHeight_view h, rowLine_view h] at hstep
      unfold lineStep at hs
      split at hs
      next hy => exact stepsAlike_of_emit (.line hi h1 hy) hs (hstep.trans (if_pos hy))
      next => cases hs
    next => cases hs

theorem encodeStep_alike {i : Instr} (hc : isConvert i = false) (hs : encodeStep i s = .next s') : StepsAlike i s t s' := by
  cases i
  case enca1 => exact encaStep1_alike h hs
  case enca2 => exact encaStep2_alike h hs
  case encb1p => exact encbStep_alike h (.inl ⟨rfl, rfl⟩) hs
  case encb2p => exact encbStep_alike h (.inr ⟨rfl, rfl⟩) hs
  case encasm1p => exact encasmStep_alike h (.inl ⟨rfl, rfl⟩) hs
  case encasm2p => exact encasmStep_alike h (.inr ⟨rfl, rfl⟩) hs
  all_goals cases hc

end step

/-- Settles O39: both steps append one list of bytes at one address, and their cursors and finishes are one. -/
theorem encodingReadsOutAlone : Obligations.EncodingReadsOutAlone := by
  unfold Obligations.EncodingReadsOutAlone
  intro i s t s' hc hbs hbt hw hh hout hcur hlen hs
  have h : SameView s t := ⟨hw, hh, hout, hcur, hbt.trans hbs.symm⟩
  rw [exec_encodeStep hc hbs] at hs
  obtain ⟨bs, after, hm, hcap, rfl, ht⟩ := encodeStep_alike h hc hs
  have hcapt : t.encLen.toNat + bs.length ≤ hwConfig.encCap := hlen ▸ hcap
  obtain ⟨hlens, hbytes, -⟩ := appended_encodeMove hm hcap
  obtain ⟨hlent, hbytet, -⟩ := appended_encodeMove (encodeMove_view h hm) hcapt
  obtain ⟨hcur', hbusy'⟩ := samePlace_after hm (sameView_encAppendAll h bs)
  refine ⟨_, exec_of_emit hc hbt hcapt ht, hcur', BitVec.eq_of_toNat_eq (by rw [hlens, hlent, hlen]), hbusy',
    fun a hle hlt => ?_⟩
  obtain ⟨k, rfl⟩ := Nat.exists_eq_add_of_le hle
  have hk : k < bs.length := by omega
  rw [hbytes k hk, ← hlen, hbytet k hk]

end Sys2Proof.Proofs
end

section
/-! PROOFS. The nibble palette encoder: the palette's classifier and the bits of the tokens, a token's text, and the steps of
ENCASM with the text they append (44_nibble_palette_encoder.md R131 to R140). -/

namespace Sys2Proof.Proofs

open Sys2Proof.Machine Sys2Proof.Claims Sys2Proof.Laws

/-! ### The classifier (R131) -/

theorem paletteHigh_exclusive {cfg : Config} (h : cfg.palHighInclusive = false) (v : Byte) :
    paletteHigh cfg v = decide (85 < v.toNat) := by rw [paletteHigh, h, if_neg Bool.false_ne_true]

theorem paletteHigh_inclusive {cfg : Config} (h : cfg.palHighInclusive = true) (v : Byte) :
    paletteHigh cfg v = decide (85 ≤ v.toNat) := by rw [paletteHigh, h, if_pos rfl]

/-- An exclusive and an inclusive cutoff class a byte alike unless it is the cutoff. -/
theorem paletteHigh_agree_iff {lo hi : Config} (hlo : lo.palHighInclusive = false) (hhi : hi.palHighInclusive = true)
    (v : Byte) : paletteHigh lo v = paletteHigh hi v ↔ v ≠ 85 := by
  have hcut : v ≠ 85 ↔ v.toNat ≠ 85 := BitVec.toNat_inj.symm.not
  rw [paletteHigh_exclusive hlo, paletteHigh_inclusive hhi, decide_eq_decide, hcut]
  omega

/-- No level lies above 85 and at or below 127. -/
theorem level_over_cutoff_iff {v : Byte} (h : isLevel v = true) : 85 < v.toNat ↔ 127 < v.toNat := by
  obtain ⟨l, hl⟩ := exists_levelIdx h
  have hv := toNat_of_levelIdx hl
  omega

/-- Settles O32: each setting is a comparison with 85, and the two cutoffs part at 85 alone. -/
theorem paletteClassifier : Obligations.PaletteClassifier := by
  unfold Obligations.PaletteClassifier
  intro cfg
  refine ⟨paletteHigh_exclusive, paletteHigh_inclusive, fun cfg' v hne => ?_, fun h v hl => ?_, fun h => ?_⟩
  · cases h : cfg.palHighInclusive with
    | false => exact paletteHigh_agree_iff h (Bool.eq_true_of_not_eq_false fun h' => hne (h.trans h'.symm)) v
    | true =>
      rw [eq_comm]
      exact paletteHigh_agree_iff (Bool.eq_false_of_not_eq_true fun h' => hne (h.trans h'.symm)) h v
  · rw [paletteHigh_exclusive h, decide_eq_decide]
    exact level_over_cutoff_iff hl
  · rw [paletteHigh_inclusive h]
    rfl

/-! ### Tokens and their text (R132 to R135) -/

/-- Settles O33: the bits of both tokens, each pixel's classes in its own pair. -/
theorem tokenBits : Obligations.TokenBits := by
  unfold Obligations.TokenBits
  intro cfg s y g k hpal hk
  obtain ⟨hgreen, hzero⟩ := getLsbD_token1 hpal s y g hk
  obtain ⟨hred, hblue⟩ := getLsbD_token2 hpal s y g hk
  exact ⟨hgreen, hzero, hred, hblue⟩

/-- The eight digits as one list, bit 7 first. -/
theorem tokenText_eq (b : Byte) :
    tokenText b = 0x25 :: (List.range 8).map (fun k => digitText (b.getLsbD (7 - k))) := rfl

/-- Settles O34: character k + 1 is the digit of bit 7 - k. -/
theorem tokenTextDigits : Obligations.TokenTextDigits := by
  unfold Obligations.TokenTextDigits
  refine fun b => ⟨tokenText_length b, rfl, fun k hk => ?_⟩
  rw [tokenText_eq, List.getElem?_cons_succ, List.getElem?_map, List.getElem?_range hk, Option.map_some, digitText]

/-! ### The text the statements print (R136 to R138) -/

theorem headerLines_eq (s : State) : headerLines s = headerText s := by
  have hheight : ascii "; Height: " = heightText := by decide
  have hwidth : ascii "; Width: " = widthText := by decide
  have hlf : ascii "\n" = [0x0A] := by decide
  rw [headerLines, hheight, hwidth, hlf, decimalText_eq, decimalText_eq, headerText]

theorem diagnosticLine_eq : diagnosticLine = diagnosticText := by decide

theorem rowLineText_eq (two : Bool) (s : State) : rowLineText two s = rowLine hwConfig two s s.cur.y.toNat := by
  have htab : ascii "\tdc.b\t" = [0x09, 0x64, 0x63, 0x2E, 0x62, 0x09] := by decide
  have hcomma : ascii "," = [0x2C] := by decide
  have hlf : ascii "\n" = [0x0A] := by decide
  rw [rowLineText, htab, hcomma, hlf, rowLine, joinTokens_eq, rowTokens_eq, rowTokenBytes, groupsPerRow]

/-! ### The steps of ENCASM (R139, R140) -/

/-- A move that is due, with room in ENC for its bytes, is made: the bytes appended and the frame kept. -/
theorem exec_encodeMove {i : Instr} {s : State} {bs : List Byte} {after : State → State} (hm : EncodeMove s i bs after)
    (hc : isConvert i = false) (hb : s.status.busy = true) (hcap : s.encLen.toNat + bs.length ≤ hwConfig.encCap)
    (hstep : encodeStep i s = emit hwConfig bs after s) :
    exec i s = .next (after (encAppendAll bs s)) ∧ Appended s (after (encAppendAll bs s)) bs ∧
      EncodeFrame s (after (encAppendAll bs s)) :=
  ⟨exec_of_emit hc hb hcap hstep, appended_encodeMove hm hcap, encodeFrame_encodeMove hm⟩

section step0
variable {i : Instr} (hi : i = .encasm1p ∨ i = .encasm2p) {s : State}
include hi

theorem isConvert_encasm : isConvert i = false := by obtain rfl | rfl := hi <;> rfl

theorem encodeStep_step0 (h0 : s.cur.hdr = 0) : encodeStep i s = headerStep hwConfig s := by
  obtain rfl | rfl := hi <;> exact if_pos h0

theorem encodeStep_header (h0 : s.cur.hdr = 0) (hw : imgWidth s % 4 = 0) :
    encodeStep i s = emit hwConfig (headerText s) beginLines s :=
  (encodeStep_step0 hi h0).trans (if_pos hw)

theorem encodeStep_diagnostic (h0 : s.cur.hdr = 0) (hw : imgWidth s % 4 ≠ 0) :
    encodeStep i s = emit hwConfig (headerText s ++ diagnosticText) finishDiag s :=
  (encodeStep_step0 hi h0).trans (if_neg hw)

end step0

theorem encodeStep_line {i : Instr} {two : Bool} (hi : i = .encasm1p ∧ two = false ∨ i = .encasm2p ∧ two = true)
    {s : State} (h1 : s.cur.hdr = 1) (hy : s.cur.y.toNat < imgHeight s) :
    encodeStep i s = emit hwConfig (rowLine hwConfig two s s.cur.y.toNat) advanceLines s := by
  have hstep : encodeStep i s = encasmStep hwConfig two s := by obtain ⟨rfl, rfl⟩ | ⟨rfl, rfl⟩ := hi <;> rfl
  rw [hstep, encasmStep, if_neg (by simp [h1]), if_pos h1, lineStep, if_pos hy]

/-- Settles O36: the header lines are the bytes of step 0, and the rows begin after them. -/
theorem headerStep : Obligations.HeaderStep := by
  unfold Obligations.HeaderStep
  intro i s hi hb h0 hw hcap
  rw [headerLines_eq] at hcap ⊢
  obtain ⟨hexec, happ, hframe⟩ :=
    exec_encodeMove (.header hi h0 hw) (isConvert_encasm hi) hb hcap (encodeStep_header hi h0 hw)
  exact ⟨_, hexec, happ, by simp, by simp, hframe⟩

/-- Appending does not touch OUT, whatever it holds. -/
theorem encAppendAll_withOut (bs : List Byte) (s : State) (m : Memory) :
    encAppendAll bs { s with out := m } = { encAppendAll bs s with out := m } := by
  induction bs generalizing s with
  | nil => rfl
  | cons b bs ih => exact ih (encAppend b s)

/-- Settles O37: the diagnostic line follows the header, the finish sets DIAG, and another OUT takes the same step. -/
theorem diagnosticStep : Obligations.DiagnosticStep := by
  unfold Obligations.DiagnosticStep
  intro i s hi hb h0 hw hcap
  rw [headerLines_eq, diagnosticLine_eq] at hcap ⊢
  obtain ⟨hexec, happ, hframe⟩ :=
    exec_encodeMove (.diagnostic hi h0 hw) (isConvert_encasm hi) hb hcap (encodeStep_diagnostic hi h0 hw)
  refine ⟨_, hexec, happ, by simp, by simp, hframe, rfl, fun m => ?_⟩
  have hother : exec i { s with out := m } = .next (finishDiag (encAppendAll _ { s with out := m })) :=
    exec_of_emit (isConvert_encasm hi) hb hcap (encodeStep_diagnostic (s := { s with out := m }) hi h0 hw)
  rw [hother, encAppendAll_withOut]
  rfl

/-- Settles O38: the row's line is appended, and the cursor moves to the next row. -/
theorem rowLineStep : Obligations.RowLineStep := by
  unfold Obligations.RowLineStep
  intro i two s hi hb h1 hy hcap
  rw [rowLineText_eq] at hcap ⊢
  obtain ⟨hexec, happ, hframe⟩ := exec_encodeMove (.line hi h1 hy) (isConvert_encasm (hi.imp And.left And.left)) hb hcap
    (encodeStep_line hi h1 hy)
  have hstatus := advanceLines_status (s := encAppendAll (rowLine hwConfig two s s.cur.y.toNat) s) (by simpa using hy)
  rw [encAppendAll_cur, encAppendAll_status, imgHeight_encAppendAll] at hstatus
  exact ⟨_, hexec, happ, rowLine_length hwConfig two s _, by simp, hstatus, hframe⟩

end Sys2Proof.Proofs
end

section
/-! PROOFS. No fault is in reach: under the invariant whichever turn is due ends in a next state or a refusal, never in a fault
(60_exceptions.md R145; 10_state.md R16, R19). -/

namespace Sys2Proof.Proofs

open Sys2Proof.Machine Sys2Proof.Claims Sys2Proof.Laws

/-- An answer that is no fault: a next state or a refusal. -/
def FaultFree (r : Result) : Prop := ∀ f, r ≠ .fault f

@[simp] theorem faultFree_next (s : State) : FaultFree (.next s) := nofun
@[simp] theorem faultFree_refused (e : Refusal) : FaultFree (.refused e) := nofun

/-! ### Commands -/

theorem startConvert_faultFree (cfg : Config) (alg : BitVec 3) (bd : BitVec 1) (ti : BitVec 8) (da : BitVec 9) (s : State) :
    FaultFree (startConvert cfg alg bd ti da s) := by
  unfold startConvert
  split_ifs <;> simp

theorem startEncode_faultFree (op : BitVec 4) (bd tp : BitVec 1) (s : State) : FaultFree (startEncode op bd tp s) := by
  unfold startEncode
  split_ifs <;> simp

/-- Every test of a command start ends in a refusal (R56, R148). -/
theorem exec_idle_faultFree (i : Instr) {s : State} (hb : s.status.busy = false) : FaultFree (exec i s) := by
  cases hc : isConvert i with
  | true =>
    obtain ⟨alg, bd, ti, da, hf⟩ := exists_convertFields hc
    rw [exec_convert s hf, runCommand_idle hb]
    exact startConvert_faultFree hwConfig alg bd ti da s
  | false =>
    obtain ⟨op, bd, tp, hf⟩ := exists_encodeFields hc
    rw [exec_encode s hf, runCommand_idle hb]
    exact startEncode_faultFree op bd tp s

/-- ENCA.2 with its cursor in range appends a byte, or refuses the step for a byte that is no level (R119). -/
theorem encaStep2_inside {s : State} (hin : planesInside (encaStride 4 s) s = true) :
    encodeStep .enca2 s = .refused .notALevel ∨
      ∃ b, encodeStep .enca2 s = emit hwConfig [b] (advancePlanes (encaStride 4 s)) s := by
  rw [encodeStep, encaStep2, if_pos hin]
  cases encaByte2 s s.cur.p.toNat s.cur.y.toNat s.cur.j.toNat 4 with
  | none => exact .inl rfl
  | some b => exact .inr ⟨b, rfl⟩

/-- A running command completes its step, or ENCA.2 refuses it: its cursor is in range and its bytes fit (R16, R19). -/
theorem exec_busy_faultFree {i : Instr} {s : State} (hb : s.status.busy = true) (he : Executing i s) :
    FaultFree (exec i s) := by
  by_cases hi : i = .enca2
  · subst hi
    have hin : planesInside (encaStride 4 s) s = true := he.inside
    obtain hno | ⟨b, hemit⟩ := encaStep2_inside hin
    · rw [exec_encodeStep rfl hb, hno]
      exact faultFree_refused _
    · have hfits := encodeMove_fits rfl he (.planes (.inr ⟨rfl, rfl⟩) hin b)
      rw [exec_of_emit rfl hb hfits hemit]
      exact faultFree_next _
  · obtain ⟨t, ht⟩ := exec_completes hb he fun h => absurd h hi
    rw [ht]
    exact faultFree_next t

/-! ### Turns -/

/-- While BUSY = 1 the invariant has the latches name the command in execution. -/
theorem issueEngine_faultFree {s : State} (h : Inv s) : FaultFree (resultOf (issueEngine s)) := by
  cases hb : s.status.busy with
  | false => rw [resultOf_issueEngine_idle hb]; exact faultFree_next s
  | true =>
    obtain ⟨i, he⟩ := h.busy hb
    rw [resultOf_issueEngine_busy hb he.latched]
    exact exec_busy_faultFree hb he

theorem issueCmd_faultFree (w : Word) (s : State) : FaultFree (resultOf (issueCmd w s)) := by
  cases hb : s.status.busy with
  | true => rw [resultOf_issueCmd_busy w hb]; exact faultFree_next s
  | false =>
    cases hd : decode w with
    | ok i => rw [resultOf_issueCmd_ok hb hd]; exact exec_idle_faultFree i hb
    | error e => rw [resultOf_issueCmd_reserved hb hd]; exact faultFree_next _

theorem hostRead_faultFree (sp : Space) (a : Nat) (s : State) : FaultFree (hostRead sp a s) := by
  cases sp <;> unfold hostRead <;> split_ifs <;> simp

theorem hostWrite_faultFree (sp : Space) (a : Nat) (v : Byte) (s : State) : FaultFree (hostWrite sp a v s) := by
  cases sp <;> unfold hostWrite <;> split_ifs <;> simp

/-- A host move never faults, whatever the state: one that is no move is refused (R155). -/
theorem issueHost_faultFree (m : HostMove) (s : State) : FaultFree (resultOf (issueHost m s)) := by
  cases m with
  | readReg n => exact faultFree_next _
  | writeReg n v =>
    by_cases hn : n = 0
    · rw [hn, issueHost_writeCmd]
      exact issueCmd_faultFree v s
    · rw [resultOf_writePlain v s hn]
      exact faultFree_next _
  | readBuf sp a => exact hostRead_faultFree sp a s
  | writeBuf sp a v => exact hostWrite_faultFree sp a v s
  | reset => exact faultFree_next _

theorem step_faultFree {s : State} (h : Inv s) : FaultFree (step s) := by
  match ha : s.port.agenda with
  | [] => rw [step_of_empty ha]; exact issueEngine_faultFree h
  | .engine :: ts => rw [step_of_engine ha]; exact issueEngine_faultFree (inv_port _ h)
  | .host m :: ts => rw [step_of_host ha]; exact issueHost_faultFree m (withAgenda ts s)

/-- Settles O54: the engine's turn needs the invariant, and a host move faults in no state. -/
theorem noFaultUnderInvariant : Obligations.NoFaultUnderInvariant := by
  unfold Obligations.NoFaultUnderInvariant
  exact fun s f h => step_faultFree h f

end Sys2Proof.Proofs
end

section
/-! PROOFS. What a conversion depends on: SRC, W, H and the command word alone (70_reset_and_hazards.md R161, R176). -/

namespace Sys2Proof.Proofs

open Sys2Proof.Machine Sys2Proof.Claims Sys2Proof.Laws

/-! ### Positions in visiting order -/

/-- Every pixel of the image comes before the position W H (R16). -/
theorem pixelPos_lt {w h x y : Nat} (hx : x < w) (hy : y < h) : y * w + x < w * h := by
  rw [Nat.mul_comm y w, Nat.mul_comm w h]
  exact Nat.mul_add_lt_mul_of_lt_of_lt hy hx

/-- Once the command has finished, every pixel has been passed (R60). -/
theorem visited_of_finished {i : Instr} (hc : isConvert i = true) {s : State} (hb : s.status.busy = true)
    (hin : rasterInside s = true) (hdone : (advanceRaster (convertPixel i s)).status.busy = false) {x y : Nat}
    (hx : x < imgWidth s) (hy : y < imgHeight s) : visited (advanceRaster (convertPixel i s)) x y := by
  have hlast : stepsTaken i s + 1 = commandSteps i s := by
    by_contra hmore
    obtain ⟨hstatus, -⟩ := (stepEffect_convert hc hb hin).more hmore
    simp [hstatus, hb] at hdone
  rw [stepsTaken_convert hc, commandSteps_convert hc] at hlast
  rw [visited, rasterPos_advance (by simpa using hin), rasterPos_convertPixel, hlast]
  simpa using pixelPos_lt hx hy

/-- The pixels passed after a step are those passed before it and the one at the cursor. -/
theorem visited_convertStep {i : Instr} {s : State} (hin : rasterInside s = true) {x y : Nat}
    (h : visited (advanceRaster (convertPixel i s)) x y) :
    visited s x y ∨ y * imgWidth s + x = s.cur.y.toNat * imgWidth s + s.cur.x.toNat := by
  rw [visited, rasterPos_advance (by simpa using hin)] at h
  simp only [imgWidth_advanceRaster, imgWidth_convertPixel, rasterPos_convertPixel] at h
  exact Nat.lt_succ_iff_lt_or_eq.mp h

/-! ### The start -/

theorem alg_of_isDiffusion {i : Instr} {alg : BitVec 3} {bd : BitVec 1} {ti : BitVec 8} {da : BitVec 9}
    (hf : convertFields i = some (alg, bd, ti, da)) (hd : isDiffusion i = true) : alg = 1 ∨ alg = 2 := by
  obtain ⟨k, _, _, _, hk⟩ := exists_kernelFields hd
  cases hf.symm.trans hk
  exact kernelAlg_loads k

/-- Two starts on one image agree: WORK is filled from SRC, and no pixel has been passed yet (R56). -/
theorem sameConversion_start {i : Instr} {alg : BitVec 3} {bd : BitVec 1} {ti : BitVec 8} {da : BitVec 9}
    (hf : convertFields i = some (alg, bd, ti, da)) {s t : State} (hw : s.imgW = t.imgW) (hh : s.imgH = t.imgH)
    (hsrc : SameSrc s t) : SameConversion i (beginRaster (loadWork (latchConvert alg bd ti da s)))
      (beginRaster (loadWork (latchConvert alg bd ti da t))) where
  width := by simp [hw]
  height := by simp [hh]
  source a := by simpa using hsrc a
  busy := rfl
  x := by simp
  y := by simp
  threshold := by simp
  amount := by simp
  work hd c x y hc hx hy := by
    have hwidth : imgWidth t = imgWidth s := congrArg BitVec.toNat hw.symm
    have hheight : imgHeight t = imgHeight s := congrArg BitVec.toNat hh.symm
    have halg := alg_of_isDiffusion hf hd
    have hx' : x < imgWidth s := by simpa using hx
    have hy' : y < imgHeight s := by simpa using hy
    rw [workChan_beginRaster, workChan_beginRaster, workChan_loadWork halg hc (by simpa [hwidth]) (by simpa [hheight]),
      workChan_loadWork halg hc (by simpa) (by simpa), srcChan_latchConvert, srcChan_latchConvert, srcChan, srcChan,
      hwidth, hsrc]
  done c x y _ _ _ hvisited := by simp [visited, rasterPos] at hvisited

/-! ### One step -/

/-- A CONVERT without error diffusion thresholds or dithers by a matrix. -/
theorem convertPixel_cases_of_plain {i : Instr} (hc : isConvert i = true) (hd : isDiffusion i = false) :
    (∃ bd, convertPixel i = thrPixel hwConfig bd) ∨ ∃ m bd, convertPixel i = ordPixel hwConfig m bd := by
  cases i
  case thr1 | thr2 => exact .inl ⟨_, rfl⟩
  case ord2_1 | ord2_2 | ord4_1 | ord4_2 | ord8_1 | ord8_2 => exact .inr ⟨_, _, rfl⟩
  case fs1 | fs2 | atk1 | atk2 => cases hd
  all_goals cases hc

/-- One pixel written at one place in two states: a byte agrees afterwards if it agreed before or belongs to the pixel. -/
theorem outByte_writePixel_congr (r g b : Byte) {s t : State} (hw : imgWidth t = imgWidth s) (hx : t.cur.x = s.cur.x)
    (hy : t.cur.y = s.cur.y) {a : Nat} (h : outByte t a = outByte s a ∨
      ∃ c < 4, a = pixelAddr (imgWidth s) s.cur.x.toNat s.cur.y.toNat c) :
    outByte (writePixel r g b t) a = outByte (writePixel r g b s) a := by
  rw [outByte_writePixel, outByte_writePixel, hw, hx, hy]
  obtain hkept | ⟨c, hc, rfl⟩ := h
  · rw [hkept]
  · obtain rfl | rfl | rfl | rfl : c = 0 ∨ c = 1 ∨ c = 2 ∨ c = 3 := by omega
    all_goals simp

section step
variable {i : Instr} {s t : State} (h : SameConversion i s t)
include h

theorem sameConversion_imgWidth : imgWidth t = imgWidth s := congrArg BitVec.toNat h.width

/-- A command that uses WORK finds the same planes in both states. -/
theorem samePlane_of_sameConversion (hd : isDiffusion i = true) {c : Nat} (hc : c < 3) : SamePlane c s t where
  width := h.width
  height := h.height
  x := h.x
  y := h.y
  threshold := h.threshold
  amount := h.amount
  plane x y hx hy := h.work hd c x y hc hx hy

theorem srcAtCursor_sameConversion (c : Nat) : srcAtCursor t c = srcAtCursor s c := by
  rw [srcAtCursor, srcChan, sameConversion_imgWidth h, h.x, h.y, h.source, srcAtCursor, srcChan]

/-- The two states write the same R, G and B bytes: the levels read SRC, or WORK in error diffusion, the place and the parameters
alone. -/
theorem outByte_convertPixel_pair (hc : isConvert i = true) (hin : rasterInside s = true) :
    ∃ r g b, (∀ a, outByte (convertPixel i s) a = outByte (writePixel r g b s) a) ∧
      ∀ a, outByte (convertPixel i t) a = outByte (writePixel r g b t) a := by
  cases hd : isDiffusion i with
  | true =>
    obtain ⟨k, bd, _, _, hf⟩ := exists_kernelFields hd
    have hlevel : ∀ c < 3, edLevel hwConfig bd t c = edLevel hwConfig bd s c := fun c hc3 =>
      edLevel_samePlane (samePlane_of_sameConversion h hd hc3) bd hin
    have hin' : rasterInside t = true :=
      (samePlane_inside (samePlane_of_sameConversion h hd (c := 0) (by decide))).trans hin
    rw [convertPixel_kernel hf]
    refine ⟨_, _, _, outByte_edPixel_eq _ k bd hin, fun a => ?_⟩
    rw [outByte_edPixel_eq _ k bd hin', hlevel 0 (by decide), hlevel 1 (by decide), hlevel 2 (by decide)]
  | false =>
    obtain ⟨bd, hpixel⟩ | ⟨m, bd, hpixel⟩ := convertPixel_cases_of_plain hc hd <;> rw [hpixel]
    · refine ⟨_, _, _, fun a => rfl, fun a => ?_⟩
      simp only [thrPixel, srcAtCursor_sameConversion h, h.threshold]
    · refine ⟨_, _, _, fun a => rfl, fun a => ?_⟩
      simp only [ordPixel, ordAtCursor, modAtCursor, srcAtCursor_sameConversion h, h.threshold, h.amount, h.x, h.y]

/-- After the pixel the states agree where they did before, and at the cursor. -/
theorem outChan_convertPixel_pair (hc : isConvert i = true) (hin : rasterInside s = true) {c x y : Nat} (hc4 : c < 4)
    (hx : x < imgWidth s) (hy : y < imgHeight s)
    (hpassed : visited s x y ∨ y * imgWidth s + x = s.cur.y.toNat * imgWidth s + s.cur.x.toNat) :
    outChan (convertPixel i t) x y c = outChan (convertPixel i s) x y c := by
  obtain ⟨r, g, b, hs, ht⟩ := outByte_convertPixel_pair h hc hin
  have hwidth := sameConversion_imgWidth h
  rw [outChan, outChan, imgWidth_convertPixel, imgWidth_convertPixel, hwidth, hs, ht]
  refine outByte_writePixel_congr r g b hwidth h.x h.y (hpassed.imp (fun hv => ?_) fun hcur => ⟨c, hc4, ?_⟩)
  · have hdone := h.done c x y hc4 hx hy hv
    rwa [outChan, outChan, hwidth] at hdone
  · rw [pixelAddr, pixelAddr, hcur]

/-- A pair of steps keeps the agreement, and extends it to the pixel at the cursor. -/
theorem sameConversion_step (hc : isConvert i = true) (hin : rasterInside s = true) :
    SameConversion i (advanceRaster (convertPixel i s)) (advanceRaster (convertPixel i t)) := by
  have hw : (convertPixel i t).imgW = (convertPixel i s).imgW := by simpa using h.width
  have hh : (convertPixel i t).imgH = (convertPixel i s).imgH := by simpa using h.height
  have hx : (convertPixel i t).cur.x = (convertPixel i s).cur.x := by simpa using h.x
  have hy : (convertPixel i t).cur.y = (convertPixel i s).cur.y := by simpa using h.y
  obtain ⟨hcurx, hcury⟩ := advanceRaster_cur_congr hw hx hy
  exact {
    width := by simpa using h.width
    height := by simpa using h.height
    source := fun a => by simpa [srcByte] using h.source a
    busy := advanceRaster_busy_congr hw hh hx hy (by simpa using h.busy)
    x := hcurx
    y := hcury
    threshold := by simpa using h.threshold
    amount := by simpa using h.amount
    work := fun hd c x y hc3 hx hy => by
      obtain ⟨k, bd, _, _, hf⟩ := exists_kernelFields hd
      rw [convertPixel_kernel hf] at hx hy ⊢
      exact (samePlane_kernelStep (samePlane_of_sameConversion h hd hc3) k bd hin hc3).plane x y hx hy
    done := fun c x y hc4 hx hy hv => by
      rw [outChan_advanceRaster, outChan_advanceRaster]
      exact outChan_convertPixel_pair h hc hin hc4 (by simpa using hx) (by simpa using hy) (visited_convertStep hin hv) }

end step

/-- Settles O25: the starts agree, `sameConversion_step` keeps the agreement, and at the finish every pixel has been passed. -/
theorem conversionDeterministic : Obligations.ConversionDeterministic := by
  unfold Obligations.ConversionDeterministic
  refine fun i hc => ⟨fun s t s' t' hbs hbt hw hh hsrc hs ht => ?_, fun s t s' t' h hb hs ht => ?_⟩
  · obtain ⟨alg, bd, ti, da, hf⟩ := exists_convertFields hc
    rw [exec_convert s hf, runCommand_idle hbs] at hs
    rw [exec_convert t hf, runCommand_idle hbt] at ht
    obtain ⟨-, -, rfl⟩ := startConvert_eq_next.mp hs
    obtain ⟨-, -, rfl⟩ := startConvert_eq_next.mp ht
    exact sameConversion_start hf hw hh hsrc
  · rw [exec_convertStep hc hb] at hs
    rw [exec_convertStep hc (h.busy.trans hb)] at ht
    obtain ⟨hin, rfl⟩ := pixelStep_eq_next.mp hs
    obtain ⟨-, rfl⟩ := pixelStep_eq_next.mp ht
    have hnext := sameConversion_step h hc hin
    exact ⟨hnext, fun hdone c x y hc4 hx hy => hnext.done c x y hc4 (by simpa using hx) (by simpa using hy)
      (visited_of_finished hc hb hin hdone hx hy)⟩

end Sys2Proof.Proofs
end

section
/-! PROOFS. What a running command ignores: the host's register writes (70_reset_and_hazards.md R168). -/

namespace Sys2Proof.Proofs

open Sys2Proof.Machine Sys2Proof.Claims Sys2Proof.Laws

/-- While BUSY = 1 a write of any register takes its turn and changes nothing (R11, R13, R14, R168). -/
theorem step_writeReg_busy {s : State} {n : Nat} {v : Word} {ts : List Turn} (hb : s.status.busy = true)
    (ha : s.port.agenda = .host (.writeReg n v) :: ts) : step s = .next (withAgenda ts s) := by
  rw [step_of_host ha]
  have hb' : (withAgenda ts s).status.busy = true := hb
  by_cases hn : n = 0
  · subst hn
    rw [issueHost_writeCmd, resultOf_issueCmd_busy v hb']
  · rw [resultOf_writePlain v _ hn, writePlainReg_busy n v hb']

/-- Settles O44: CMD, IMG_W and IMG_H are registers like any other here. -/
theorem busyIgnoresWrites : Obligations.BusyIgnoresWrites := by
  unfold Obligations.BusyIgnoresWrites
  exact fun s n v ts hb _ ha => step_writeReg_busy hb ha

end Sys2Proof.Proofs
end
